-- ==== Sys2Proof/Word.lean ====
section
/-! DEFINITION. The words of the block: what the spec treats as bits is a bit vector (00_scope.md R11, R12, R14). -/

namespace Sys2Proof

/-- A bit of a bit sequence, `0` or `1`, "also written `false`/`true`" (00_scope.md R11). -/
abbrev Bit := Bool

/-- A byte of a byte buffer. -/
abbrev Byte := BitVec 8

/-- An argument register, a result register, an index (00_scope.md R12). -/
abbrev U64 := BitVec 64

/-- The 64 bits of an IEEE 754 binary64 value (00_scope.md R14). -/
abbrev F64 := BitVec 64

/-- A command word `CMD32` (30_encoding.md R100). -/
abbrev CmdWord := BitVec 32

end Sys2Proof
end

