-- ==== Sys2Proof/Syntax.lean ====
section
/-! DEFINITION. The commands: one constructor of Instr per row of spec/opcode_table.json, and the raw fields of a command word. -/

namespace Sys2Proof

/-- The four rings, in the order of their selector values (10_state.md R33). -/
inductive RingSel where
  | bits | clock | error | weak
deriving DecidableEq, Repr

/-- Encoding variants (43_codec_analysis.md R210). -/
inductive Variant where
  | data | addressMark
deriving DecidableEq, Repr

/-- Seek origins `Start`, `Current`, `End` (42_codec_access.md R182). -/
inductive Whence where
  | fromStart | fromCurrent | fromEnd
deriving DecidableEq, Repr

/-- PLL timing (44_pll.md R266). -/
inductive PllEnc where
  | mfm | fm
deriving DecidableEq, Repr

/-- The commands of 30_encoding.md R111, in the table's order. A Bool argument says whether the optional operand the row names is present (its `F` flag, R110), but for `isData`, where it is the `wrapping` selector (R109). Numeric operands stand in registers, none in the word (R105). -/
inductive Instr where
  | ringLen (r : RingSel)
  | ringSetWrap (r : RingSel)
  | ringSetWrapValue (r : RingSel) (present : Bool)
  | ringGet (r : RingSel)
  | ringSet (r : RingSel)
  | ringIter (r : RingSel)
  | ringIterRev (r : RingSel)
  | ringRead (r : RingSel)
  | codecNew (count mask : Bool)
  | setClockMap
  | setTrackLen
  | setWeakEnabled
  | readRawU8
  | readRawU32
  | readRawBuf
  | readDecodedU8
  | readDecodedU32
  | streamRead
  | seek (w : Whence)
  | writeRawBuf
  | writeEncodedBuf (v : Variant)
  | getClockMap
  | getErrorMap
  | getWeakData
  | setDataRanges
  | isData (wrapping : Bool)
  | encodeMfm (v : Variant)
  | findMarker (limit : Bool)
  | findSync
  | createWeakMask (run : Bool)
  | createErrorMap
  | pllConfig
  | pllReset
  | pllDecode (e : PllEnc) (hint : Bool)
  | revNormalize
  | revAlignPair
  | revDecodeDirect
  | regRead
deriving DecidableEq, Repr

/-- The fields of a command word (30_encoding.md R101). -/
structure CmdFields where
  opc : BitVec 8
  sel : BitVec 4
  flags : BitVec 4
  zero : BitVec 16
deriving DecidableEq, Repr

end Sys2Proof
end

