-- ==== Sys2Proof/WellFormed.lean ====
section
/-! DEFINITION. The four checks of 30_encoding.md R102 on the fields of a command word, over the opcode map of R111. -/

namespace Sys2Proof

/-- Selector kinds (30_encoding.md R109). -/
inductive SelKind where
  | none | sel | var | whence | wrapping | enc
deriving DecidableEq, Repr

/-- How many `S` values a kind has: they are `0` up to it (30_encoding.md R109). -/
def SelKind.count : SelKind → Nat
  | .none => 1
  | .sel => 4
  | .var => 2
  | .whence => 3
  | .wrapping => 2
  | .enc => 2

/-- A row of the opcode map: the opcode, its selector kind, the `F` bits it defines. -/
structure OpRow where
  opc : BitVec 8
  kind : SelKind
  flags : BitVec 4
deriving DecidableEq, Repr

/-- The bit ring rows (30_encoding.md R111). -/
def ringRows : List OpRow :=
  [⟨0x10, .sel, 0⟩, ⟨0x11, .sel, 0⟩, ⟨0x12, .sel, 1⟩, ⟨0x13, .sel, 0⟩,
   ⟨0x14, .sel, 0⟩, ⟨0x15, .sel, 0⟩, ⟨0x16, .sel, 0⟩, ⟨0x17, .sel, 0⟩]

/-- The codec construction and access rows (30_encoding.md R111). -/
def codecRows : List OpRow :=
  [⟨0x20, .none, 3⟩, ⟨0x21, .none, 0⟩, ⟨0x22, .none, 0⟩, ⟨0x23, .none, 0⟩,
   ⟨0x24, .none, 0⟩, ⟨0x25, .none, 0⟩, ⟨0x26, .none, 0⟩, ⟨0x27, .none, 0⟩,
   ⟨0x28, .none, 0⟩, ⟨0x29, .none, 0⟩, ⟨0x2A, .whence, 0⟩, ⟨0x2B, .none, 0⟩,
   ⟨0x2C, .var, 0⟩, ⟨0x2D, .none, 0⟩, ⟨0x2E, .none, 0⟩, ⟨0x2F, .none, 0⟩,
   ⟨0x30, .none, 0⟩, ⟨0x31, .wrapping, 0⟩]

/-- The analysis, PLL, revolution and register rows (30_encoding.md R111). -/
def unitRows : List OpRow :=
  [⟨0x40, .var, 0⟩, ⟨0x41, .none, 1⟩, ⟨0x42, .none, 0⟩, ⟨0x43, .none, 1⟩,
   ⟨0x44, .none, 0⟩, ⟨0x50, .none, 0⟩, ⟨0x51, .none, 0⟩, ⟨0x52, .enc, 1⟩,
   ⟨0x60, .none, 0⟩, ⟨0x61, .none, 0⟩, ⟨0x62, .none, 0⟩, ⟨0x70, .none, 0⟩]

/-- The opcode map (30_encoding.md R111). -/
def opRows : List OpRow := ringRows ++ codecRows ++ unitRows

/-- The row of an opcode, if it has one. -/
def opRow? (opc : BitVec 8) : Option OpRow := opRows.find? (fun r => r.opc == opc)

/-- The opcode is in the opcode map. -/
def CmdFields.known (c : CmdFields) : Bool := (opRow? c.opc).isSome

/-- The reserved field `Z` is zero. -/
def CmdFields.reservedZero (c : CmdFields) : Bool := c.zero == 0

/-- `S` is a legal value for the opcode's selector kind. -/
def CmdFields.selectorLegal (c : CmdFields) : Bool :=
  match opRow? c.opc with
  | some r => decide (c.sel.toNat < r.kind.count)
  | none => false

/-- `F` has no bit set that the opcode does not define. -/
def CmdFields.flagsDefined (c : CmdFields) : Bool :=
  match opRow? c.opc with
  | some r => (c.flags &&& ~~~ r.flags) == 0
  | none => false

/-- The fields name exactly one command (30_encoding.md R102). -/
def CmdFields.wellFormed (c : CmdFields) : Bool :=
  c.known && c.reservedZero && c.selectorLegal && c.flagsDefined

end Sys2Proof
end

