-- ==== Sys2Proof/Decode.lean ====
section
/-! DEFINITION. The decoder of 30_encoding.md R102, total on every 32-bit word and rejecting by name, and the encoder written from the same fields (R101, R111). -/

namespace Sys2Proof

/-- The fields of a word (30_encoding.md R101). -/
def fieldsOf (w : CmdWord) : CmdFields where
  opc := w.extractLsb' 24 8
  sel := w.extractLsb' 20 4
  flags := w.extractLsb' 16 4
  zero := w.extractLsb' 0 16

/-- The word of the fields. -/
def CmdFields.word (c : CmdFields) : CmdWord := c.opc ++ c.sel ++ c.flags ++ c.zero

/-- Why a word is illegal, in the order R102 checks; the block raises `ILLEGAL_COMMAND` for each. -/
inductive DecodeError where
  | unknownOpcode
  | reservedNotZero
  | illegalSelector
  | undefinedFlag
deriving DecidableEq, Repr

/-! ### Selectors (30_encoding.md R109) -/

/-- Kind `sel`. -/
def ringOfSel (s : BitVec 4) : Option RingSel :=
  match s.toNat with
  | 0 => some .bits
  | 1 => some .clock
  | 2 => some .error
  | 3 => some .weak
  | _ => none

/-- Kind `var`. -/
def variantOfSel (s : BitVec 4) : Option Variant :=
  match s.toNat with
  | 0 => some .data
  | 1 => some .addressMark
  | _ => none

/-- Kind `whence`. -/
def whenceOfSel (s : BitVec 4) : Option Whence :=
  match s.toNat with
  | 0 => some .fromStart
  | 1 => some .fromCurrent
  | 2 => some .fromEnd
  | _ => none

/-- Kind `wrapping`. -/
def wrappingOfSel (s : BitVec 4) : Option Bool :=
  match s.toNat with
  | 0 => some false
  | 1 => some true
  | _ => none

/-- Kind `enc`. -/
def encOfSel (s : BitVec 4) : Option PllEnc :=
  match s.toNat with
  | 0 => some .mfm
  | 1 => some .fm
  | _ => none

/-- Kind `none`: the one legal value is 0. -/
def unitOfSel (s : BitVec 4) : Option Unit := if s = 0 then some () else none

/-! ### Flags (30_encoding.md R110) -/

/-- No `F` bit is defined. -/
def noFlag (f : BitVec 4) : Option Unit := if f = 0 then some () else none

/-- `F[0]` is defined. -/
def oneFlag (f : BitVec 4) : Option Bool :=
  match f.toNat with
  | 0 => some false
  | 1 => some true
  | _ => none

/-- `F[0]` and `F[1]` are defined. -/
def twoFlags (f : BitVec 4) : Option (Bool × Bool) :=
  match f.toNat with
  | 0 => some (false, false)
  | 1 => some (true, false)
  | 2 => some (false, true)
  | 3 => some (true, true)
  | _ => none

/-- The selector check, then the flag check, then the command they name (30_encoding.md R102). -/
def withFields {α β : Type} (selOf : BitVec 4 → Option α) (flagOf : BitVec 4 → Option β)
    (k : α → β → Instr) (s f : BitVec 4) : Except DecodeError Instr :=
  match selOf s with
  | none => .error .illegalSelector
  | some a =>
    match flagOf f with
    | none => .error .undefinedFlag
    | some b => .ok (k a b)

/-- An opcode with no selector and no flag. -/
def plainForm (i : Instr) : BitVec 4 → BitVec 4 → Except DecodeError Instr :=
  withFields unitOfSel noFlag (fun _ _ => i)

/-- An opcode that takes a ring and no flag. -/
def ringForm (k : RingSel → Instr) : BitVec 4 → BitVec 4 → Except DecodeError Instr :=
  withFields ringOfSel noFlag (fun r _ => k r)

/-- How the opcode reads its `S` and `F` fields (30_encoding.md R111); `none` for an opcode that is not in the map. -/
def opForm (opc : BitVec 8) : Option (BitVec 4 → BitVec 4 → Except DecodeError Instr) :=
  match opc.toNat with
  | 0x10 => some (ringForm .ringLen)
  | 0x11 => some (ringForm .ringSetWrap)
  | 0x12 => some (withFields ringOfSel oneFlag .ringSetWrapValue)
  | 0x13 => some (ringForm .ringGet)
  | 0x14 => some (ringForm .ringSet)
  | 0x15 => some (ringForm .ringIter)
  | 0x16 => some (ringForm .ringIterRev)
  | 0x17 => some (ringForm .ringRead)
  | 0x20 => some (withFields unitOfSel twoFlags (fun _ f => .codecNew f.1 f.2))
  | 0x21 => some (plainForm .setClockMap)
  | 0x22 => some (plainForm .setTrackLen)
  | 0x23 => some (plainForm .setWeakEnabled)
  | 0x24 => some (plainForm .readRawU8)
  | 0x25 => some (plainForm .readRawU32)
  | 0x26 => some (plainForm .readRawBuf)
  | 0x27 => some (plainForm .readDecodedU8)
  | 0x28 => some (plainForm .readDecodedU32)
  | 0x29 => some (plainForm .streamRead)
  | 0x2A => some (withFields whenceOfSel noFlag (fun w _ => .seek w))
  | 0x2B => some (plainForm .writeRawBuf)
  | 0x2C => some (withFields variantOfSel noFlag (fun v _ => .writeEncodedBuf v))
  | 0x2D => some (plainForm .getClockMap)
  | 0x2E => some (plainForm .getErrorMap)
  | 0x2F => some (plainForm .getWeakData)
  | 0x30 => some (plainForm .setDataRanges)
  | 0x31 => some (withFields wrappingOfSel noFlag (fun w _ => .isData w))
  | 0x40 => some (withFields variantOfSel noFlag (fun v _ => .encodeMfm v))
  | 0x41 => some (withFields unitOfSel oneFlag (fun _ f => .findMarker f))
  | 0x42 => some (plainForm .findSync)
  | 0x43 => some (withFields unitOfSel oneFlag (fun _ f => .createWeakMask f))
  | 0x44 => some (plainForm .createErrorMap)
  | 0x50 => some (plainForm .pllConfig)
  | 0x51 => some (plainForm .pllReset)
  | 0x52 => some (withFields encOfSel oneFlag .pllDecode)
  | 0x60 => some (plainForm .revNormalize)
  | 0x61 => some (plainForm .revAlignPair)
  | 0x62 => some (plainForm .revDecodeDirect)
  | 0x70 => some (plainForm .regRead)
  | _ => none

/-- The decoder (30_encoding.md R102): opcode, then `Z`, then `S`, then `F`. -/
def decode (w : CmdWord) : Except DecodeError Instr :=
  match opForm (fieldsOf w).opc with
  | none => .error .unknownOpcode
  | some form =>
    if (fieldsOf w).zero = 0 then form (fieldsOf w).sel (fieldsOf w).flags
    else .error .reservedNotZero

/-- The instruction the decoder reads from a row of spec/opcode_table.json: `w` is the 32-bit word's value, and bits at and above `nbits` are 0. A command is one word (30_encoding.md R100), so it has no byte order to lay out. -/
def decodeTableWord (nbits w : Nat) : Option Instr :=
  match decode (BitVec.ofNat 32 (w % 2 ^ nbits)) with
  | .ok i => some i
  | .error _ => none

/-! ### The encoder -/

/-- The `S` value of a ring (10_state.md R33). -/
def RingSel.code : RingSel → BitVec 4
  | .bits => 0
  | .clock => 1
  | .error => 2
  | .weak => 3

/-- The `S` value of a variant. -/
def Variant.code : Variant → BitVec 4
  | .data => 0
  | .addressMark => 1

/-- The `S` value of a seek origin. -/
def Whence.code : Whence → BitVec 4
  | .fromStart => 0
  | .fromCurrent => 1
  | .fromEnd => 2

/-- The `S` value of a PLL timing. -/
def PllEnc.code : PllEnc → BitVec 4
  | .mfm => 0
  | .fm => 1

/-- A Bool as the low bit of a field. -/
def boolCode (b : Bool) : BitVec 4 := if b then 1 else 0

/-- `F[0]` and `F[1]`. -/
def flagCode (f0 f1 : Bool) : BitVec 4 := boolCode f0 ||| (boolCode f1 <<< 1)

/-- The fields a command fills in its word (30_encoding.md R101, R111). -/
def Instr.fields : Instr → CmdFields
  | .ringLen r => ⟨0x10, r.code, 0, 0⟩
  | .ringSetWrap r => ⟨0x11, r.code, 0, 0⟩
  | .ringSetWrapValue r p => ⟨0x12, r.code, boolCode p, 0⟩
  | .ringGet r => ⟨0x13, r.code, 0, 0⟩
  | .ringSet r => ⟨0x14, r.code, 0, 0⟩
  | .ringIter r => ⟨0x15, r.code, 0, 0⟩
  | .ringIterRev r => ⟨0x16, r.code, 0, 0⟩
  | .ringRead r => ⟨0x17, r.code, 0, 0⟩
  | .codecNew c m => ⟨0x20, 0, flagCode c m, 0⟩
  | .setClockMap => ⟨0x21, 0, 0, 0⟩
  | .setTrackLen => ⟨0x22, 0, 0, 0⟩
  | .setWeakEnabled => ⟨0x23, 0, 0, 0⟩
  | .readRawU8 => ⟨0x24, 0, 0, 0⟩
  | .readRawU32 => ⟨0x25, 0, 0, 0⟩
  | .readRawBuf => ⟨0x26, 0, 0, 0⟩
  | .readDecodedU8 => ⟨0x27, 0, 0, 0⟩
  | .readDecodedU32 => ⟨0x28, 0, 0, 0⟩
  | .streamRead => ⟨0x29, 0, 0, 0⟩
  | .seek w => ⟨0x2A, w.code, 0, 0⟩
  | .writeRawBuf => ⟨0x2B, 0, 0, 0⟩
  | .writeEncodedBuf v => ⟨0x2C, v.code, 0, 0⟩
  | .getClockMap => ⟨0x2D, 0, 0, 0⟩
  | .getErrorMap => ⟨0x2E, 0, 0, 0⟩
  | .getWeakData => ⟨0x2F, 0, 0, 0⟩
  | .setDataRanges => ⟨0x30, 0, 0, 0⟩
  | .isData w => ⟨0x31, boolCode w, 0, 0⟩
  | .encodeMfm v => ⟨0x40, v.code, 0, 0⟩
  | .findMarker l => ⟨0x41, 0, boolCode l, 0⟩
  | .findSync => ⟨0x42, 0, 0, 0⟩
  | .createWeakMask r => ⟨0x43, 0, boolCode r, 0⟩
  | .createErrorMap => ⟨0x44, 0, 0, 0⟩
  | .pllConfig => ⟨0x50, 0, 0, 0⟩
  | .pllReset => ⟨0x51, 0, 0, 0⟩
  | .pllDecode e h => ⟨0x52, e.code, boolCode h, 0⟩
  | .revNormalize => ⟨0x60, 0, 0, 0⟩
  | .revAlignPair => ⟨0x61, 0, 0, 0⟩
  | .revDecodeDirect => ⟨0x62, 0, 0, 0⟩
  | .regRead => ⟨0x70, 0, 0, 0⟩

/-- The command's fields pass every check of 30_encoding.md R102. -/
def Instr.wellFormed (i : Instr) : Bool := i.fields.wellFormed

/-- The word of a command. -/
def encode (i : Instr) : CmdWord := i.fields.word

end Sys2Proof
end

