-- ==== Sys2Proof/Machine/Bits.lean ====
section
/-! DEFINITION. Bit sequences, bytes and integers: "the first bit in index order is the most significant bit" (00_scope.md R13, 20_memory.md R80). -/

namespace Sys2Proof.Machine

/-- `pack_msb` (00_scope.md R13): the first bit is the most significant. -/
def packMsb (s : List Bit) : Nat := s.foldl (fun v b => 2 * v + b.toNat) 0

/-- A byte from its bits, the low end padded with 0 when there are fewer than eight (00_scope.md R13). -/
def packByte (s : List Bit) : Byte :=
  BitVec.ofNat 8 (packMsb (s ++ List.replicate (8 - s.length) false))

/-- The bits of a byte, most significant first. -/
def byteBits (b : Byte) : List Bit := (List.range 8).map (fun k => b.getMsbD k)

/-- `bytes_to_bits` (00_scope.md R13). -/
def bytesToBits (b : List Byte) : List Bit := b.flatMap byteBits

/-- `bits_to_bytes` (00_scope.md R13). -/
def bitsToBytes (s : List Bit) : List Byte :=
  (List.range ((s.length + 7) / 8)).map (fun j => packByte ((s.drop (8 * j)).take 8))

/-- A natural as a 64-bit register holds it. -/
def u64 (n : Nat) : U64 := BitVec.ofNat 64 n

/-- `zext_64` of a bit. -/
def bitWord (b : Bit) : U64 := u64 b.toNat

end Sys2Proof.Machine
end

