-- ==== Sys2Proof/Config.lean ====
section
/-! DEFINITION. The parameters of 00_scope.md R9: the values the spec gives, and the OPEN ones as constants with no body (R10). -/

namespace Sys2Proof.Config

/-! ### Values the spec gives (00_scope.md R9) -/

/-- `WEAK_BIT_RUN`: a zero run longer than 6 is weak. -/
def weakBitRun : Nat := 6

/-- `ERROR_RUN`: a zero run longer than 3 is an error region. -/
def errorRun : Nat := 3

/-- `MARKER_REG_BITS`: the marker search's shift register. -/
def markerRegBits : Nat := 64

/-- `SYNC_PATTERN`. -/
def syncPattern : BitVec 32 := 0xAAAAAAAA#32

/-- `SYNC_BITS`. -/
def syncBits : Nat := 32

/-- The largest index, `2^64 - 1` (`INDEX_BITS` = 64, 20_memory.md R72). -/
def maxIndex : Nat := 0xFFFFFFFFFFFFFFFF

/-- `PLL_MAX_ADJUST`, the binary64 nearest 0.15: the reset value of `max_adjust`. -/
def pllMaxAdjust : F64 := 0x3FC3333333333333#64

/-- `PLL_KP`, the binary64 nearest 0.05: the reset value of `kp`. -/
def pllKp : F64 := 0x3FA999999999999A#64

/-- `MIN_TICKS`: fewer ticks are "too fast". -/
def minTicks : Nat := 2

/-- `MAX_TICKS`: this many ticks or more are "too slow". -/
def maxTicks : Nat := 5

/-! ### OPEN parameters: free values, nothing in Lean constrains them (log 9) -/

/-- Which positive binary64 `PLL_DEFAULT_RATE` is. -/
opaque pllDefaultRateIndex : Nat

/-- `PLL_DEFAULT_RATE`, "binary64, Hz, > 0" and OPEN: the patterns `1` to `0x7FF0000000000000` are the positive binary64 values, and the free index reaches each of them. -/
def pllDefaultRate : F64 := BitVec.ofNat 64 (1 + pllDefaultRateIndex % 0x7FF0000000000000)

/-- `PLL_DENSITY_FACTOR`, OPEN, "stored only" (10_state.md R43). -/
opaque pllDensityFactor : F64

/-- A decode profile `(pm, mn, mx)` (44_pll.md R255). -/
structure Profile where
  periodMult : F64
  minTicks : Nat
  maxTicks : Nat
deriving DecidableEq, Repr

/-- Which positive finite binary64 the period multiplier of `FM_PROFILE` is. -/
opaque fmPeriodMultIndex : Nat

/-- One less than the lowest tick count of `FM_PROFILE` that emits bits. -/
opaque fmMinTicksPred : Nat

/-- How far the "too slow" count of `FM_PROFILE` lies above the lowest emitting one. -/
opaque fmTickSpan : Nat

/-- `FM_PROFILE`, OPEN within "`pm` a finite binary64 `> 0`" and "`1 <= mn <= mx`" (44_pll.md R255): every such profile is reached by the free indices, and no other. -/
def fmProfile : Profile where
  periodMult := BitVec.ofNat 64 (1 + fmPeriodMultIndex % 0x7FEFFFFFFFFFFFFF)
  minTicks := fmMinTicksPred + 1
  maxTicks := fmMinTicksPred + 1 + fmTickSpan

/-- `HAS_MARKERS`, OPEN: a total function from a bit sequence to a Boolean. -/
opaque hasMarkers : List Bit → Bool

/-- `FM_SUGGESTED`, OPEN: a total function from a revolution record, the normalised deltas and the index time (45_flux_revolution.md R297), to a Boolean. -/
opaque fmSuggested : List F64 → F64 → Bool

/-! ### Free values -/

/-- `WEAK_DRAW`: the bit the environment gives at the `n`-th call of `draw()`, "under no law" (00_scope.md R16, log 7). -/
opaque weakDraw : Nat → Bit

/-- The sign and the low 51 fraction bits of the NaN an invalid binary64 operation gives; which operation it is (0 add, 1 mul, 2 div, 3 fmod) and its operands are the arguments (log 8). -/
opaque nanBits : Nat → F64 → F64 → BitVec 52

end Sys2Proof.Config
end

