-- ==== Sys2Proof/Machine/Float.lean ====
section
/-! DEFINITION. IEEE 754 binary64 on its bit patterns (00_scope.md R14): round to nearest, ties to even, no fused operation. Every finite value is a whole multiple of 2^-1074, so a value is held as the number of those units and computed exactly before the one rounding. -/

namespace Sys2Proof.Machine

/-- `2^52`: the patterns of one binade. -/
def f64Binade : Nat := 0x10000000000000

/-- The magnitude pattern (63 bits) of infinity; larger magnitudes are NaNs. -/
def f64InfMag : Nat := 0x7FF0000000000000

/-- How many units (2^-1074) the value 1 is. -/
def f64One : Nat := 2 ^ 1074

/-- The sign bit. -/
def F64.sign (a : F64) : Bool := a.getLsbD 63

/-- The pattern without its sign. -/
def F64.mag (a : F64) : Nat := a.toNat % 0x8000000000000000

/-- The pattern of a sign and a magnitude pattern. -/
def F64.ofSignMag (neg : Bool) (mag : Nat) : F64 :=
  BitVec.ofNat 64 (if neg then 0x8000000000000000 + mag else mag)

def F64.isNaN (a : F64) : Bool := decide (f64InfMag < F64.mag a)

def F64.isInf (a : F64) : Bool := F64.mag a == f64InfMag

/-- "`finite(x)` is true for every binary64 that is not an infinity or a NaN" (44_pll.md R250). -/
def F64.finite (a : F64) : Bool := decide (F64.mag a < f64InfMag)

/-- The zero of a sign. -/
def F64.zero (neg : Bool) : F64 := F64.ofSignMag neg 0

/-- The infinity of a sign. -/
def F64.inf (neg : Bool) : F64 := F64.ofSignMag neg f64InfMag

/-- `1.0`. -/
def F64.one : F64 := 0x3FF0000000000000#64

/-- `2.0`. -/
def F64.two : F64 := 0x4000000000000000#64

/-- A quiet NaN whose sign and payload are free (log 8). -/
def F64.nanOf (op : Nat) (a b : F64) : F64 :=
  ((Config.nanBits op a b).extractLsb' 51 1 ++ 0xFFF#12) ++ (Config.nanBits op a b).extractLsb' 0 51

/-- The units of a finite magnitude pattern: subnormal patterns count units, a normal one scales its significand by its exponent. -/
def f64Units (mag : Nat) : Nat :=
  if mag < f64Binade then mag
  else (f64Binade + mag % f64Binade) * 2 ^ (mag / f64Binade - 1)

/-- The units of a finite value, signed. -/
def F64.val (a : F64) : Int :=
  if F64.sign a then - (f64Units (F64.mag a) : Int) else (f64Units (F64.mag a) : Int)

/-- The whole number nearest `num / den`, ties to even. -/
def divNearestEven (num den : Nat) : Nat :=
  if den < 2 * (num % den) then num / den + 1
  else if 2 * (num % den) = den ∧ (num / den) % 2 = 1 then num / den + 1
  else num / den

/-- The exponent of the binade `num / den` units lie in: 0 up to `2^53` units. -/
def f64Scale (num den : Nat) : Nat := Nat.log2 (num / den) - 52

/-- The magnitude pattern nearest `num / den` units, ties to even; too large a magnitude is infinite. -/
def f64Round (num den : Nat) : Nat :=
  min f64InfMag
    (f64Scale num den * f64Binade + divNearestEven num (den * 2 ^ f64Scale num den))

/-- A whole number of units, rounded; an exact zero takes the sign given. -/
def F64.ofUnits (z : Int) (zeroNeg : Bool) : F64 :=
  if z = 0 then F64.zero zeroNeg else F64.ofSignMag (decide (z < 0)) (f64Round z.natAbs 1)

/-- `a + b`. An exact zero sum is `-0` only when both operands are. -/
def F64.add (a b : F64) : F64 :=
  if F64.isNaN a || F64.isNaN b then F64.nanOf 0 a b
  else if F64.isInf a then
    if F64.isInf b && (F64.sign a != F64.sign b) then F64.nanOf 0 a b else a
  else if F64.isInf b then b
  else F64.ofUnits (F64.val a + F64.val b) (F64.sign a && F64.sign b)

/-- `-a`: the sign alone. -/
def F64.neg (a : F64) : F64 := F64.ofSignMag (!F64.sign a) (F64.mag a)

/-- `a - b`. -/
def F64.sub (a b : F64) : F64 := F64.add a (F64.neg b)

/-- `a * b`. -/
def F64.mul (a b : F64) : F64 :=
  if F64.isNaN a || F64.isNaN b then F64.nanOf 1 a b
  else if (F64.isInf a && F64.mag b == 0) || (F64.isInf b && F64.mag a == 0) then F64.nanOf 1 a b
  else if F64.isInf a || F64.isInf b then F64.inf (F64.sign a != F64.sign b)
  else F64.ofSignMag (F64.sign a != F64.sign b)
    (f64Round (f64Units (F64.mag a) * f64Units (F64.mag b)) f64One)

/-- `a / b`. -/
def F64.div (a b : F64) : F64 :=
  if F64.isNaN a || F64.isNaN b then F64.nanOf 2 a b
  else if (F64.isInf a && F64.isInf b) || (F64.mag a == 0 && F64.mag b == 0) then F64.nanOf 2 a b
  else if F64.isInf a || F64.mag b == 0 then F64.inf (F64.sign a != F64.sign b)
  else if F64.isInf b then F64.zero (F64.sign a != F64.sign b)
  else F64.ofSignMag (F64.sign a != F64.sign b)
    (f64Round (f64Units (F64.mag a) * f64One) (f64Units (F64.mag b)))

/-- `fmod(a, b)`: "the exact IEEE remainder with the sign of `a` (truncated division)". -/
def F64.fmod (a b : F64) : F64 :=
  if F64.isNaN a || F64.isNaN b || F64.isInf a || F64.mag b == 0 then F64.nanOf 3 a b
  else if F64.isInf b then a
  else F64.ofSignMag (F64.sign a) (f64Round (f64Units (F64.mag a) % f64Units (F64.mag b)) 1)

/-- `abs(a)`. -/
def F64.abs (a : F64) : F64 := F64.ofSignMag false (F64.mag a)

/-- `(n as f64)`. -/
def F64.ofNat (n : Nat) : F64 := F64.ofSignMag false (f64Round (n * f64One) 1)

/-- The place of a value that is no NaN in the order of binary64: patterns of one sign are ordered as their magnitudes, and both zeros are 0. -/
def F64.ord (a : F64) : Int := if F64.sign a then - (F64.mag a : Int) else (F64.mag a : Int)

/-- `a < b`: false when either is a NaN. -/
def F64.lt (a b : F64) : Bool :=
  !F64.isNaN a && !F64.isNaN b && decide (F64.ord a < F64.ord b)

/-- `a <= b`: false when either is a NaN. -/
def F64.le (a b : F64) : Bool :=
  !F64.isNaN a && !F64.isNaN b && decide (F64.ord a ≤ F64.ord b)

/-- `a = b` as numbers: `+0.0 = -0.0`, and a NaN equals nothing. -/
def F64.eq (a b : F64) : Bool :=
  !F64.isNaN a && !F64.isNaN b && decide (F64.ord a = F64.ord b)

/-- `max(a, b)`, exact (00_scope.md R14); a NaN gives way to the other operand (PRESUMED, log 14). Of `+0.0` and `-0.0` it gives the first operand: R14 says only "exact", so that the zero given is the model's choice (DESIGN CHOICE, unsafe; log 22). -/
def F64.max (a b : F64) : F64 :=
  if F64.isNaN a then b else if F64.isNaN b then a else if F64.lt a b then b else a

/-- `min(a, b)`, exact (00_scope.md R14); a NaN gives way to the other operand (PRESUMED, log 14). Of `+0.0` and `-0.0` it gives the first operand: R14 says only "exact", so that the zero given is the model's choice (DESIGN CHOICE, unsafe; log 22). -/
def F64.min (a b : F64) : F64 :=
  if F64.isNaN a then b else if F64.isNaN b then a else if F64.lt b a then b else a

end Sys2Proof.Machine
end

