-- ==== Sys2Proof/Machine/State.lean ====
section
/-! DEFINITION. The state of the block as plain data (10_state.md), the reasons a step can stop, and the state after reset (70_reset_and_hazards.md R340). -/

namespace Sys2Proof.Machine

/-! ### Names of registers and buffers (10_state.md R46 to R48) -/

/-- Argument registers. -/
inductive ArgReg where
  | a0 | a1 | a2 | a3
deriving DecidableEq, Repr

/-- Result registers. -/
inductive ResReg where
  | y0 | y1 | y2 | y3
deriving DecidableEq, Repr

/-- Input buffers. -/
inductive InBuf where
  | ib0 | ib1
deriving DecidableEq, Repr

/-- Output buffers. -/
inductive OutBuf where
  | ob0 | ob1
deriving DecidableEq, Repr

/-- What a buffer holds: "a finite sequence of one element type" (10_state.md R48, 30_encoding.md R106). -/
inductive Buffer where
  | bits (s : List Bit)
  | bytes (b : List Byte)
  | ranges (r : List (U64 × U64))
  | f64s (x : List F64)
deriving DecidableEq, Repr

/-! ### Why a step can stop -/

/-- The model's own machine faults. There is none: the block's faults are codes in STATUS, and a command that raises one has a next state (60_exceptions.md R314, R316; log 15). SAFE: no step ends here. -/
inductive Fault where
deriving DecidableEq, Repr

/-- Why the model refuses a run (10_state.md R49). -/
inductive Refusal where
  /-- An instruction that has no meaning yet. No arm of exec raises it. SAFE: it claims nothing. -/
  | notModelled (mnemonic : String)
  /-- Raised by a command that reads an argument register the host has not written since reset. The spec states the stop: "A command that reads one has no meaning: the model *refuses* it (records a refusal for the whole run) rather than giving it a value" (10_state.md R49; 60_exceptions.md R318, R319). SAFE: the spec gives such a run no meaning. -/
  | argNotWritten (a : ArgReg)
  /-- Raised by a command that reads an input buffer the host has not filled since reset. The spec states the stop, in the same sentence as for an argument register (10_state.md R49; 60_exceptions.md R318, R319). SAFE: the spec gives such a run no meaning. -/
  | bufferNotWritten (b : InBuf)
  /-- Raised by a command that reads an input buffer holding another element type than the one "fixed by the command" (10_state.md R48, 30_encoding.md R106; DESIGN CHOICE, log 5). SAFE: no value of the command's type was written. -/
  | bufferElementType (b : InBuf)
  /-- Raised by a host read of an undefined result register, by no command. The spec states the stop: "A host read of an undefined result register or output buffer is likewise refused" (10_state.md R49; 93_implementation_defined.md U8). SAFE: the spec refuses the run. -/
  | resultUndefined (y : ResReg)
  /-- Raised by a host read of an undefined output buffer, by no command. The spec states the stop, in the same sentence as for a result register (10_state.md R49; 93_implementation_defined.md U8). SAFE: the spec refuses the run. -/
  | outputUndefined (o : OutBuf)
deriving DecidableEq, Repr

/-! ### The block -/

/-- A bit ring (10_state.md R30). -/
structure Ring where
  /-- `bits`, of storage length `N`. -/
  bits : List Bit
  /-- `W`. -/
  wrap : Nat
  /-- `wrap_value`. -/
  wrapValue : Option Bit
  /-- `cursor`. -/
  cursor : Nat
deriving DecidableEq, Repr

/-- The codec unit (10_state.md R33 to R39). -/
structure Codec where
  bits : Ring
  clock : Ring
  error : Ring
  weak : Ring
  weakEnabled : Bit
  initialPhase : Bit
  bitCursor : U64
  dataRanges : List (U64 × U64)
  dataRangesFiltered : List (U64 × U64)
deriving DecidableEq, Repr

/-- The PLL unit (10_state.md R41 to R44). -/
structure Pll where
  period : F64
  defaultPeriod : F64
  maxAdjust : F64
  kp : F64
  densityFactor : F64
  tooFast : U64
  tooSlow : U64
  bitsOut : U64
deriving DecidableEq, Repr

/-- The argument registers; `none` is the spec's own "holds no value", which is also their reset state (10_state.md R49, R60; 70_reset_and_hazards.md R340), and no missing reset value (the form: log 3). -/
structure Args where
  a0 : Option U64 := none
  a1 : Option U64 := none
  a2 : Option U64 := none
  a3 : Option U64 := none
deriving DecidableEq, Repr

/-- The result registers and output buffers; `none` is the spec's own "undefined", which is also their reset state (10_state.md R47, R48, R60; 70_reset_and_hazards.md R340), and no missing reset value (the form: log 4). -/
structure Results where
  y0 : Option U64 := none
  y1 : Option U64 := none
  y2 : Option U64 := none
  y3 : Option U64 := none
  ob0 : Option Buffer := none
  ob1 : Option Buffer := none
deriving DecidableEq, Repr

/-- What the host or the environment does next to the block (10_state.md R46 to R49, R51; 70_reset_and_hazards.md R340; log 1). -/
inductive HostEvent where
  | writeArg (a : ArgReg) (v : U64)
  | writeBuf (b : InBuf) (v : Buffer)
  | command (w : CmdWord)
  | readResult (y : ResReg)
  | readOut (o : OutBuf)
  | reset
deriving DecidableEq, Repr

/-- The state of the block, and the model's two fields `draws` and `pending`. -/
structure State where
  codec : Codec
  pll : Pll
  args : Args
  ib0 : Option Buffer
  ib1 : Option Buffer
  results : Results
  /-- `STATUS` (10_state.md R50). -/
  status : BitVec 32
  /-- The model's: how many draws have been taken (log 7). -/
  draws : Nat
  /-- The model's: the host events still to come, the next one first (log 1). -/
  pending : List HostEvent
deriving DecidableEq, Repr

/-! ### Reset (10_state.md R57 to R60, 70_reset_and_hazards.md R340) -/

/-- A ring of no bits. -/
def Ring.empty (wv : Option Bit) : Ring := ⟨[], 0, wv, 0⟩

/-- The codec unit at reset (10_state.md R57, R58). -/
def Codec.reset : Codec where
  bits := Ring.empty none
  clock := Ring.empty (some false)
  error := Ring.empty none
  weak := Ring.empty none
  weakEnabled := true
  initialPhase := false
  bitCursor := 0
  dataRanges := []
  dataRangesFiltered := []

/-- The PLL unit at reset, for a default rate and a density factor (10_state.md R59). -/
def Pll.resetWith (rate density : F64) : Pll where
  period := F64.div F64.one rate
  defaultPeriod := F64.div F64.one rate
  maxAdjust := Config.pllMaxAdjust
  kp := Config.pllKp
  densityFactor := density
  tooFast := 0
  tooSlow := 0
  bitsOut := 0

/-- The block right after reset, for a default rate and a density factor. -/
def State.resetWith (rate density : F64) : State where
  codec := Codec.reset
  pll := Pll.resetWith rate density
  args := {}
  ib0 := none
  ib1 := none
  results := {}
  status := 0
  draws := 0
  pending := []

/-- The block right after reset: the two OPEN parameters (70_reset_and_hazards.md R342), and nothing else, are not numbers. -/
def State.reset : State := State.resetWith Config.pllDefaultRate Config.pllDensityFactor

end Sys2Proof.Machine
end

