-- ==== Sys2Proof/Machine/Flags.lean ====
section
/-! DEFINITION. STATUS: its fields (10_state.md R50), the codes (60_exceptions.md R311) and the two ways a completed command writes it (R312, R314). -/

namespace Sys2Proof.Machine

/-- The fault codes (60_exceptions.md R311). -/
inductive FaultCode where
  | weakMaskLength
  | clockMapLength
  | ringEmpty
  | illegalCommand
  | indexOverflow
  | invalidFluxDelta
  | badOperand
  | badRange
deriving DecidableEq, Repr

/-- The value of a fault code (60_exceptions.md R311). -/
def FaultCode.byte : FaultCode → BitVec 8
  | .weakMaskLength => 0x80
  | .clockMapLength => 0x81
  | .ringEmpty => 0x82
  | .illegalCommand => 0x83
  | .indexOverflow => 0x84
  | .invalidFluxDelta => 0x85
  | .badOperand => 0x86
  | .badRange => 0x87

/-- `OK`. -/
def codeOk : BitVec 8 := 0x00

/-- `NONE`. -/
def codeNone : BitVec 8 := 0x01

/-- `INVALID_INPUT`. -/
def codeInvalidInput : BitVec 8 := 0x02

/-- `STATUS.code`. -/
def statusCode (st : BitVec 32) : BitVec 8 := st.extractLsb' 0 8

/-- `STATUS.FAULTED`. -/
def statusFaulted (st : BitVec 32) : Bool := st.getLsbD 8

/-- `STATUS.fault_code`. -/
def statusFaultCode (st : BitVec 32) : BitVec 8 := st.extractLsb' 16 8

/-- `STATUS.code <- code`, the other bits kept (60_exceptions.md R312). -/
def setStatusCode (st : BitVec 32) (code : BitVec 8) : BitVec 32 := st.extractLsb' 8 24 ++ code

/-- What a fault writes: the code always; `FAULTED` and `fault_code` when no fault was raised before (60_exceptions.md R314). -/
def faultStatus (st : BitVec 32) (c : FaultCode) : BitVec 32 :=
  if statusFaulted st then setStatusCode st c.byte
  else st.extractLsb' 24 8 ++ c.byte ++ st.extractLsb' 9 7 ++ 1#1 ++ c.byte

/-- The block is halted (60_exceptions.md R317). -/
def State.faulted (s : State) : Bool := statusFaulted s.status

end Sys2Proof.Machine
end

