-- ==== Sys2Proof/Machine/Operands.lean ====
section
/-! DEFINITION. Operands: the argument registers in their forms (30_encoding.md R105), the input buffers by element type (R106), the refusal of one the host never wrote (10_state.md R49), and which operands a command reads (R108, R111). -/

namespace Sys2Proof.Machine

/-- The content of an argument register. -/
def Args.get (r : Args) : ArgReg → Option U64
  | .a0 => r.a0
  | .a1 => r.a1
  | .a2 => r.a2
  | .a3 => r.a3

/-- The argument registers after the host writes one (10_state.md R46). -/
def Args.set (r : Args) (a : ArgReg) (v : U64) : Args :=
  match a with
  | .a0 => { r with a0 := some v }
  | .a1 => { r with a1 := some v }
  | .a2 => { r with a2 := some v }
  | .a3 => { r with a3 := some v }

/-- The content of a result register. -/
def Results.get (r : Results) : ResReg → Option U64
  | .y0 => r.y0
  | .y1 => r.y1
  | .y2 => r.y2
  | .y3 => r.y3

/-- The content of an output buffer. -/
def Results.out (r : Results) : OutBuf → Option Buffer
  | .ob0 => r.ob0
  | .ob1 => r.ob1

/-- The content of an input buffer. -/
def State.inBuf (s : State) : InBuf → Option Buffer
  | .ib0 => s.ib0
  | .ib1 => s.ib1

/-- An argument register as `u64` bits; as `f64` it is the same bits (30_encoding.md R105). One the host has not written since reset "holds no value", and the spec refuses the command that reads it (10_state.md R49). -/
def State.arg (s : State) (a : ArgReg) : Except Refusal U64 :=
  match s.args.get a with
  | some v => .ok v
  | none => .error (.argNotWritten a)

/-- Form `u64`: the value. -/
def State.argNat (s : State) (a : ArgReg) : Except Refusal Nat := (s.arg a).map BitVec.toNat

/-- Form `bit`: "bit [0] of the register; bits [63:1] ignored". -/
def State.argBit (s : State) (a : ArgReg) : Except Refusal Bit := (s.arg a).map (fun v => v.getLsbD 0)

/-- An optional `u64` operand, present when its `F` flag is 1 and not read when it is 0 (30_encoding.md R108). -/
def State.argNatIf (s : State) (present : Bool) (a : ArgReg) : Except Refusal (Option Nat) :=
  if present then (s.argNat a).map some else .ok none

/-- An optional `bit` operand. -/
def State.argBitIf (s : State) (present : Bool) (a : ArgReg) : Except Refusal (Option Bit) :=
  if present then (s.argBit a).map some else .ok none

/-- An optional `f64` operand. -/
def State.argIf (s : State) (present : Bool) (a : ArgReg) : Except Refusal (Option U64) :=
  if present then (s.arg a).map some else .ok none

/-- An input buffer of bits. -/
def State.bufBits (s : State) (b : InBuf) : Except Refusal (List Bit) :=
  match s.inBuf b with
  | some (.bits x) => .ok x
  | some _ => .error (.bufferElementType b)
  | none => .error (.bufferNotWritten b)

/-- An input buffer of bytes. -/
def State.bufBytes (s : State) (b : InBuf) : Except Refusal (List Byte) :=
  match s.inBuf b with
  | some (.bytes x) => .ok x
  | some _ => .error (.bufferElementType b)
  | none => .error (.bufferNotWritten b)

/-- An input buffer of ranges. -/
def State.bufRanges (s : State) (b : InBuf) : Except Refusal (List (U64 × U64)) :=
  match s.inBuf b with
  | some (.ranges x) => .ok x
  | some _ => .error (.bufferElementType b)
  | none => .error (.bufferNotWritten b)

/-- An input buffer of f64 values. -/
def State.bufF64s (s : State) (b : InBuf) : Except Refusal (List F64) :=
  match s.inBuf b with
  | some (.f64s x) => .ok x
  | some _ => .error (.bufferElementType b)
  | none => .error (.bufferNotWritten b)

/-- An optional input buffer of bits. -/
def State.bufBitsIf (s : State) (present : Bool) (b : InBuf) : Except Refusal (Option (List Bit)) :=
  if present then (s.bufBits b).map some else .ok none

/-! ### Which operands a command reads -/

/-- Element types of a buffer (30_encoding.md R106). -/
inductive ElemType where
  | bits | bytes | ranges | f64s
deriving DecidableEq, Repr

/-- The element type of a buffer's content. -/
def Buffer.elemType : Buffer → ElemType
  | .bits _ => .bits
  | .bytes _ => .bytes
  | .ranges _ => .ranges
  | .f64s _ => .f64s

/-- The empty buffer of an element type. -/
def ElemType.emptyBuffer : ElemType → Buffer
  | .bits => .bits []
  | .bytes => .bytes []
  | .ranges => .ranges []
  | .f64s => .f64s []

/-- The operands a command reads. -/
structure Needs where
  a0 : Bool := false
  a1 : Bool := false
  a2 : Bool := false
  a3 : Bool := false
  ib0 : Option ElemType := none
  ib1 : Option ElemType := none
deriving DecidableEq, Repr

/-- The column "operands in" of 30_encoding.md R111, an optional operand counted when its flag is 1 (R108). -/
def needs : Instr → Needs
  | .ringLen _ => {}
  | .ringSetWrap _ => { a0 := true }
  | .ringSetWrapValue _ p => { a0 := p }
  | .ringGet _ => { a0 := true }
  | .ringSet _ => { a0 := true, a1 := true }
  | .ringIter _ => { a0 := true }
  | .ringIterRev _ => {}
  | .ringRead _ => { a0 := true }
  | .codecNew c m => { a0 := c, ib0 := some .bits, ib1 := if m then some .bits else none }
  | .setClockMap => { ib0 := some .bits }
  | .setTrackLen => { a0 := true }
  | .setWeakEnabled => { a0 := true }
  | .readRawU8 => { a0 := true }
  | .readRawU32 => { a0 := true }
  | .readRawBuf => { a0 := true, a1 := true }
  | .readDecodedU8 => { a0 := true }
  | .readDecodedU32 => { a0 := true }
  | .streamRead => { a0 := true }
  | .seek _ => { a0 := true }
  | .writeRawBuf => { a0 := true, ib0 := some .bytes }
  | .writeEncodedBuf _ => { a0 := true, ib0 := some .bytes }
  | .getClockMap => {}
  | .getErrorMap => {}
  | .getWeakData => {}
  | .setDataRanges => { ib0 := some .ranges }
  | .isData _ => { a0 := true }
  | .encodeMfm _ => { a0 := true, ib0 := some .bits }
  | .findMarker l => { a0 := true, a1 := true, a2 := true, a3 := l }
  | .findSync => { a0 := true }
  | .createWeakMask r => { a0 := r }
  | .createErrorMap => {}
  | .pllConfig => { a0 := true, a1 := true, a2 := true, a3 := true }
  | .pllReset => {}
  | .pllDecode _ h => { a0 := h, ib0 := some .f64s }
  | .revNormalize => { ib0 := some .f64s }
  | .revAlignPair => { ib0 := some .f64s, ib1 := some .f64s }
  | .revDecodeDirect => { a0 := true, ib0 := some .f64s }
  | .regRead => { a0 := true }

/-- A needed register holds a value. -/
def argReady (need : Bool) (v : Option U64) : Bool := !need || v.isSome

/-- A needed buffer holds a value of its element type. -/
def bufReady (need : Option ElemType) (v : Option Buffer) : Bool :=
  match need with
  | none => true
  | some t => v.map Buffer.elemType == some t

/-- Every operand the command reads has been written by the host, the buffers with the command's element type. -/
def State.ready (s : State) (i : Instr) : Bool :=
  argReady (needs i).a0 s.args.a0 && argReady (needs i).a1 s.args.a1 &&
  argReady (needs i).a2 s.args.a2 && argReady (needs i).a3 s.args.a3 &&
  bufReady (needs i).ib0 s.ib0 && bufReady (needs i).ib1 s.ib1

/-- A needed register that holds no value gets the value 0. -/
def fillArg (need : Bool) (v : Option U64) : Option U64 := if need && v.isNone then some 0 else v

/-- A needed buffer that holds no value gets the empty sequence of the command's element type. -/
def fillBuf (need : Option ElemType) (v : Option Buffer) : Option Buffer :=
  match need, v with
  | some t, none => some t.emptyBuffer
  | _, v => v

/-- The operand set-up that goes before a command (95_test_vectors.md section 3), for the operands the host has not written (log 2). Nothing else changes, and no operand that holds a value. -/
def State.withOperandsFor (s : State) (i : Instr) : State :=
  { s with
    args := { a0 := fillArg (needs i).a0 s.args.a0, a1 := fillArg (needs i).a1 s.args.a1,
              a2 := fillArg (needs i).a2 s.args.a2, a3 := fillArg (needs i).a3 s.args.a3 }
    ib0 := fillBuf (needs i).ib0 s.ib0
    ib1 := fillBuf (needs i).ib1 s.ib1 }

end Sys2Proof.Machine
end

