-- ==== Sys2Proof/Machine/Ops.lean ====
section
/-! DEFINITION. The named operations: ring primitives (20_memory.md R74, R76; 41_bitring.md R131, R133, R135), the codec's bit reads with weak substitution (42_codec_access.md R170), how a command ends, and the taking of a fault (60_exceptions.md R312, R314, R318). -/

namespace Sys2Proof.Machine

/-! ### Rings -/

/-- The stored bit at a storage index. Every ring of a reachable state holds at least `W` bits (10_state.md R31), so that an index below `W` is in the storage; elsewhere 0 (log 17). -/
def Ring.stored (r : Ring) (i : Nat) : Bit := r.bits.getD i false

/-- `R.get(i)` (20_memory.md R74). -/
def Ring.get (r : Ring) (i : Nat) : Except FaultCode Bit :=
  if i < r.wrap then .ok (r.stored i)
  else
    match r.wrapValue with
    | some v => .ok v
    | none => if r.wrap = 0 then .error .ringEmpty else .ok (r.stored (i % r.wrap))

/-- `R.set(i, b)` (20_memory.md R76). -/
def Ring.set (r : Ring) (i : Nat) (b : Bit) : Except FaultCode Ring :=
  if r.wrap = 0 then .error .ringEmpty
  else .ok { r with bits := r.bits.set (i % r.wrap) b }

/-- `[ R.get(i), R.get(i+1), ... ]`, `n` bits. -/
def Ring.getMany (r : Ring) : Nat → Nat → Except FaultCode (List Bit)
  | 0, _ => .ok []
  | n + 1, i =>
    match r.get i with
    | .error c => .error c
    | .ok b =>
      match r.getMany n (i + 1) with
      | .error c => .error c
      | .ok bs => .ok (b :: bs)

/-- `for k in 0..|s|: R.set(i + k, s[k])`. -/
def Ring.setMany (r : Ring) : List Bit → Nat → Except FaultCode Ring
  | [], _ => .ok r
  | b :: bs, i =>
    match r.set i b with
    | .error c => .error c
    | .ok r' => r'.setMany bs (i + 1)

/-- `set_wrap` (41_bitring.md R133): clamp, the cursor kept. -/
def Ring.setWrap (r : Ring) (len : Nat) : Ring := { r with wrap := min len r.bits.length }

/-- `set_wrap_value` (41_bitring.md R135). -/
def Ring.setWrapValue (r : Ring) (v : Option Bit) : Ring := { r with wrapValue := v }

/-- `ring_from_bits` (41_bitring.md R131). -/
def Ring.fromBits (s : List Bit) : Ring := ⟨s, s.length, none, 0⟩

/-- The ring a selector names (10_state.md R33). -/
def Codec.ring (c : Codec) : RingSel → Ring
  | .bits => c.bits
  | .clock => c.clock
  | .error => c.error
  | .weak => c.weak

/-- The codec with one ring replaced. -/
def Codec.setRing (c : Codec) (sel : RingSel) (r : Ring) : Codec :=
  match sel with
  | .bits => { c with bits := r }
  | .clock => { c with clock := r }
  | .error => { c with error := r }
  | .weak => { c with weak := r }

/-- The codec length `N` (10_state.md R34). -/
def Codec.len (c : Codec) : Nat := c.bits.bits.length

/-! ### Reads of the codec (42_codec_access.md R170 to R175) -/

/-- `rd(p)` with `d` draws taken before it: a drawn bit where the weak mask is set and substitution is enabled, else the stored bit; and the draws taken after it. -/
def Codec.readBit (c : Codec) (p d : Nat) : Except FaultCode (Bit × Nat) :=
  if c.weakEnabled then
    match c.weak.get p with
    | .error e => .error e
    | .ok true => .ok (Config.weakDraw d, d + 1)
    | .ok false => (c.bits.get p).map (fun b => (b, d))
  else (c.bits.get p).map (fun b => (b, d))

/-- `rd` at each of the positions, in their order. -/
def Codec.readBits (c : Codec) : List Nat → Nat → Except FaultCode (List Bit × Nat)
  | [], d => .ok ([], d)
  | p :: ps, d =>
    match c.readBit p d with
    | .error e => .error e
    | .ok (b, d') =>
      match c.readBits ps d' with
      | .error e => .error e
      | .ok (bs, d'') => .ok (b :: bs, d'')

/-- The positions of `n` raw bits from `off`. -/
def rawPositions (off n : Nat) : List Nat := (List.range n).map (fun k => off + k)

/-- The positions of the `w` data bits of the pairs from an aligned start (42_codec_access.md R175). -/
def dataPositions (p w : Nat) : List Nat := (List.range w).map (fun k => p + 1 + 2 * k)

/-- `align(o)` (42_codec_access.md R174). -/
def Codec.align (c : Codec) (o : Nat) : Except FaultCode Nat :=
  match c.clock.get o with
  | .error e => .error e
  | .ok true => .ok o
  | .ok false =>
    match c.clock.get (o + 1) with
    | .error e => .error e
    | .ok true => .ok (o + 1)
    | .ok false => .ok o

/-! ### How a command ends -/

/-- The four outcome classes of 60_exceptions.md R310: success with the new state and the results the command names, "not found", recoverable error, fault. -/
inductive Ending where
  | ok (s : State) (r : Results)
  | none
  | invalidInput
  | fault (c : FaultCode)

/-- TAKING A FAULT, the block's one exception (60_exceptions.md R314, R316): every write of the command is discarded, the results become undefined, STATUS takes the code and, at the first fault, `FAULTED` and `fault_code`. There is no vector, no saved program counter, no mode, and no return (R321, R322). -/
def State.raise (s : State) (c : FaultCode) : State :=
  { s with status := faultStatus s.status c, results := {} }

/-- Non-fault completion (60_exceptions.md R312): `STATUS.code` and the results; the ones not named become undefined (10_state.md R47, R48). -/
def State.complete (s : State) (code : BitVec 8) (r : Results) : State :=
  { s with status := setStatusCode s.status code, results := r }

/-- The state a command that was issued in `s` leaves. -/
def conclude (s : State) : Ending → State
  | .ok s' r => s'.complete codeOk r
  | .none => s.complete codeNone {}
  | .invalidInput => s.complete codeInvalidInput {}
  | .fault c => s.raise c

/-- A fault found on the way ends the command. -/
def orFault {α : Type} (x : Except FaultCode α) (k : α → Ending) : Ending :=
  match x with
  | .error c => .fault c
  | .ok a => k a

/-- The generic checks of 60_exceptions.md R318 around a command's own operation: a halted block does nothing, then an operand the host never wrote refuses the run. -/
def command (s : State) (body : Except Refusal Ending) : Host.Outcome State Fault Refusal :=
  if s.faulted then .next s
  else
    match body with
    | .error r => .refused r
    | .ok e => .next (conclude s e)

/-- The two tests of an access command before its first access: the empty codec (42_codec_access.md R165), then the indices, all of which must be at most `2^64 - 1` (20_memory.md R72; the order is 60_exceptions.md R319). `past` is one more than the largest index. -/
def accessChecks (c : Codec) (past : Nat) (k : Ending) : Ending :=
  if c.bits.wrap = 0 then .invalidInput
  else if Config.maxIndex + 1 < past then .fault .indexOverflow
  else k

/-! ### Reset (70_reset_and_hazards.md R340) -/

/-- Reset of a running block: every state element at its reset value. The host's own sequence goes on, and the draws to come are not those taken before (log 7). -/
def State.afterReset (s : State) : State :=
  { State.reset with pending := s.pending, draws := s.draws }

end Sys2Proof.Machine
end

