-- ==== Sys2Proof/Machine/BitRing.lean ====
section
/-! DEFINITION. The bit ring commands, opcodes 0x10 to 0x17 (41_bitring.md). -/

namespace Sys2Proof.Machine

/-- The state with one ring of the codec replaced. -/
def State.withRing (s : State) (sel : RingSel) (r : Ring) : State :=
  { s with codec := s.codec.setRing sel r }

/-- `RING_LEN` (41_bitring.md R130). -/
def execRingLen (r : RingSel) (s : State) : Host.Outcome State Fault Refusal :=
  command s (.ok (.ok s { y0 := some (u64 (s.codec.ring r).wrap) }))

/-- `RING_SET_WRAP` (41_bitring.md R134). -/
def execRingSetWrap (r : RingSel) (s : State) : Host.Outcome State Fault Refusal :=
  command s do
    let len ← s.argNat .a0
    .ok (.ok (s.withRing r ((s.codec.ring r).setWrap len)) {})

/-- `RING_SET_WRAP_VALUE` (41_bitring.md R136). -/
def execRingSetWrapValue (r : RingSel) (present : Bool) (s : State) :
    Host.Outcome State Fault Refusal :=
  command s do
    let v ← s.argBitIf present .a0
    .ok (.ok (s.withRing r ((s.codec.ring r).setWrapValue v)) {})

/-- `RING_GET` (41_bitring.md R137). -/
def execRingGet (r : RingSel) (s : State) : Host.Outcome State Fault Refusal :=
  command s do
    let i ← s.argNat .a0
    .ok (orFault ((s.codec.ring r).get i) fun b => .ok s { y0 := some (bitWord b) })

/-- `RING_SET` (41_bitring.md R138). -/
def execRingSet (r : RingSel) (s : State) : Host.Outcome State Fault Refusal :=
  command s do
    let i ← s.argNat .a0
    let b ← s.argBit .a1
    .ok (orFault ((s.codec.ring r).set i b) fun ring => .ok (s.withRing r ring) {})

/-- `RING_ITER` (41_bitring.md R139). -/
def execRingIter (r : RingSel) (s : State) : Host.Outcome State Fault Refusal :=
  command s do
    let n ← s.argNat .a0
    .ok (orFault ((s.codec.ring r).getMany n 0) fun bs => .ok s { ob0 := some (.bits bs) })

/-- `RING_ITER_REV` (41_bitring.md R141). -/
def execRingIterRev (r : RingSel) (s : State) : Host.Outcome State Fault Refusal :=
  command s (.ok (orFault ((s.codec.ring r).getMany (s.codec.ring r).wrap 0) fun bs =>
    .ok s { ob0 := some (.bits bs) }))

/-- `R.cursor <- R.cursor + 1`, back to 0 at the wrap (41_bitring.md R140). -/
def Ring.cursorAfter (r : Ring) (c : Nat) : Nat := if r.wrap ≤ c + 1 then 0 else c + 1

/-- `n` bits read at the cursor, and the cursor after them (41_bitring.md R140). -/
def Ring.takeBits (r : Ring) : Nat → Nat → Except FaultCode (List Bit × Nat)
  | 0, c => .ok ([], c)
  | n + 1, c =>
    match r.get c with
    | .error e => .error e
    | .ok b =>
      match r.takeBits n (r.cursorAfter c) with
      | .error e => .error e
      | .ok (bs, c') => .ok (b :: bs, c')

/-- `n` bytes read at the cursor, eight ring bits each, and the cursor after them (41_bitring.md R140). -/
def Ring.takeBytes (r : Ring) : Nat → Nat → Except FaultCode (List Byte × Nat)
  | 0, c => .ok ([], c)
  | n + 1, c =>
    match r.takeBits 8 c with
    | .error e => .error e
    | .ok (bs, c') =>
      match r.takeBytes n c' with
      | .error e => .error e
      | .ok (rest, c'') => .ok (packByte bs :: rest, c'')

/-- `RING_READ` (41_bitring.md R140). -/
def execRingRead (r : RingSel) (s : State) : Host.Outcome State Fault Refusal :=
  command s do
    let n ← s.argNat .a0
    .ok <|
      if (s.codec.ring r).wrap = 0 then .invalidInput
      else orFault ((s.codec.ring r).takeBytes n (s.codec.ring r).cursor) fun (out, c) =>
        .ok (s.withRing r { s.codec.ring r with cursor := c }) { ob0 := some (.bytes out) }

end Sys2Proof.Machine
end

