-- ==== Sys2Proof/Machine/Analysis.lean ====
section
/-! DEFINITION. The analysis commands, opcodes 0x40 to 0x44, and the functions they share with construction: MFM encoding, marker and sync search, zero-run masks (43_codec_analysis.md). -/

namespace Sys2Proof.Machine

/-! ### MFM encoding (43_codec_analysis.md R211) -/

/-- The clock bit of a pair: "clock=1 iff previous emitted bit was 0" before a 0, and 0 before a 1; in the AddressMark variant the clock of the fourth pair of each group of eight is cleared. `cnt` is the number of pairs of the group already emitted. -/
def mfmClock (var : Variant) (prev b : Bit) (cnt : Nat) : Bit :=
  !b && !prev && !(var == .addressMark && cnt == 3)

/-- The pairs of a bit sequence after the data bit `prev` and `cnt` pairs of the current group. -/
def mfmEncodeFrom (var : Variant) : Bit → Nat → List Bit → List Bit
  | _, _, [] => []
  | prev, cnt, b :: bs => mfmClock var prev b cnt :: b :: mfmEncodeFrom var b ((cnt + 1) % 8) bs

/-- `mfm_encode(d, prev, var)`. -/
def mfmEncode (d : List Bit) (prev : Bit) (var : Variant) : List Bit := mfmEncodeFrom var prev 0 d

/-- `ENCODE` (43_codec_analysis.md R211). -/
def execEncodeMfm (v : Variant) (s : State) : Host.Outcome State Fault Refusal :=
  command s do
    let prev ← s.argBit .a0
    let d ← s.bufBits .ib0
    .ok (.ok s { ob0 := some (.bits (mfmEncode d prev v)) })

/-! ### Marker search (43_codec_analysis.md R215) -/

/-- `reg <- ((reg << 1) OR bit) mod 2^64`. -/
def shiftIn64 (reg : U64) (b : Bit) : U64 := (reg <<< 1) ||| bitWord b

/-- The steps of `marker_scan` from index `i`: the number of steps left, then `i`, `reg`, `ct`. Every index is below `BITS.W`, so the stored bit is `BITS.get(i)`. -/
def markerScanFrom (r : Ring) (mb mask : U64) : Nat → Nat → U64 → Nat → Option (Nat × BitVec 16)
  | 0, _, _, _ => none
  | n + 1, i, reg, ct =>
    if Config.markerRegBits ≤ ct ∧ reg &&& mask = mb then
      some (i - Config.markerRegBits, reg.extractLsb' 0 16)
    else markerScanFrom r mb mask n (i + 1) (shiftIn64 reg (r.stored i)) (ct + 1)

/-- `lim`: the limit, or the wrap, and never past the wrap. -/
def markerLimit (r : Ring) (limit : Option Nat) : Nat := min (limit.getD r.wrap) r.wrap

/-- `marker_scan(mb, mask, start, limit)`. -/
def markerScan (r : Ring) (mb mask : U64) (start : Nat) (limit : Option Nat) :
    Option (Nat × BitVec 16) :=
  markerScanFrom r mb mask (markerLimit r limit - start) start 0 0

/-- `FIND_MARKER` (43_codec_analysis.md R216). -/
def execFindMarker (hasLimit : Bool) (s : State) : Host.Outcome State Fault Refusal :=
  command s do
    let mb ← s.arg .a0
    let mask ← s.arg .a1
    let start ← s.argNat .a2
    let limit ← s.argNatIf hasLimit .a3
    .ok <|
      match markerScan s.codec.bits mb mask start limit with
      | none => .none
      | some (o, id) => .ok s { y0 := some (u64 o), y1 := some (id.setWidth 64) }

/-! ### Sync search (43_codec_analysis.md R220) -/

/-- `acc <- ((acc << 1) OR bit) mod 2^32`. -/
def shiftIn32 (acc : BitVec 32) (b : Bit) : BitVec 32 := (acc <<< 1) ||| BitVec.ofNat 32 b.toNat

/-- The steps of `sync_scan` from index `j`: the number of steps left, then `j`, `acc`. -/
def syncScanFrom (r : Ring) : Nat → Nat → BitVec 32 → Option Nat
  | 0, _, _ => none
  | n + 1, j, acc =>
    if shiftIn32 acc (r.stored j) = Config.syncPattern then some (j + 1 - Config.syncBits)
    else syncScanFrom r n (j + 1) (shiftIn32 acc (r.stored j))

/-- `sync_scan(R, start)`. -/
def syncScan (r : Ring) (start : Nat) : Option Nat := syncScanFrom r (r.wrap - start) start 0

/-- The phase a sync offset gives: its parity, and 0 with no sync (43_codec_analysis.md R222). -/
def syncPhase (o : Option Nat) : Bit :=
  match o with
  | some x => x % 2 == 1
  | none => false

/-- `FIND_SYNC` (43_codec_analysis.md R221). -/
def execFindSync (s : State) : Host.Outcome State Fault Refusal :=
  command s do
    let start ← s.argNat .a0
    .ok <|
      match syncScan s.codec.bits start with
      | none => .none
      | some o => .ok s { y0 := some (u64 o), y1 := some (u64 (o % 2)) }

/-! ### Zero-run masks (43_codec_analysis.md R225) -/

/-- The mask of a bit sequence that follows `k` zero bits whose mask bits are still to be written: at the end of a run they are 1 exactly when the run is longer than `thr`. -/
def zeroRuns (thr : Nat) : Nat → List Bit → List Bit
  | k, [] => List.replicate k (decide (thr < k))
  | k, false :: bs => zeroRuns thr (k + 1) bs
  | k, true :: bs => List.replicate k (decide (thr < k)) ++ false :: zeroRuns thr 0 bs

/-- `zero_run_mask(R, thr)`: the runs of the first revolution, then 0 up to the storage length. -/
def zeroRunMask (r : Ring) (thr : Nat) : List Bit :=
  zeroRuns thr 0 (r.bits.take r.wrap) ++ List.replicate (r.bits.length - r.wrap) false

/-- The number of 1 bits. -/
def countOnes (s : List Bit) : Nat := s.count true

/-- The ring a mask command installs: `ring_from_bits`, then `set_wrap` to `BITS.W` (43_codec_analysis.md R226, R229). -/
def maskRing (r : Ring) (thr : Nat) : Ring := (Ring.fromBits (zeroRunMask r thr)).setWrap r.wrap

/-- `CREATE_WEAK_MASK` (43_codec_analysis.md R226). -/
def execCreateWeakMask (hasRun : Bool) (s : State) : Host.Outcome State Fault Refusal :=
  command s do
    let run ← s.argNatIf hasRun .a0
    let m := maskRing s.codec.bits (run.getD Config.weakBitRun)
    .ok (.ok { s with codec := { s.codec with weak := m } } { y0 := some (u64 (countOnes m.bits)) })

/-- `CREATE_ERROR_MAP` (43_codec_analysis.md R229). -/
def execCreateErrorMap (s : State) : Host.Outcome State Fault Refusal :=
  command s
    (.ok (.ok { s with codec := { s.codec with error := maskRing s.codec.bits Config.errorRun } }
      { y0 := some (u64 (countOnes (maskRing s.codec.bits Config.errorRun).bits)) }))

end Sys2Proof.Machine
end

