-- ==== Sys2Proof/Machine/CodecAccess.lean ====
section
/-! DEFINITION. Codec construction, configuration and access, opcodes 0x20 to 0x31 (42_codec_access.md). -/

namespace Sys2Proof.Machine

/-! ### Construction and configuration -/

/-- The alternating clock map of a phase: 1 at the positions whose parity is the phase (42_codec_access.md R160). -/
def phaseMap (phase : Bit) (n : Nat) : List Bit := (List.range n).map (fun i => (i % 2 == 1) == phase)

/-- The codec that construction gives the bits `s`, already truncated, and the weak mask `m`, when one was given (42_codec_access.md R160). -/
def Codec.build (s : List Bit) (m : Option (List Bit)) : Codec where
  bits := Ring.fromBits s
  clock := (Ring.fromBits (phaseMap (syncPhase (syncScan (Ring.fromBits s) 0)) s.length)).setWrapValue
    (some false)
  error := Ring.fromBits (zeroRunMask (Ring.fromBits s) Config.errorRun)
  weak := Ring.fromBits (m.getD (zeroRunMask (Ring.fromBits s) Config.weakBitRun))
  weakEnabled := true
  initialPhase := syncPhase (syncScan (Ring.fromBits s) 0)
  bitCursor := 0
  dataRanges := []
  dataRangesFiltered := []

/-- `n <- (F[0] = 1) ? min(A0, L) : L` (42_codec_access.md R160). -/
def truncLength (count : Option Nat) (l : Nat) : Nat := min (count.getD l) l

/-- A weak mask was given and its length is not the input's (42_codec_access.md R160). -/
def badMask (mask : Option (List Bit)) (l : Nat) : Bool :=
  match mask with
  | some m => decide (m.length ≠ l)
  | none => false

/-- `CODEC_NEW` (42_codec_access.md R160). -/
def execCodecNew (hasCount hasMask : Bool) (s : State) : Host.Outcome State Fault Refusal :=
  command s do
    let bits ← s.bufBits .ib0
    let count ← s.argNatIf hasCount .a0
    let mask ← s.bufBitsIf hasMask .ib1
    .ok <|
      if badMask mask bits.length then .fault .weakMaskLength
      else
        .ok { s with codec := Codec.build (bits.take (truncLength count bits.length))
                       (mask.map (List.take (truncLength count bits.length))) } {}

/-- `SET_CLOCK_MAP` (42_codec_access.md R162). -/
def execSetClockMap (s : State) : Host.Outcome State Fault Refusal :=
  command s do
    let c ← s.bufBits .ib0
    .ok <|
      if c.length ≠ s.codec.len then .fault .clockMapLength
      else .ok { s with codec := { s.codec with clock := { s.codec.clock with bits := c } } } {}

/-- `set_wrap` of all four rings. -/
def Codec.setTrackLen (c : Codec) (len : Nat) : Codec :=
  { c with
    bits := c.bits.setWrap len
    clock := c.clock.setWrap len
    error := c.error.setWrap len
    weak := c.weak.setWrap len }

/-- `SET_TRACK_LEN` (42_codec_access.md R163). -/
def execSetTrackLen (s : State) : Host.Outcome State Fault Refusal :=
  command s do
    let len ← s.argNat .a0
    .ok (.ok { s with codec := s.codec.setTrackLen len } {})

/-- `SET_WEAK_ENABLED` (42_codec_access.md R164). -/
def execSetWeakEnabled (s : State) : Host.Outcome State Fault Refusal :=
  command s do
    let b ← s.argBit .a0
    .ok (.ok { s with codec := { s.codec with weakEnabled := b } } {})

/-! ### Raw reads -/

/-- The draws a read took are taken. -/
def State.withDraws (s : State) (d : Nat) : State := { s with draws := d }

/-- `READ_RAW_U8` (42_codec_access.md R171). -/
def execReadRawU8 (s : State) : Host.Outcome State Fault Refusal :=
  command s do
    let off ← s.argNat .a0
    .ok <| accessChecks s.codec (off + 8) <|
      orFault (s.codec.readBits (rawPositions off 8) s.draws) fun (bs, d) =>
        .ok (s.withDraws d) { y0 := some (u64 (packMsb bs)) }

/-- `READ_RAW_U32` (42_codec_access.md R172). -/
def execReadRawU32 (s : State) : Host.Outcome State Fault Refusal :=
  command s do
    let off ← s.argNat .a0
    .ok <| accessChecks s.codec (off + 32) <|
      orFault (s.codec.readBits (rawPositions off 32) s.draws) fun (bs, d) =>
        .ok (s.withDraws d) { y0 := some (u64 (packMsb bs)) }

/-- `READ_RAW_BUF` (42_codec_access.md R173): `8n` raw bits, eight to a byte. -/
def execReadRawBuf (s : State) : Host.Outcome State Fault Refusal :=
  command s do
    let off ← s.argNat .a0
    let n ← s.argNat .a1
    .ok <| accessChecks s.codec (off + 8 * n) <|
      orFault (s.codec.readBits (rawPositions off (8 * n)) s.draws) fun (bs, d) =>
        .ok (s.withDraws d) { ob0 := some (.bytes (bitsToBytes bs)) }

/-! ### Decoded reads -/

/-- A decoded read of `w` data bits at `off`: the nudge, then the data bits; the start goes to `Y1` (42_codec_access.md R174 to R177). -/
def decodedRead (s : State) (off w : Nat) : Ending :=
  accessChecks s.codec (off + 2 * w + 1) <|
    orFault (s.codec.align off) fun p =>
      orFault (s.codec.readBits (dataPositions p w) s.draws) fun (bs, d) =>
        .ok (s.withDraws d) { y0 := some (u64 (packMsb bs)), y1 := some (u64 p) }

/-- `READ_DECODED_U8` (42_codec_access.md R176): every index is at most `off + 16`. -/
def execReadDecodedU8 (s : State) : Host.Outcome State Fault Refusal :=
  command s do
    let off ← s.argNat .a0
    .ok (decodedRead s off 8)

/-- `READ_DECODED_U32` (42_codec_access.md R177): every index is at most `off + 64`. -/
def execReadDecodedU32 (s : State) : Host.Outcome State Fault Refusal :=
  command s do
    let off ← s.argNat .a0
    .ok (decodedRead s off 32)

/-! ### Byte stream and seek -/

/-- The aligned starts of `n` stream bytes from cursor `o`, and the cursor after them: each byte moves the cursor to `(p + 16) mod BITS.W`. The last index of a byte is `p + 15`; past `2^64 - 1` it is `INDEX_OVERFLOW`, found before any data bit is read (42_codec_access.md R180, 60_exceptions.md R319; log 11). -/
def Codec.streamStarts (c : Codec) : Nat → Nat → Except FaultCode (List Nat × Nat)
  | 0, o => .ok ([], o)
  | n + 1, o =>
    if Config.maxIndex < o + 15 then .error .indexOverflow
    else
      match c.align o with
      | .error e => .error e
      | .ok p =>
        if Config.maxIndex < p + 15 then .error .indexOverflow
        else
          match c.streamStarts n ((p + 16) % c.bits.wrap) with
          | .error e => .error e
          | .ok (ps, o') => .ok (p :: ps, o')

/-- `STREAM_READ` (42_codec_access.md R180). -/
def execStreamRead (s : State) : Host.Outcome State Fault Refusal :=
  command s do
    let n ← s.argNat .a0
    .ok <|
      if s.codec.bits.wrap = 0 then .invalidInput
      else
        orFault (s.codec.streamStarts n s.codec.bitCursor.toNat) fun (ps, o) =>
          orFault (s.codec.readBits (ps.flatMap (fun p => dataPositions p 8)) s.draws) fun (bs, d) =>
            .ok ({ s with codec := { s.codec with bitCursor := u64 o } }.withDraws d)
              { ob0 := some (.bytes (bitsToBytes bs)) }

/-- The seek target, an integer: the origin plus `A0`, read as u64 for `Start` and as i64 else (42_codec_access.md R182). -/
def seekTarget (c : Codec) (w : Whence) (v : U64) : Int :=
  match w with
  | .fromStart => (v.toNat : Int)
  | .fromCurrent => (c.bitCursor.toNat : Int) + v.toInt
  | .fromEnd => (c.bits.wrap : Int) + v.toInt

/-- `SEEK` (42_codec_access.md R182). -/
def execSeek (w : Whence) (s : State) : Host.Outcome State Fault Refusal :=
  command s do
    let v ← s.arg .a0
    .ok <|
      if s.codec.bits.wrap = 0 then .invalidInput
      else if seekTarget s.codec w v < 0 ∨ (Config.maxIndex : Int) < seekTarget s.codec w v then
        .invalidInput
      else
        .ok { s with codec := { s.codec with bitCursor := u64 (seekTarget s.codec w v).toNat } }
          { y0 := some (u64 (seekTarget s.codec w v).toNat) }

/-! ### Writes -/

/-- `WRITE_RAW_BUF` (42_codec_access.md R185). -/
def execWriteRawBuf (s : State) : Host.Outcome State Fault Refusal :=
  command s do
    let off ← s.argNat .a0
    let b ← s.bufBytes .ib0
    .ok <| accessChecks s.codec (off + 8 * b.length) <|
      orFault (s.codec.bits.setMany (bytesToBits b) off) fun r =>
        .ok { s with codec := { s.codec with bits := r } } { y0 := some (u64 b.length) }

/-- The index of the raw bit before a write at `off` (42_codec_access.md R186). -/
def prevIndex (c : Codec) (off : Nat) : Nat := if 0 < off then off - 1 else c.bits.wrap - 1

/-- `WRITE_ENCODED_BUF` (42_codec_access.md R186). -/
def execWriteEncodedBuf (v : Variant) (s : State) : Host.Outcome State Fault Refusal :=
  command s do
    let off ← s.argNat .a0
    let b ← s.bufBytes .ib0
    .ok <| accessChecks s.codec (off + 16 * b.length) <|
      orFault (s.codec.bits.get (prevIndex s.codec off)) fun prev =>
        orFault (s.codec.bits.setMany (mfmEncode (bytesToBits b) prev v) off) fun r =>
          .ok { s with codec := { s.codec with bits := r } } { y0 := some (u64 b.length) }

/-! ### Map export -/

/-- `GET_CLOCK_MAP` (42_codec_access.md R190). -/
def execGetClockMap (s : State) : Host.Outcome State Fault Refusal :=
  command s (.ok (.ok s { ob0 := some (.bits s.codec.clock.bits) }))

/-- `GET_ERROR_MAP` (42_codec_access.md R191). -/
def execGetErrorMap (s : State) : Host.Outcome State Fault Refusal :=
  command s (.ok (.ok s { ob0 := some (.bits s.codec.error.bits) }))

/-- `GET_WEAK_DATA` (42_codec_access.md R192). -/
def execGetWeakData (s : State) : Host.Outcome State Fault Refusal :=
  command s (.ok (.ok s { ob0 := some (.bytes (bitsToBytes s.codec.weak.bits)) }))

/-! ### Data ranges -/

/-- A range starts after its end (42_codec_access.md R194). -/
def badRange (r : U64 × U64) : Bool := decide (r.2.toNat < r.1.toNat)

/-- A range ends at or before the wrap (42_codec_access.md R194). -/
def rangeInside (wrap : Nat) (r : U64 × U64) : Bool := decide (r.2.toNat ≤ wrap)

/-- `s <= i < e` (42_codec_access.md R196). -/
def inRange (i : U64) (r : U64 × U64) : Bool := decide (r.1.toNat ≤ i.toNat) && decide (i.toNat < r.2.toNat)

/-- `SET_DATA_RANGES` (42_codec_access.md R194). -/
def execSetDataRanges (s : State) : Host.Outcome State Fault Refusal :=
  command s do
    let rs ← s.bufRanges .ib0
    .ok <|
      if rs.any badRange then .fault .badRange
      else
        .ok { s with codec := { s.codec with
                dataRanges := rs
                dataRangesFiltered := rs.filter (rangeInside s.codec.bits.wrap) } } {}

/-- The list an `IS_DATA` query asks (42_codec_access.md R196). -/
def Codec.rangesFor (c : Codec) (wrapping : Bool) : List (U64 × U64) :=
  if wrapping then c.dataRanges else c.dataRangesFiltered

/-- `IS_DATA` (42_codec_access.md R196). -/
def execIsData (wrapping : Bool) (s : State) : Host.Outcome State Fault Refusal :=
  command s do
    let i ← s.arg .a0
    .ok (.ok s { y0 := some (bitWord ((s.codec.rangesFor wrapping).any (inRange i))) })

end Sys2Proof.Machine
end

