-- ==== Sys2Proof/Machine/PllUnit.lean ====
section
/-! DEFINITION. The PLL unit, opcodes 0x50 to 0x52, and the decode state machine it shares with the revolution commands (44_pll.md). -/

namespace Sys2Proof.Machine

/-! ### Clamp bounds and validity (44_pll.md R250, R262) -/

/-- `lo = dp * (1.0 - max_adjust)`. -/
def clampLo (dp ma : F64) : F64 := F64.mul dp (F64.sub F64.one ma)

/-- `hi = dp * (1.0 + max_adjust)`. -/
def clampHi (dp ma : F64) : F64 := F64.mul dp (F64.add F64.one ma)

/-- `valid_centre(c, ma)`. -/
def validCentre (c ma : F64) : Bool :=
  F64.finite c && F64.lt (F64.zero false) c && F64.finite ma &&
  F64.le (F64.zero false) ma && F64.lt ma F64.one &&
  F64.lt (F64.zero false) (clampLo c ma) && F64.finite (clampHi c ma)

/-! ### Normalisation (44_pll.md R256) -/

/-- A delta that raises `INVALID_FLUX_DELTA`: not finite, or negative. -/
def badDelta (v : F64) : Bool := !F64.finite v || F64.lt v (F64.zero false)

/-- Not `+0.0` and not `-0.0`. -/
def nonzeroDelta (v : F64) : Bool := F64.mag v != 0

/-- `normalize(x)`. -/
def normalizeDeltas (x : List F64) : Except FaultCode (List F64) :=
  if x.any badDelta then .error .invalidFluxDelta else .ok (x.filter nonzeroDelta)

/-! ### The state machine (44_pll.md R260) -/

/-- The values of a decode under way: the transient ones of 10_state.md R45 that live across deltas (`ticks` lives within one), the period, and what the decode has put out. -/
structure PllRun where
  period : F64
  time : F64
  acc : F64
  last : F64
  out : List Bit
  tooFast : Nat
  tooSlow : Nat
deriving DecidableEq, Repr

/-- The start of a decode (44_pll.md R264). -/
def PllRun.start (p0 : F64) : PllRun where
  period := p0
  time := F64.neg (F64.div p0 F64.two)
  acc := F64.zero false
  last := F64.zero false
  out := []
  tooFast := 0
  tooSlow := 0

/-- A count no run of the tick loop reaches: `time` moves strictly through the binary64 values, of which there are fewer (log 13). -/
def tickFuel : Nat := 2 ^ 64

/-- Step b: the virtual clock advances by `p` until `time + acc` reaches `nxt`; the time and the ticks it took, or none when `time + p` rounds to `time` (44_pll.md R261). The first argument is a count that is never used up. -/
def tickLoop (p acc nxt : F64) : Nat → F64 → Nat → Option (F64 × Nat)
  | 0, _, _ => none
  | n + 1, time, ticks =>
    if F64.lt (F64.add time acc) nxt then
      if F64.eq (F64.add time p) time then none
      else tickLoop p acc nxt n (F64.add time p) (ticks + 1)
    else some (time, ticks)

/-- Step d: the bits a transition of `ticks` ticks emits. -/
def emitBits (prof : Config.Profile) (ticks : Nat) : List Bit :=
  if prof.minTicks ≤ ticks ∧ ticks < prof.maxTicks then List.replicate (ticks - 1) false ++ [true]
  else []

/-- Step f, the clamp: `min(max(P, lo), hi)`. -/
def clampPeriod (lo hi p : F64) : F64 := F64.min (F64.max p lo) hi

/-- Step g, the reduction (44_pll.md R265). -/
def reducePhase (acc p : F64) : F64 := if F64.lt p (F64.abs acc) then F64.fmod acc p else acc

/-- `err`, of step e: the next transition less the predicted one, with the period before step f. -/
def phaseError (r : PllRun) (nxt : F64) (ticks : Nat) : F64 :=
  F64.sub nxt (F64.add r.last (F64.mul (F64.ofNat ticks) r.period))

/-- The period after step f. -/
def nextPeriod (lo hi kp : F64) (r : PllRun) (err : F64) : F64 :=
  clampPeriod lo hi (F64.add r.period (F64.mul kp err))

/-- Steps c to h of a delta whose transition lies at `nxt` and took `ticks` ticks, the clock then at `time`. Step c has made `acc` zero when step g adds `err` to it. -/
def afterTicks (lo hi kp : F64) (prof : Config.Profile) (r : PllRun) (nxt time : F64) (ticks : Nat) :
    PllRun where
  period := nextPeriod lo hi kp r (phaseError r nxt ticks)
  time := F64.add time r.acc
  acc := reducePhase (F64.add (F64.zero false) (phaseError r nxt ticks))
    (nextPeriod lo hi kp r (phaseError r nxt ticks))
  last := nxt
  out := r.out ++ emitBits prof ticks
  tooFast := if ticks < prof.minTicks then r.tooFast + 1 else r.tooFast
  tooSlow := if ticks < prof.minTicks then r.tooSlow
    else if ticks < prof.maxTicks then r.tooSlow else r.tooSlow + 1

/-- One delta: steps a to h, and the two checks on finite values. -/
def pllDelta (lo hi kp : F64) (prof : Config.Profile) (r : PllRun) (v : F64) :
    Except FaultCode PllRun :=
  if F64.finite (F64.add r.last v) then
    match tickLoop r.period r.acc (F64.add r.last v) tickFuel r.time 0 with
    | none => .error .invalidFluxDelta
    | some (time, ticks) =>
      if F64.finite (F64.add time r.acc) && F64.finite (phaseError r (F64.add r.last v) ticks) &&
          F64.finite (afterTicks lo hi kp prof r (F64.add r.last v) time ticks).acc then
        .ok (afterTicks lo hi kp prof r (F64.add r.last v) time ticks)
      else .error .invalidFluxDelta
  else .error .invalidFluxDelta

/-- Every delta in order. -/
def pllDeltas (lo hi kp : F64) (prof : Config.Profile) : List F64 → PllRun → Except FaultCode PllRun
  | [], r => .ok r
  | v :: d, r =>
    match pllDelta lo hi kp prof r v with
    | .error c => .error c
    | .ok r' => pllDeltas lo hi kp prof d r'

/-- `pll_run(d, P0, dp, prof)` with the unit's `max_adjust` and `kp`. -/
def pllRun (u : Pll) (d : List F64) (p0 dp : F64) (prof : Config.Profile) : Except FaultCode PllRun :=
  pllDeltas (clampLo dp u.maxAdjust) (clampHi dp u.maxAdjust) u.kp prof d (PllRun.start p0)

/-- The `Mfm` profile `(1.0, 2, 5)` (44_pll.md R255). -/
def mfmProfile : Config.Profile := ⟨F64.one, Config.minTicks, Config.maxTicks⟩

/-! ### The commands -/

/-- The unit after a configuration (44_pll.md R250). -/
def Pll.configured (dp ma kp density : F64) : Pll := ⟨dp, dp, ma, kp, density, 0, 0, 0⟩

/-- `PLL_CONFIG` (44_pll.md R250). -/
def execPllConfig (s : State) : Host.Outcome State Fault Refusal :=
  command s do
    let rate ← s.arg .a0
    let ma ← s.arg .a1
    let kp ← s.arg .a2
    let density ← s.arg .a3
    .ok <|
      if !validCentre (F64.div F64.one rate) ma || !F64.finite kp || !F64.finite density then
        .fault .badOperand
      else .ok { s with pll := Pll.configured (F64.div F64.one rate) ma kp density } {}

/-- `PLL_RESET` (44_pll.md R252). -/
def execPllReset (s : State) : Host.Outcome State Fault Refusal :=
  command s
    (.ok (.ok { s with pll := { s.pll with
      period := s.pll.defaultPeriod, tooFast := 0, tooSlow := 0, bitsOut := 0 } } {}))

/-- The unit with the counts of a decode (10_state.md R44). -/
def Pll.withCounts (u : Pll) (r : PllRun) : Pll :=
  { u with tooFast := u64 r.tooFast, tooSlow := u64 r.tooSlow, bitsOut := u64 r.out.length }

/-- The clamp centre and the starting period a hint replaces (44_pll.md R266). -/
def Pll.hinted (u : Pll) (hint : Option F64) : Pll :=
  match hint with
  | some h => { u with defaultPeriod := h, period := h }
  | none => u

/-- A hint that is no valid clamp centre (44_pll.md R266). -/
def badHint (u : Pll) (hint : Option F64) : Bool :=
  match hint with
  | some h => !validCentre h u.maxAdjust
  | none => false

/-- The part of `PLL_DECODE` after the hint, on a unit that has taken it: `Mfm` ends with the period the loop reached, `Fm` checks its centre and leaves the period (44_pll.md R266). The new unit and the decode. -/
def Pll.decode (u : Pll) (e : PllEnc) (d : List F64) : Except FaultCode (Pll × PllRun) :=
  match e with
  | .mfm =>
    match pllRun u d u.period u.defaultPeriod mfmProfile with
    | .error c => .error c
    | .ok r => .ok ({ u with period := r.period }.withCounts r, r)
  | .fm =>
    if validCentre (F64.mul u.defaultPeriod Config.fmProfile.periodMult) u.maxAdjust then
      match pllRun u d (F64.mul u.period Config.fmProfile.periodMult)
          (F64.mul u.defaultPeriod Config.fmProfile.periodMult) Config.fmProfile with
      | .error c => .error c
      | .ok r => .ok (u.withCounts r, r)
    else .error .badOperand

/-- `PLL_DECODE` (44_pll.md R266): delta validation, then the hint, then the FM profile (60_exceptions.md R319). -/
def execPllDecode (e : PllEnc) (hasHint : Bool) (s : State) : Host.Outcome State Fault Refusal :=
  command s do
    let x ← s.bufF64s .ib0
    let hint ← s.argIf hasHint .a0
    .ok <| orFault (normalizeDeltas x) fun d =>
      if badHint s.pll hint then .fault .badOperand
      else
        orFault ((s.pll.hinted hint).decode e d) fun (u, r) =>
          .ok { s with pll := u }
            { y0 := some u.tooFast, y1 := some u.tooSlow, y2 := some u.bitsOut
              ob0 := some (.bits r.out) }

end Sys2Proof.Machine
end

