-- ==== Sys2Proof/Machine/Registers.lean ====
section
/-! DEFINITION. The register map (10_state.md R55) and REG_READ, opcode 0x70 (42_codec_access.md R199, 60_exceptions.md R318). -/

namespace Sys2Proof.Machine

/-- The two bits of a ring in `WRAP_VALUES`: present, then value; "present=0 forces value=0". -/
def wrapBits (r : Ring) : BitVec 2 :=
  match r.wrapValue with
  | none => 0
  | some false => 1
  | some true => 3

/-- `WRAP_VALUES`: ring `r` in bits `2r` and `2r+1`. -/
def wrapValuesReg (c : Codec) : BitVec 8 :=
  wrapBits c.weak ++ wrapBits c.error ++ wrapBits c.clock ++ wrapBits c.bits

/-- `CODEC_CTRL`: bit 0 `weak_enabled`, bit 1 `initial_phase`. -/
def codecCtrlReg (c : Codec) : BitVec 2 := BitVec.ofBool c.initialPhase ++ BitVec.ofBool c.weakEnabled

/-- The value of a register number (10_state.md R55); `none` for a reserved number. -/
def regValue (s : State) (num : Nat) : Option U64 :=
  match num with
  | 0x00 => some (s.status.setWidth 64)
  | 0x01 => some (u64 s.codec.len)
  | 0x02 => some (u64 s.codec.bits.wrap)
  | 0x03 => some (u64 s.codec.clock.wrap)
  | 0x04 => some (u64 s.codec.error.wrap)
  | 0x05 => some (u64 s.codec.weak.wrap)
  | 0x06 => some ((wrapValuesReg s.codec).setWidth 64)
  | 0x07 => some ((codecCtrlReg s.codec).setWidth 64)
  | 0x08 => some s.codec.bitCursor
  | 0x09 => some (u64 s.codec.bits.cursor)
  | 0x0A => some (u64 s.codec.clock.cursor)
  | 0x0B => some (u64 s.codec.error.cursor)
  | 0x0C => some (u64 s.codec.weak.cursor)
  | 0x0D => some (u64 s.codec.dataRanges.length)
  | 0x0E => some (u64 s.codec.dataRangesFiltered.length)
  | 0x10 => some s.pll.period
  | 0x11 => some (F64.div F64.one s.pll.period)
  | 0x12 => some s.pll.defaultPeriod
  | 0x13 => some (F64.div F64.one s.pll.defaultPeriod)
  | 0x14 => some s.pll.maxAdjust
  | 0x15 => some s.pll.kp
  | 0x16 => some s.pll.densityFactor
  | 0x17 => some s.pll.tooFast
  | 0x18 => some s.pll.tooSlow
  | 0x19 => some s.pll.bitsOut
  | _ => none

/-- `REG_READ` on a running block (42_codec_access.md R199). -/
def regReadRunning (s : State) : Host.Outcome State Fault Refusal :=
  command s do
    let num ← s.argNat .a0
    .ok <|
      match regValue s num with
      | none => .fault .illegalCommand
      | some v => .ok s { y0 := some v }

/-- `REG_READ` on a halted block (60_exceptions.md R318): `Y0` takes the value when `A0` holds a register number, and nothing else changes (log 10). -/
def regReadHalted (s : State) : State :=
  match s.args.a0 with
  | none => s
  | some num =>
    match regValue s num.toNat with
    | none => s
    | some v => { s with results := { s.results with y0 := some v } }

/-- `REG_READ` (42_codec_access.md R199, 60_exceptions.md R318). -/
def execRegRead (s : State) : Host.Outcome State Fault Refusal :=
  if s.faulted then .next (regReadHalted s) else regReadRunning s

end Sys2Proof.Machine
end

