-- ==== Sys2Proof/Machine/Revolution.lean ====
section
/-! DEFINITION. The revolution commands, opcodes 0x60 to 0x62 (45_flux_revolution.md). -/

namespace Sys2Proof.Machine

/-- `REV_NORMALIZE` (45_flux_revolution.md R290). -/
def execRevNormalize (s : State) : Host.Outcome State Fault Refusal :=
  command s do
    let x ← s.bufF64s .ib0
    .ok <| orFault (normalizeDeltas x) fun d =>
      .ok s { y0 := some (u64 (x.length - d.length)), ob0 := some (.f64s d) }

/-- What `REV_ALIGN_PAIR` gives: the two delta lists, `Y0`, `Y1`. -/
structure Aligned where
  first : List F64
  second : List F64
  synthetic : Bit
  toFirst : Bit
deriving DecidableEq, Repr

/-- The boundary shift on normalised lists: `x` the earlier revolution, `y` the later (45_flux_revolution.md R293). -/
def alignPair (x y : List F64) : Aligned :=
  if x.length = y.length + 2 then
    ⟨x.take (x.length - 1), x.drop (x.length - 1) ++ y, true, false⟩
  else if y.length = x.length + 2 then ⟨x ++ y.take 1, y.drop 1, true, true⟩
  else ⟨x, y, false, false⟩

/-- `REV_ALIGN_PAIR` (45_flux_revolution.md R293). -/
def execRevAlignPair (s : State) : Host.Outcome State Fault Refusal :=
  command s do
    let a ← s.bufF64s .ib0
    let b ← s.bufF64s .ib1
    .ok <| orFault (normalizeDeltas a) fun x =>
      orFault (normalizeDeltas b) fun y =>
        .ok s { y0 := some (bitWord (alignPair x y).synthetic)
                y1 := some (bitWord (alignPair x y).toFirst)
                ob0 := some (.f64s (alignPair x y).first)
                ob1 := some (.f64s (alignPair x y).second) }

/-- The second pass of auto-detection, with FM timing, from a fresh loop (45_flux_revolution.md R297). -/
def fmPass (u : Pll) (d : List F64) : Except FaultCode PllRun :=
  if validCentre (F64.mul u.defaultPeriod Config.fmProfile.periodMult) u.maxAdjust then
    pllRun u d (F64.mul u.defaultPeriod Config.fmProfile.periodMult)
      (F64.mul u.defaultPeriod Config.fmProfile.periodMult) Config.fmProfile
  else .error .badOperand

/-- Auto-detection on a normalised list: MFM first; FM when the MFM bits hold no markers and the classifier suggests FM, kept only when its bits hold markers (45_flux_revolution.md R297, R298). The decode kept, and whether it is the FM one. -/
def detectEncoding (u : Pll) (d : List F64) (indexTime : F64) : Except FaultCode (PllRun × Bit) :=
  match pllRun u d u.defaultPeriod u.defaultPeriod mfmProfile with
  | .error c => .error c
  | .ok m =>
    if !Config.hasMarkers m.out && Config.fmSuggested d indexTime then
      match fmPass u d with
      | .error c => .error c
      | .ok f => if Config.hasMarkers f.out then .ok (f, true) else .ok (m, false)
    else .ok (m, false)

/-- `REV_DECODE_DIRECT` (45_flux_revolution.md R297). -/
def execRevDecodeDirect (s : State) : Host.Outcome State Fault Refusal :=
  command s do
    let x ← s.bufF64s .ib0
    let indexTime ← s.arg .a0
    .ok <| orFault (normalizeDeltas x) fun d =>
      orFault (detectEncoding s.pll d indexTime) fun (r, fm) =>
        .ok { s with pll := s.pll.withCounts r }
          { y0 := some (bitWord fm), y1 := some (u64 r.tooFast), y2 := some (u64 r.tooSlow)
            y3 := some (u64 r.out.length), ob0 := some (.bits r.out) }

end Sys2Proof.Machine
end

