-- ==== Sys2Proof/Machine/Dispatch.lean ====
section
/-! DEFINITION. exec: one arm per command (30_encoding.md R111), each one call of its meaning. -/

namespace Sys2Proof.Machine

def exec (i : Instr) (s : State) : Host.Outcome State Fault Refusal :=
  match i with
  | .ringLen r => Sys2Proof.Machine.execRingLen r s
  | .ringSetWrap r => Sys2Proof.Machine.execRingSetWrap r s
  | .ringSetWrapValue r present => Sys2Proof.Machine.execRingSetWrapValue r present s
  | .ringGet r => Sys2Proof.Machine.execRingGet r s
  | .ringSet r => Sys2Proof.Machine.execRingSet r s
  | .ringIter r => Sys2Proof.Machine.execRingIter r s
  | .ringIterRev r => Sys2Proof.Machine.execRingIterRev r s
  | .ringRead r => Sys2Proof.Machine.execRingRead r s
  | .codecNew count mask => Sys2Proof.Machine.execCodecNew count mask s
  | .setClockMap => Sys2Proof.Machine.execSetClockMap s
  | .setTrackLen => Sys2Proof.Machine.execSetTrackLen s
  | .setWeakEnabled => Sys2Proof.Machine.execSetWeakEnabled s
  | .readRawU8 => Sys2Proof.Machine.execReadRawU8 s
  | .readRawU32 => Sys2Proof.Machine.execReadRawU32 s
  | .readRawBuf => Sys2Proof.Machine.execReadRawBuf s
  | .readDecodedU8 => Sys2Proof.Machine.execReadDecodedU8 s
  | .readDecodedU32 => Sys2Proof.Machine.execReadDecodedU32 s
  | .streamRead => Sys2Proof.Machine.execStreamRead s
  | .seek w => Sys2Proof.Machine.execSeek w s
  | .writeRawBuf => Sys2Proof.Machine.execWriteRawBuf s
  | .writeEncodedBuf v => Sys2Proof.Machine.execWriteEncodedBuf v s
  | .getClockMap => Sys2Proof.Machine.execGetClockMap s
  | .getErrorMap => Sys2Proof.Machine.execGetErrorMap s
  | .getWeakData => Sys2Proof.Machine.execGetWeakData s
  | .setDataRanges => Sys2Proof.Machine.execSetDataRanges s
  | .isData wrapping => Sys2Proof.Machine.execIsData wrapping s
  | .encodeMfm v => Sys2Proof.Machine.execEncodeMfm v s
  | .findMarker limit => Sys2Proof.Machine.execFindMarker limit s
  | .findSync => Sys2Proof.Machine.execFindSync s
  | .createWeakMask run => Sys2Proof.Machine.execCreateWeakMask run s
  | .createErrorMap => Sys2Proof.Machine.execCreateErrorMap s
  | .pllConfig => Sys2Proof.Machine.execPllConfig s
  | .pllReset => Sys2Proof.Machine.execPllReset s
  | .pllDecode e hint => Sys2Proof.Machine.execPllDecode e hint s
  | .revNormalize => Sys2Proof.Machine.execRevNormalize s
  | .revAlignPair => Sys2Proof.Machine.execRevAlignPair s
  | .revDecodeDirect => Sys2Proof.Machine.execRevDecodeDirect s
  | .regRead => Sys2Proof.Machine.execRegRead s

end Sys2Proof.Machine
end

