-- ==== Sys2Proof/Machine/HostPort.lean ====
section
/-! DEFINITION. What each host event does: writes of operands, the issue of a command word, reads of results, reset (10_state.md R46 to R49, 30_encoding.md R102, 60_exceptions.md R318, 70_reset_and_hazards.md R340). -/

namespace Sys2Proof.Machine

/-- The host writes an argument register (10_state.md R46). -/
def State.writeArg (s : State) (a : ArgReg) (v : U64) : State := { s with args := s.args.set a v }

/-- The host fills an input buffer (10_state.md R48). -/
def State.writeBuf (s : State) (b : InBuf) (v : Buffer) : State :=
  match b with
  | .ib0 => { s with ib0 := some v }
  | .ib1 => { s with ib1 := some v }

/-- An illegal word: `ILLEGAL_COMMAND` (30_encoding.md R102), but "a halted block raises no fault, not even for an illegal word" (60_exceptions.md R318). -/
def State.illegalWord (s : State) : State := if s.faulted then s else s.raise .illegalCommand

/-- The host issues a command word: decode, then the command's rule (30_encoding.md R102). -/
def issue (w : CmdWord) (s : State) : Host.Outcome State Fault Refusal :=
  match decode w with
  | .ok i => exec i s
  | .error _ => .next s.illegalWord

/-- A host read of a result register changes nothing; of an undefined one the run is refused (10_state.md R49). -/
def hostReadResult (y : ResReg) (s : State) : Host.Outcome State Fault Refusal :=
  match s.results.get y with
  | some _ => .next s
  | none => .refused (.resultUndefined y)

/-- A host read of an output buffer changes nothing; of an undefined one the run is refused (10_state.md R49). -/
def hostReadOut (o : OutBuf) (s : State) : Host.Outcome State Fault Refusal :=
  match s.results.out o with
  | some _ => .next s
  | none => .refused (.outputUndefined o)

/-- One host event. -/
def hostEvent (e : HostEvent) (s : State) : Host.Outcome State Fault Refusal :=
  match e with
  | .writeArg a v => .next (s.writeArg a v)
  | .writeBuf b v => .next (s.writeBuf b v)
  | .command w => issue w s
  | .readResult y => hostReadResult y s
  | .readOut o => hostReadOut o s
  | .reset => .next s.afterReset

/-- The next event, and the state with it taken from the host's sequence; `none` when the host has nothing to do. -/
def State.nextEvent (s : State) : Option (HostEvent × State) :=
  match s.pending with
  | [] => none
  | e :: rest => some (e, { s with pending := rest })

/-- The command word the host issues next, put in front of its sequence, with the operand set-up of the command it decodes to (log 2). -/
def State.issueNext (s : State) (w : CmdWord) : State :=
  match decode w with
  | .ok i => { s.withOperandsFor i with pending := .command w :: s.pending }
  | .error _ => { s with pending := .command w :: s.pending }

end Sys2Proof.Machine
end

