-- ==== Sys2Proof/Machine/Step.lean ====
section
/-! DEFINITION. One step: the next host event (10_state.md R51, 20_memory.md R88, R90); an idle block keeps all state (60_exceptions.md R329). -/

namespace Sys2Proof.Machine

/-- One step of the block. -/
def step (s : State) : Host.Outcome State Fault Refusal :=
  match s.nextEvent with
  | none => .next s
  | some (e, s') => hostEvent e s'

/-- `s` with the word `w` (bits at and above `nbits` are 0) as the command the host issues next, and with the operand set-up it takes for the operands the host has not written (log 2). -/
def State.withFetchWord (s : State) (nbits w : Nat) : State :=
  s.issueNext (BitVec.ofNat 32 (w % 2 ^ nbits))

end Sys2Proof.Machine
end

