-- ==== Sys2Proof/Safety.lean ====
section
/-! DEFINITION. What holds of the block in a good run, in the terms the statements use: the invariants the spec states, and the two conditions a command can be issued in. -/

namespace Sys2Proof.Machine

/-- A ring of storage length `n` whose wrap lies in it (10_state.md R31, R34). -/
def Ring.wf (r : Ring) (n : Nat) : Bool := r.bits.length == n && decide (r.wrap ≤ n)

/-- `start <= end` (10_state.md R39). -/
def rangeOrdered (r : U64 × U64) : Bool := decide (r.1.toNat ≤ r.2.toNat)

/-- The codec invariants: one storage length for the four rings, every wrap inside it (10_state.md R31, R34), ordered ranges (R39), and no more filtered ranges than ranges (R55, register 0x0E). -/
def Codec.wf (c : Codec) : Bool :=
  c.bits.wf c.len && c.clock.wf c.len && c.error.wf c.len && c.weak.wf c.len &&
  c.dataRanges.all rangeOrdered && c.dataRangesFiltered.all rangeOrdered &&
  decide (c.dataRangesFiltered.length ≤ c.dataRanges.length)

/-- The codes a command that is no fault ends with (60_exceptions.md R311). -/
def plainCode (b : BitVec 8) : Bool := b == codeOk || b == codeNone || b == codeInvalidInput

/-- The fault codes (60_exceptions.md R311). -/
def faultByte (b : BitVec 8) : Bool := decide (0x80 ≤ b.toNat) && decide (b.toNat ≤ 0x87)

/-- STATUS as 10_state.md R50 has it: the reserved bits are zero; before a fault `fault_code` is 0 and the code is no fault's; after one the code is `fault_code` (a halted block gives no new status, 60_exceptions.md R318). -/
def statusWf (st : BitVec 32) : Bool :=
  st.extractLsb' 9 7 == 0#7 && st.extractLsb' 24 8 == 0#8 &&
  (if statusFaulted st then faultByte (statusFaultCode st) && (statusCode st == statusFaultCode st)
   else (statusFaultCode st == 0#8) && plainCode (statusCode st))

/-- The invariants of the codec unit and of STATUS. -/
def State.wf (s : State) : Bool := s.codec.wf && statusWf s.status

/-- The PLL invariant (10_state.md R42) with the legal values of the clamp centre (R55): the period lies between the bounds of 44_pll.md R262. -/
def Pll.ok (u : Pll) : Bool :=
  validCentre u.defaultPeriod u.maxAdjust &&
  F64.le (clampLo u.defaultPeriod u.maxAdjust) u.period &&
  F64.le u.period (clampHi u.defaultPeriod u.maxAdjust)

/-- The block is not halted. -/
abbrev State.running (s : State) : Prop := s.faulted = false

/-- The block is halted (60_exceptions.md R317). -/
abbrev State.halted (s : State) : Prop := s.faulted = true

/-- The outcome of a command that completed `OK`: the state `s'` with `STATUS.code = OK` and the results `r`, the ones it does not name undefined. -/
abbrev okWith (s' : State) (r : Results) : Host.Outcome State Fault Refusal :=
  .next (s'.complete codeOk r)

/-- The outcome of a command that took a fault: nothing but STATUS and the results changes. -/
abbrev faultWith (s : State) (c : FaultCode) : Host.Outcome State Fault Refusal := .next (s.raise c)

end Sys2Proof.Machine
end

