-- ==== Sys2Proof/Certificates/Slice0/Obligations.lean ====
section
/-! DEFINITION. The statements for the provers, and the few predicates they are written in. Each docstring names the rules of spec/ the statement rests on. -/

namespace Sys2Proof.Claims

open Sys2Proof.Machine

/-- The word of `i` has the opcode, the `S` field and the `F` field given, and `Z = 0` (30_encoding.md R101). -/
def EncodedAs (i : Instr) (opc : BitVec 8) (sel flags : BitVec 4) : Prop :=
  fieldsOf (encode i) = ⟨opc, sel, flags, 0⟩

/-- The reset values of 10_state.md R57 to R60, for a default rate and a density factor. -/
def AtReset (rate density : F64) (t : State) : Prop :=
  (∀ sel, (t.codec.ring sel).bits = [] ∧ (t.codec.ring sel).wrap = 0 ∧ (t.codec.ring sel).cursor = 0 ∧
    (t.codec.ring sel).wrapValue = if sel = .clock then some false else none) ∧
  t.codec.weakEnabled = true ∧ t.codec.initialPhase = false ∧ t.codec.bitCursor = 0 ∧
  t.codec.dataRanges = [] ∧ t.codec.dataRangesFiltered = [] ∧
  t.pll.defaultPeriod = F64.div F64.one rate ∧ t.pll.period = t.pll.defaultPeriod ∧
  t.pll.maxAdjust = 0x3FC3333333333333#64 ∧ t.pll.kp = 0x3FA999999999999A#64 ∧
  t.pll.densityFactor = density ∧ t.pll.tooFast = 0 ∧ t.pll.tooSlow = 0 ∧ t.pll.bitsOut = 0 ∧
  t.status = 0 ∧
  (∀ a, t.args.get a = none) ∧ (∀ b, t.inBuf b = none) ∧
  (∀ y, t.results.get y = none) ∧ (∀ o, t.results.out o = none)

/-- A ring that can be read at every index (20_memory.md R74, R75). -/
def Readable (r : Ring) : Prop := r.wrap ≠ 0 ∨ r.wrapValue ≠ none

/-- The codec's track bits can be read at every index: `BITS` has bits, and `WEAK` can be read if it is. -/
def TrackReadable (c : Codec) : Prop := c.bits.wrap ≠ 0 ∧ (c.weakEnabled = true → Readable c.weak)

/-- The read at `p` substitutes a drawn bit (42_codec_access.md R170). -/
def drawsAt (c : Codec) (p : Nat) : Bool :=
  c.weakEnabled && (match c.weak.get p with | .ok b => b | .error _ => false)

/-- The aligned start of a decoded read at `o` (42_codec_access.md R174). -/
def nudged (c : Codec) (o : Nat) : Nat :=
  match c.clock.get o, c.clock.get (o + 1) with
  | .ok false, .ok true => o + 1
  | _, _ => o

/-- `new` is `old` after the bits `e` are written in index order from `off`: the last write to a folded index stands, every other stored bit and field is kept (20_memory.md R76, 42_codec_access.md R185). -/
def StoredInOrder (old new : Ring) (off : Nat) (e : List Bit) : Prop :=
  new.wrap = old.wrap ∧ new.wrapValue = old.wrapValue ∧ new.cursor = old.cursor ∧
  new.bits.length = old.bits.length ∧
  (∀ j k, k < e.length → (off + k) % old.wrap = j →
    (∀ k', k < k' → k' < e.length → (off + k') % old.wrap ≠ j) → new.stored j = e.getD k false) ∧
  (∀ j, (∀ k, k < e.length → (off + k) % old.wrap ≠ j) → new.stored j = old.stored j)

/-- The commands of the codec unit, register reads apart (00_scope.md R3). -/
def codecCommand : Instr → Bool
  | .pllConfig => false
  | .pllReset => false
  | .pllDecode _ _ => false
  | .revNormalize => false
  | .revAlignPair => false
  | .revDecodeDirect => false
  | .regRead => false
  | _ => true

/-- The commands of the PLL unit (00_scope.md R3). -/
def pllCommand : Instr → Bool
  | .pllConfig => true
  | .pllReset => true
  | .pllDecode _ _ => true
  | .revNormalize => true
  | .revAlignPair => true
  | .revDecodeDirect => true
  | _ => false

/-- The reads that write no state of the codec (20_memory.md R85). -/
def pureRead : Instr → Bool
  | .ringLen _ => true
  | .ringGet _ => true
  | .ringIter _ => true
  | .ringIterRev _ => true
  | .readRawU8 => true
  | .readRawU32 => true
  | .readRawBuf => true
  | .readDecodedU8 => true
  | .readDecodedU32 => true
  | .getClockMap => true
  | .getErrorMap => true
  | .getWeakData => true
  | .isData _ => true
  | .encodeMfm _ => true
  | .findMarker _ => true
  | .findSync => true
  | .regRead => true
  | _ => false

/-- The commands that test for an empty codec (42_codec_access.md R165). -/
def testsEmptyCodec : Instr → Bool
  | .readRawU8 => true
  | .readRawU32 => true
  | .readRawBuf => true
  | .readDecodedU8 => true
  | .readDecodedU32 => true
  | .streamRead => true
  | .seek _ => true
  | .writeRawBuf => true
  | .writeEncodedBuf _ => true
  | _ => false

/-- The column "raised by" of 60_exceptions.md R311, for the fault codes a command's own rule raises. -/
def mayRaise (i : Instr) : FaultCode → Bool
  | .weakMaskLength => match i with | .codecNew _ true => true | _ => false
  | .clockMapLength => match i with | .setClockMap => true | _ => false
  | .ringEmpty =>
    match i with
    | .ringGet _ => true
    | .ringSet _ => true
    | .ringIter _ => true
    | .readRawU8 => true
    | .readRawU32 => true
    | .readRawBuf => true
    | .readDecodedU8 => true
    | .readDecodedU32 => true
    | .streamRead => true
    | _ => false
  | .illegalCommand => match i with | .regRead => true | _ => false
  | .indexOverflow =>
    match i with
    | .seek _ => false
    | i => testsEmptyCodec i
  | .invalidFluxDelta =>
    match i with
    | .pllDecode _ _ => true
    | .revNormalize => true
    | .revAlignPair => true
    | .revDecodeDirect => true
    | _ => false
  | .badOperand =>
    match i with
    | .pllConfig => true
    | .pllDecode _ _ => true
    | .revDecodeDirect => true
    | _ => false
  | .badRange => match i with | .setDataRanges => true | _ => false

/-- The commands that may end `NONE` (60_exceptions.md R311). -/
def mayEndNone : Instr → Bool
  | .findMarker _ => true
  | .findSync => true
  | _ => false

/-- The commands that may end `INVALID_INPUT` (60_exceptions.md R311). -/
def mayEndInvalid : Instr → Bool
  | .ringRead _ => true
  | i => testsEmptyCodec i

/-- Position `k` lies in a run of more than `thr` zero bits of the first revolution (43_codec_analysis.md R225). -/
def InLongZeroRun (r : Ring) (thr k : Nat) : Prop :=
  ∃ a b, a ≤ k ∧ k < b ∧ b ≤ r.wrap ∧ thr < b - a ∧ ∀ j, a ≤ j → j < b → r.stored j = false

/-- The 64 stored bits from `o` are the marker `mb` under the mask (43_codec_analysis.md R215). -/
def MarkerAt (r : Ring) (mb mask : U64) (o : Nat) : Prop :=
  u64 (packMsb ((List.range 64).map (fun k => r.stored (o + k)))) &&& mask = mb

/-- The 32 stored bits from `o` are the sync pattern, 32 alternating bits from a 1 (43_codec_analysis.md R220). -/
def SyncAt (r : Ring) (o : Nat) : Prop := ∀ k, k < 32 → r.stored (o + k) = (k % 2 == 0)

/-- The virtual clock of a decode at `r` after `k` ticks of one delta: `k` additions of the period (44_pll.md R260 step b). -/
def clockAt (r : PllRun) : Nat → F64
  | 0 => r.time
  | k + 1 => F64.add (clockAt r k) r.period

/-- The first `k` tests of step b at `r` go on, and every one of their ticks moves the clock (44_pll.md R260, R261). -/
def Ticks (r : PllRun) (nxt : F64) (k : Nat) : Prop :=
  ∀ j, j < k → F64.lt (F64.add (clockAt r j) r.acc) nxt = true ∧
    F64.eq (clockAt r (j + 1)) (clockAt r j) = false

/-- Step b ends with `t` ticks: the clock has reached the transition at `nxt`. -/
def ClockReaches (r : PllRun) (nxt : F64) (t : Nat) : Prop :=
  Ticks r nxt t ∧ F64.lt (F64.add (clockAt r t) r.acc) nxt = false

/-- Step b cannot go on after `t` ticks: the transition is not reached and one more tick would not move the clock. -/
def ClockSticks (r : PllRun) (nxt : F64) (t : Nat) : Prop :=
  Ticks r nxt t ∧ F64.lt (F64.add (clockAt r t) r.acc) nxt = true ∧
    F64.eq (clockAt r (t + 1)) (clockAt r t) = true

/-- `r'` is the decode at `r` after steps c to h of a delta that took `t` ticks to the transition at `nxt`, with the phase error `err` (44_pll.md R260, R262, R265). -/
def AfterDelta (lo hi kp : F64) (prof : Config.Profile) (r : PllRun) (nxt : F64) (t : Nat) (err : F64)
    (r' : PllRun) : Prop :=
  r'.time = F64.add (clockAt r t) r.acc ∧
  (if t < prof.minTicks then
      r'.out = r.out ∧ r'.tooFast = r.tooFast + 1 ∧ r'.tooSlow = r.tooSlow
    else if t < prof.maxTicks then
      r'.out = r.out ++ (List.replicate (t - 1) false ++ [true]) ∧
        r'.tooFast = r.tooFast ∧ r'.tooSlow = r.tooSlow
    else r'.out = r.out ∧ r'.tooFast = r.tooFast ∧ r'.tooSlow = r.tooSlow + 1) ∧
  err = F64.sub nxt (F64.add r.last (F64.mul (F64.ofNat t) r.period)) ∧
  r'.period = F64.min (F64.max (F64.add r.period (F64.mul kp err)) lo) hi ∧
  r'.acc = (if F64.lt r'.period (F64.abs (F64.add 0 err)) = true then F64.fmod (F64.add 0 err) r'.period
    else F64.add 0 err) ∧
  r'.last = nxt

/-- `r` is `num / den` units of 2^-1074, rounded once to binary64, to nearest and ties to even (00_scope.md R14): finite below the largest finite value and half its last place, and then no finite value is nearer, and `r` ends in a 0 bit if another is as near; else the infinity of the exact sign. -/
def RoundedFrom (r : F64) (num den : Int) : Prop :=
  (F64.finite r = true ↔ |num| < (2 ^ 54 - 1) * 2 ^ 2044 * |den|) ∧
  (F64.finite r = true → ∀ c : F64, F64.finite c = true →
    |F64.val r * den - num| ≤ |F64.val c * den - num| ∧
    (F64.val c ≠ F64.val r → |F64.val c * den - num| = |F64.val r * den - num| → r.getLsbD 0 = false)) ∧
  (F64.finite r = false → r = F64.inf (decide (num * den < 0)))

/-- `out` is a run of emitted groups, each of `t - 1` zeros and a one with `mn ≤ t < mx`, and `total` is the sum of the `t` (44_pll.md R263). -/
inductive EmittedGroups (mn mx : Nat) : List Bit → Nat → Prop where
  | nil : EmittedGroups mn mx [] 0
  | snoc {out : List Bit} {total t : Nat} (h : EmittedGroups mn mx out total) (hlo : mn ≤ t) (hhi : t < mx) :
      EmittedGroups mn mx (out ++ (List.replicate (t - 1) false ++ [true])) (total + t)

end Sys2Proof.Claims

open Sys2Proof Sys2Proof.Machine Sys2Proof.Claims

/-! ### Encoding -/

/-- The decoder reads every well-formed command's word as that command (30_encoding.md R101, R102, R111). -/
def Obligations.DecodeOfEncode : Prop :=
  ∀ i : Instr, i.wellFormed = true → decode (encode i) = .ok i

/-- A word the decoder reads as a command is that command's word, bit for bit (30_encoding.md R101 to R104). -/
def Obligations.EncodeOfDecode : Prop :=
  ∀ (w : CmdWord) (i : Instr), decode w = .ok i → encode i = w

/-- 30_encoding.md R102: on a running block a word that passes the four checks runs its command, and every other word raises `ILLEGAL_COMMAND`. -/
def Obligations.WordRunsItsCommandOrIsIllegal : Prop :=
  ∀ (w : CmdWord) (s : State), s.running →
    if (fieldsOf w).wellFormed = true then ∃ i, encode i = w ∧ issue w s = exec i s
    else issue w s = faultWith s .illegalCommand

/-- 30_encoding.md R112: the six example words decode to the commands the spec names, `FIND_MARKER` with and without a limit among them, and the two illegal words are rejected, one for its selector and one for its reserved field. -/
def Obligations.EncodingExamples : Prop :=
  decode 0x13100000#32 = .ok (.ringGet .clock) ∧
  decode 0x41010000#32 = .ok (.findMarker true) ∧
  decode 0x41000000#32 = .ok (.findMarker false) ∧
  decode 0x2A200000#32 = .ok (.seek .fromEnd) ∧
  decode 0x40100000#32 = .ok (.encodeMfm .addressMark) ∧
  decode 0x20030000#32 = .ok (.codecNew true true) ∧
  decode 0x13400000#32 = .error .illegalSelector ∧
  decode 0x24000001#32 = .error .reservedNotZero

/-! ### Steps, host events, reset -/

/-- A step whose next host event is a command word runs the command it decodes to, on the state with that event taken; a word that decodes to none is the illegal word's step (30_encoding.md R102, 20_memory.md R88, R90). -/
def Obligations.StepRunsDecodedCommand : Prop :=
  ∀ (s : State) (w : CmdWord) (rest : List HostEvent), s.pending = .command w :: rest →
    (∀ i, decode w = .ok i → step s = exec i { s with pending := rest }) ∧
    (∀ e, decode w = .error e → step s = .next { s with pending := rest }.illegalWord)

/-- What the host's own accesses do (10_state.md R46 to R49), and that an idle block keeps all state (60_exceptions.md R329). The sequence of host events is the model's (log 1). -/
def Obligations.HostAccessSteps : Prop :=
  (∀ s : State, s.pending = [] → step s = .next s) ∧
  (∀ (s : State) a v rest, s.pending = .writeArg a v :: rest →
    ∃ args : Args, step s = .next { s with pending := rest, args := args } ∧
      args.get a = some v ∧ ∀ b, b ≠ a → args.get b = s.args.get b) ∧
  (∀ (s : State) v rest, s.pending = .writeBuf .ib0 v :: rest →
    step s = .next { s with pending := rest, ib0 := some v }) ∧
  (∀ (s : State) v rest, s.pending = .writeBuf .ib1 v :: rest →
    step s = .next { s with pending := rest, ib1 := some v }) ∧
  (∀ (s : State) y rest, s.pending = .readResult y :: rest →
    step s = if s.results.get y = none then .refused (.resultUndefined y)
      else .next { s with pending := rest }) ∧
  (∀ (s : State) o rest, s.pending = .readOut o :: rest →
    step s = if s.results.out o = none then .refused (.outputUndefined o)
      else .next { s with pending := rest })

/-- 70_reset_and_hazards.md R340: the reset event gives every element its reset value, whatever the state; and no other event clears `FAULTED`. -/
def Obligations.ResetEventSetsEveryElement : Prop :=
  (∀ (s : State) rest, s.pending = .reset :: rest →
    ∃ t, step s = .next t ∧ AtReset Config.pllDefaultRate Config.pllDensityFactor t) ∧
  (∀ (s t : State) e rest, s.pending = e :: rest → e ≠ .reset → s.halted → step s = .next t → t.halted)

/-- 10_state.md R57 to R60: the values the state after reset holds. -/
def Obligations.ResetStateValues : Prop :=
  AtReset Config.pllDefaultRate Config.pllDensityFactor State.reset

/-- The codec and STATUS invariants hold after reset (10_state.md R31, R34, R50). -/
def Obligations.ResetStateIsWellFormed : Prop := State.reset.wf = true

/-- Every step, of every host event, keeps the codec and STATUS invariants (10_state.md R31, R34, R39, R50). -/
def Obligations.StepKeepsWellFormed : Prop :=
  ∀ s t : State, s.wf = true → step s = .next t → t.wf = true

/-- The PLL is within its clamp after reset, for every default rate whose period is a valid clamp centre, and it is fresh: the period is the default period and the three counters are 0 (10_state.md R42, 44_pll.md R253). -/
def Obligations.PllWithinClampAtReset : Prop :=
  ∀ rate density : F64, validCentre (F64.div F64.one rate) Config.pllMaxAdjust = true →
    (State.resetWith rate density).pll.ok = true ∧
    (State.resetWith rate density).pll.period = (State.resetWith rate density).pll.defaultPeriod ∧
    (State.resetWith rate density).pll.tooFast = 0 ∧ (State.resetWith rate density).pll.tooSlow = 0 ∧
    (State.resetWith rate density).pll.bitsOut = 0

/-- Every step but the reset event, and so every command, keeps the period within its clamp and the clamp centre valid (10_state.md R42, 44_pll.md R267); what the reset event leaves is `PllWithinClampAtReset`, because the default rate is OPEN. -/
def Obligations.StepKeepsPllWithinClamp : Prop :=
  (∀ (i : Instr) (s t : State), s.pll.ok = true → exec i s = .next t → t.pll.ok = true) ∧
  (∀ s t : State, s.pll.ok = true → (∀ rest, s.pending ≠ .reset :: rest) → step s = .next t →
    t.pll.ok = true)

/-! ### Faults and outcomes -/

/-- 60_exceptions.md R317: a halted block does nothing with any word but `REG_READ`'s, which still reads a register, and stays halted until reset. -/
def Obligations.HaltedBlockOnlyReadsRegisters : Prop :=
  ∀ s : State, s.halted →
    (∀ w, w ≠ 0x70000000#32 → issue w s = .next s) ∧
    (∀ num v, s.args.a0 = some num → regValue s num.toNat = some v →
      issue 0x70000000#32 s = .next { s with results := { s.results with y0 := some v } }) ∧
    (∀ num, s.args.a0 = some num → regValue s num.toNat = none → issue 0x70000000#32 s = .next s) ∧
    (∀ t e rest, s.pending = e :: rest → e ≠ .reset → step s = .next t → t.halted)

/-- On a running block a command is refused exactly when an operand it reads was not written, a buffer counting as written with the command's element type only (10_state.md R49, 30_encoding.md R108; the element type is the model's choice, log 5); a halted block refuses none, and that this takes in a halted `REG_READ` whose `A0` holds no value, of which 60_exceptions.md R318 says nothing, is the model's choice (log 10). -/
def Obligations.UnwrittenOperandRefusesTheRun : Prop :=
  ∀ (i : Instr) (s : State),
    (s.running → ((∃ r, exec i s = .refused r) ↔ s.ready i = false)) ∧
    (s.halted → ∃ t, exec i s = .next t)

/-- 60_exceptions.md R314 and R316: a command that faults leaves the state before it but for STATUS, which takes the code, `FAULTED` and `fault_code`, and the results, which become undefined. -/
def Obligations.FaultIsPrecise : Prop :=
  ∀ (i : Instr) (s t : State), s.running → statusWf s.status = true → exec i s = .next t → t.halted →
    ∃ c : FaultCode,
      t = { s with status := 0#8 ++ c.byte ++ 0#7 ++ 1#1 ++ c.byte, results := {} }

/-- A command raises only the fault codes, and ends `NONE` or `INVALID_INPUT` only where, the table of 60_exceptions.md R311 says. -/
def Obligations.OutcomesRaisedAsListed : Prop :=
  ∀ (i : Instr) (s t : State), s.running → exec i s = .next t →
    (∀ c : FaultCode, t.halted → statusCode t.status = c.byte → mayRaise i c = true) ∧
    (statusCode t.status = codeNone → mayEndNone i = true) ∧
    (statusCode t.status = codeInvalidInput → mayEndInvalid i = true)

/-- 60_exceptions.md R312: a command that does not fault writes its code and leaves `FAULTED` and `fault_code`; with `NONE` and `INVALID_INPUT` it writes nothing else, and its results become undefined. -/
def Obligations.NonFaultCompletion : Prop :=
  ∀ (i : Instr) (s t : State), s.running → exec i s = .next t → t.running →
    plainCode (statusCode t.status) = true ∧
    t.status = setStatusCode s.status (statusCode t.status) ∧
    statusFaulted t.status = statusFaulted s.status ∧
    statusFaultCode t.status = statusFaultCode s.status ∧
    (statusCode t.status ≠ codeOk → t = { s with status := t.status, results := {} })

/-- No command writes an argument register, an input buffer or the host's sequence (10_state.md R46, R48). -/
def Obligations.CommandsKeepTheirInputs : Prop :=
  ∀ (i : Instr) (s t : State), exec i s = .next t →
    t.args = s.args ∧ t.ib0 = s.ib0 ∧ t.ib1 = s.ib1 ∧ t.pending = s.pending

/-- The two units share no state (00_scope.md R3): a codec command neither reads nor writes the PLL unit, a PLL or revolution command neither reads nor writes the codec unit or takes a draw. -/
def Obligations.UnitsShareNoState : Prop :=
  (∀ (i : Instr) (s t : State) (u : Pll), codecCommand i = true → exec i s = .next t →
    exec i { s with pll := u } = .next { t with pll := u }) ∧
  (∀ (i : Instr) (s t : State) (c : Codec) (d : Nat), pllCommand i = true → exec i s = .next t →
    exec i { s with codec := c, draws := d } = .next { t with codec := c, draws := d })

/-- 20_memory.md R85: a read changes nothing in either unit; `STREAM_READ` writes `bit_cursor` and `RING_READ` its ring's cursor, and neither anything else of the codec. -/
def Obligations.ReadsChangeNoRing : Prop :=
  (∀ (i : Instr) (s t : State), pureRead i = true → exec i s = .next t →
    t.codec = s.codec ∧ t.pll = s.pll) ∧
  (∀ s t : State, exec .streamRead s = .next t →
    ∃ o, t.codec = { s.codec with bitCursor := o }) ∧
  (∀ (sel : RingSel) (s t : State), exec (.ringRead sel) s = .next t →
    ∃ c, t.codec = s.codec.setRing sel { s.codec.ring sel with cursor := c })

/-- `PLL_DECODE` is a function of its operands and the PLL registers (44_pll.md R268): two running blocks that agree on them end alike. -/
def Obligations.PllDecodeDependsOnItsOperandsOnly : Prop :=
  ∀ (e : PllEnc) (h : Bool) (s s' t : State), s.running → s'.running →
    s.ib0 = s'.ib0 → s.args.a0 = s'.args.a0 → s.pll = s'.pll → exec (.pllDecode e h) s = .next t →
    ∃ t', exec (.pllDecode e h) s' = .next t' ∧ t'.results = t.results ∧ t'.pll = t.pll ∧
      statusCode t'.status = statusCode t.status ∧ t'.codec = s'.codec

/-! ### Bit rings -/

/-- 20_memory.md R74 and R78: a read below the wrap gives the stored bit; from the wrap on it gives the wrap value, or else folds; with no bit and no wrap value it raises `RING_EMPTY`. -/
def Obligations.RingReadRule : Prop :=
  ∀ (r : Ring) (i : Nat),
    (i < r.wrap → r.get i = .ok (r.bits.getD i false)) ∧
    (∀ v, r.wrap ≤ i → r.wrapValue = some v → r.get i = .ok v) ∧
    (r.wrap ≤ i → r.wrapValue = none → r.wrap = 0 → r.get i = .error .ringEmpty) ∧
    (r.wrap ≤ i → r.wrapValue = none → r.wrap ≠ 0 →
      r.get i = .ok (r.bits.getD (i % r.wrap) false) ∧ r.get i = r.get (i % r.wrap))

/-- 41_bitring.md R130, R134, R136: `RING_LEN` gives the wrap; `RING_SET_WRAP` clamps the wrap to the storage and `RING_SET_WRAP_VALUE` sets or clears the wrap value, of the selected ring and nothing else. A length goes out as the unsigned 64-bit count of 00_scope.md R9 (log 6). -/
def Obligations.RingLengthAndWrapCommands : Prop :=
  ∀ (sel : RingSel) (s : State), s.running →
    EncodedAs (.ringLen sel) 0x10 sel.code 0 ∧ EncodedAs (.ringSetWrap sel) 0x11 sel.code 0 ∧
    EncodedAs (.ringSetWrapValue sel false) 0x12 sel.code 0 ∧
    EncodedAs (.ringSetWrapValue sel true) 0x12 sel.code 1 ∧
    exec (.ringLen sel) s = okWith s { y0 := some (u64 (s.codec.ring sel).wrap) } ∧
    (∀ len : U64, s.args.a0 = some len →
      exec (.ringSetWrap sel) s = okWith
        (s.withRing sel { s.codec.ring sel with wrap := min len.toNat (s.codec.ring sel).bits.length }) {}) ∧
    (∀ v : U64, s.args.a0 = some v →
      exec (.ringSetWrapValue sel true) s = okWith
        (s.withRing sel { s.codec.ring sel with wrapValue := some (v.getLsbD 0) }) {}) ∧
    exec (.ringSetWrapValue sel false) s = okWith
      (s.withRing sel { s.codec.ring sel with wrapValue := none }) {}

/-- 41_bitring.md R137: `RING_GET` gives the bit of the read rule in `Y0`, or raises `RING_EMPTY`. -/
def Obligations.RingGetResult : Prop :=
  ∀ (sel : RingSel) (s : State) (i : U64), s.running → s.args.a0 = some i →
    EncodedAs (.ringGet sel) 0x13 sel.code 0 ∧
    exec (.ringGet sel) s =
      if i.toNat < (s.codec.ring sel).wrap then
        okWith s { y0 := some (bitWord ((s.codec.ring sel).bits.getD i.toNat false)) }
      else match (s.codec.ring sel).wrapValue with
        | some v => okWith s { y0 := some (bitWord v) }
        | none =>
          if (s.codec.ring sel).wrap = 0 then faultWith s .ringEmpty
          else okWith s { y0 := some (bitWord ((s.codec.ring sel).bits.getD
            (i.toNat % (s.codec.ring sel).wrap) false)) }

/-- 41_bitring.md R138 with 20_memory.md R76: `RING_SET` writes the one stored bit at the folded index, whatever the wrap value, and raises `RING_EMPTY` on a ring with no bits. -/
def Obligations.RingSetResult : Prop :=
  ∀ (sel : RingSel) (s : State) (i b : U64), s.running → s.codec.wf = true →
    s.args.a0 = some i → s.args.a1 = some b →
    EncodedAs (.ringSet sel) 0x14 sel.code 0 ∧
    ((s.codec.ring sel).wrap = 0 → exec (.ringSet sel) s = faultWith s .ringEmpty) ∧
    ((s.codec.ring sel).wrap ≠ 0 → ∃ bits : List Bit,
      exec (.ringSet sel) s = okWith (s.withRing sel { s.codec.ring sel with bits := bits }) {} ∧
      bits.length = (s.codec.ring sel).bits.length ∧
      ∀ j, bits.getD j false =
        if j = i.toNat % (s.codec.ring sel).wrap then b.getLsbD 0
        else (s.codec.ring sel).bits.getD j false)

/-- 41_bitring.md R139: `RING_ITER` gives the reads of the first `n` indices and moves no cursor; an unreadable ring raises `RING_EMPTY` unless `n = 0`. -/
def Obligations.RingIterResult : Prop :=
  ∀ (sel : RingSel) (s : State) (n : U64), s.running → s.args.a0 = some n →
    EncodedAs (.ringIter sel) 0x15 sel.code 0 ∧
    (n = 0 ∨ Readable (s.codec.ring sel) → ∃ bs : List Bit,
      exec (.ringIter sel) s = okWith s { ob0 := some (.bits bs) } ∧ bs.length = n.toNat ∧
      ∀ k, k < n.toNat → (s.codec.ring sel).get k = .ok (bs.getD k false)) ∧
    (n ≠ 0 → (s.codec.ring sel).wrap = 0 → (s.codec.ring sel).wrapValue = none →
      exec (.ringIter sel) s = faultWith s .ringEmpty)

/-- 41_bitring.md R141 and R142: `RING_ITER_REV` gives the stored bits below the wrap, as many as `RING_LEN` says. -/
def Obligations.RingIterRevResult : Prop :=
  ∀ (sel : RingSel) (s : State), s.running → s.codec.wf = true →
    EncodedAs (.ringIterRev sel) 0x16 sel.code 0 ∧
    exec (.ringIterRev sel) s = okWith s
      { ob0 := some (.bits ((s.codec.ring sel).bits.take (s.codec.ring sel).wrap)) } ∧
    exec (.ringLen sel) s = okWith s
      { y0 := some (u64 ((s.codec.ring sel).bits.take (s.codec.ring sel).wrap).length) }

/-- 41_bitring.md R140: bit `8m + k` of the bytes `RING_READ` gives is the ring's bit at the cursor moved on that many places around the revolution; a cursor left beyond the wrap reads once through the wrap rule and then starts at 0. -/
def Obligations.RingReadResult : Prop :=
  ∀ (sel : RingSel) (s : State) (n : U64) (ring : Ring), s.running → s.args.a0 = some n →
    ring = s.codec.ring sel →
    EncodedAs (.ringRead sel) 0x17 sel.code 0 ∧
    (ring.wrap = 0 → exec (.ringRead sel) s = .next (s.complete codeInvalidInput {})) ∧
    (ring.wrap ≠ 0 → ∃ out : List Byte,
      exec (.ringRead sel) s = okWith
        (s.withRing sel { ring with cursor :=
          if n = 0 then ring.cursor
          else if ring.cursor < ring.wrap then (ring.cursor + 8 * n.toNat) % ring.wrap
          else (8 * n.toNat - 1) % ring.wrap })
        { ob0 := some (.bytes out) } ∧
      out.length = n.toNat ∧
      ∀ m k, m < n.toNat → k < 8 →
        ring.get (if ring.cursor < ring.wrap then (ring.cursor + (8 * m + k)) % ring.wrap
          else if 8 * m + k = 0 then ring.cursor else (8 * m + k - 1) % ring.wrap)
          = .ok ((out.getD m 0).getMsbD k))

/-! ### Codec construction and configuration -/

/-- 42_codec_access.md R160: the codec that `CODEC_NEW` constructs, for every choice of the optional bit count `cnt` and weak mask `m`; the mask is checked against the input's length before truncation. -/
def Obligations.CodecNewResult : Prop :=
  ∀ (s : State) (x : List Bit) (cnt : Option U64) (m : Option (List Bit)) (n : Nat) (q : Bit),
    s.running → s.ib0 = some (.bits x) →
    (∀ v, cnt = some v → s.args.a0 = some v) → (∀ l, m = some l → s.ib1 = some (.bits l)) →
    n = (match cnt with | some v => min v.toNat x.length | none => x.length) →
    q = (match syncScan (Ring.fromBits (x.take n)) 0 with | some o => o % 2 == 1 | none => false) →
    EncodedAs (.codecNew cnt.isSome m.isSome) 0x20 0 (flagCode cnt.isSome m.isSome) ∧
    ((∃ l, m = some l ∧ l.length ≠ x.length) →
      exec (.codecNew cnt.isSome m.isSome) s = faultWith s .weakMaskLength) ∧
    ((∀ l, m = some l → l.length = x.length) →
      ∃ clock : List Bit,
        exec (.codecNew cnt.isSome m.isSome) s = okWith
          { s with codec :=
            { bits := ⟨x.take n, n, none, 0⟩
              clock := ⟨clock, n, some false, 0⟩
              error := ⟨zeroRunMask ⟨x.take n, n, none, 0⟩ 3, n, none, 0⟩
              weak := ⟨match m with
                | some l => l.take n
                | none => zeroRunMask ⟨x.take n, n, none, 0⟩ 6, n, none, 0⟩
              weakEnabled := true, initialPhase := q, bitCursor := 0
              dataRanges := [], dataRangesFiltered := [] } } {} ∧
        clock.length = n ∧ ∀ i, i < n → clock.getD i false = ((i % 2 == 1) == q))

/-- `CODEC_NEW` of no bits, or of a bit count 0, gives the codec unit its reset state and leaves the rest (70_reset_and_hazards.md R341, 42_codec_access.md R160). -/
def Obligations.EmptyCodecNewIsReset : Prop :=
  ∀ s : State, s.running →
    (s.ib0 = some (.bits []) →
      exec (.codecNew false false) s = okWith { s with codec := State.reset.codec } {}) ∧
    (∀ x : List Bit, s.ib0 = some (.bits x) → s.args.a0 = some 0 →
      exec (.codecNew true false) s = okWith { s with codec := State.reset.codec } {})

/-- 42_codec_access.md R162, R163, R164: `SET_CLOCK_MAP` replaces the clock ring's bits, of the codec's length only; `SET_TRACK_LEN` sets and clamps all four wraps; `SET_WEAK_ENABLED` takes bit 0 of `A0`. -/
def Obligations.CodecConfigurationCommands : Prop :=
  ∀ s : State, s.running →
    EncodedAs .setClockMap 0x21 0 0 ∧ EncodedAs .setTrackLen 0x22 0 0 ∧ EncodedAs .setWeakEnabled 0x23 0 0 ∧
    (∀ c : List Bit, s.ib0 = some (.bits c) →
      exec .setClockMap s =
        if c.length = s.codec.bits.bits.length then
          okWith { s with codec := { s.codec with clock := { s.codec.clock with bits := c } } } {}
        else faultWith s .clockMapLength) ∧
    (∀ len : U64, s.args.a0 = some len →
      exec .setTrackLen s = okWith { s with codec := { s.codec with
        bits := { s.codec.bits with wrap := min len.toNat s.codec.bits.bits.length }
        clock := { s.codec.clock with wrap := min len.toNat s.codec.clock.bits.length }
        error := { s.codec.error with wrap := min len.toNat s.codec.error.bits.length }
        weak := { s.codec.weak with wrap := min len.toNat s.codec.weak.bits.length } } } {}) ∧
    (∀ v : U64, s.args.a0 = some v →
      exec .setWeakEnabled s =
        okWith { s with codec := { s.codec with weakEnabled := v.getLsbD 0 } } {})

/-! ### Codec reads -/

/-- 42_codec_access.md R165: the nine access commands on an empty codec write nothing and end `INVALID_INPUT`. -/
def Obligations.EmptyCodecEndsInvalidInput : Prop :=
  ∀ (i : Instr) (s : State), testsEmptyCodec i = true → s.running → s.ready i = true →
    s.codec.bits.wrap = 0 → exec i s = .next (s.complete codeInvalidInput {})

/-- 42_codec_access.md R170: a read of the codec gives a fresh draw at each position the weak mask marks while substitution is enabled, each call its own, and the stored bit elsewhere. -/
def Obligations.WeakPositionsDrawAfresh : Prop :=
  ∀ (c : Codec) (ps : List Nat) (d : Nat), TrackReadable c →
    ∃ bs : List Bit,
      c.readBits ps d = .ok (bs, d + (ps.filter (drawsAt c)).length) ∧ bs.length = ps.length ∧
      ∀ k, k < ps.length →
        if drawsAt c (ps.getD k 0) = true then
          bs.getD k false = Config.weakDraw (d + ((ps.take k).filter (drawsAt c)).length)
        else c.bits.get (ps.getD k 0) = .ok (bs.getD k false)

/-- 42_codec_access.md R171, R172, R173: a raw read packs the reads of consecutive positions, first bit most significant; with substitution disabled they are the stored bits and no draw is taken. -/
def Obligations.RawReadResults : Prop :=
  ∀ (s : State) (off : U64), s.running → s.args.a0 = some off → TrackReadable s.codec →
    EncodedAs .readRawU8 0x24 0 0 ∧ EncodedAs .readRawU32 0x25 0 0 ∧ EncodedAs .readRawBuf 0x26 0 0 ∧
    (off.toNat + 7 < 2 ^ 64 → ∃ bs d,
      s.codec.readBits ((List.range 8).map (fun k => off.toNat + k)) s.draws = .ok (bs, d) ∧
      exec .readRawU8 s = okWith (s.withDraws d) { y0 := some (u64 (packMsb bs)) } ∧
      (s.codec.weakEnabled = false → d = s.draws ∧ bs.length = 8 ∧
        ∀ k, k < 8 → s.codec.bits.get (off.toNat + k) = .ok (bs.getD k false))) ∧
    (off.toNat + 31 < 2 ^ 64 → ∃ bs d,
      s.codec.readBits ((List.range 32).map (fun k => off.toNat + k)) s.draws = .ok (bs, d) ∧
      exec .readRawU32 s = okWith (s.withDraws d) { y0 := some (u64 (packMsb bs)) } ∧
      (s.codec.weakEnabled = false → d = s.draws ∧ bs.length = 32 ∧
        ∀ k, k < 32 → s.codec.bits.get (off.toNat + k) = .ok (bs.getD k false))) ∧
    (∀ n : U64, s.args.a1 = some n → off.toNat + 8 * n.toNat ≤ 2 ^ 64 → ∃ bs d out,
      s.codec.readBits ((List.range (8 * n.toNat)).map (fun k => off.toNat + k)) s.draws = .ok (bs, d) ∧
      exec .readRawBuf s = okWith (s.withDraws d) { ob0 := some (.bytes out) } ∧
      out.length = n.toNat ∧
      (∀ j k, j < n.toNat → k < 8 → (out.getD j 0).getMsbD k = bs.getD (8 * j + k) false) ∧
      (s.codec.weakEnabled = false → d = s.draws ∧
        ∀ k, k < 8 * n.toNat → s.codec.bits.get (off.toNat + k) = .ok (bs.getD k false)))

/-- The access commands raise `INDEX_OVERFLOW`, before any access, when an index would pass `2^64 - 1` (20_memory.md R72; 42_codec_access.md R171 to R173, R176, R177, R185, R186). -/
def Obligations.IndexPastTopRaisesOverflow : Prop :=
  ∀ (s : State) (off : U64), s.running → s.args.a0 = some off → s.codec.bits.wrap ≠ 0 →
    (2 ^ 64 ≤ off.toNat + 7 → exec .readRawU8 s = faultWith s .indexOverflow) ∧
    (2 ^ 64 ≤ off.toNat + 31 → exec .readRawU32 s = faultWith s .indexOverflow) ∧
    (∀ n : U64, s.args.a1 = some n → 2 ^ 64 < off.toNat + 8 * n.toNat →
      exec .readRawBuf s = faultWith s .indexOverflow) ∧
    (2 ^ 64 ≤ off.toNat + 16 → exec .readDecodedU8 s = faultWith s .indexOverflow) ∧
    (2 ^ 64 ≤ off.toNat + 64 → exec .readDecodedU32 s = faultWith s .indexOverflow) ∧
    (∀ b : List Byte, s.ib0 = some (.bytes b) →
      (2 ^ 64 < off.toNat + 8 * b.length → exec .writeRawBuf s = faultWith s .indexOverflow) ∧
      (∀ v, 2 ^ 64 < off.toNat + 16 * b.length →
        exec (.writeEncodedBuf v) s = faultWith s .indexOverflow))

/-- 42_codec_access.md R176 and R177 with R174 and R175: a decoded read starts at the nudged offset, which goes to `Y1`, and packs every second bit from the one after it; with substitution disabled they are the stored bits. -/
def Obligations.DecodedReadResults : Prop :=
  ∀ (s : State) (off : U64), s.running → s.args.a0 = some off → TrackReadable s.codec →
    Readable s.codec.clock →
    EncodedAs .readDecodedU8 0x27 0 0 ∧ EncodedAs .readDecodedU32 0x28 0 0 ∧
    (off.toNat + 16 < 2 ^ 64 → ∃ bs d,
      s.codec.readBits ((List.range 8).map (fun k => nudged s.codec off.toNat + 1 + 2 * k)) s.draws
        = .ok (bs, d) ∧
      exec .readDecodedU8 s = okWith (s.withDraws d)
        { y0 := some (u64 (packMsb bs)), y1 := some (u64 (nudged s.codec off.toNat)) } ∧
      (s.codec.weakEnabled = false → d = s.draws ∧ bs.length = 8 ∧ ∀ k, k < 8 →
        s.codec.bits.get (nudged s.codec off.toNat + 1 + 2 * k) = .ok (bs.getD k false))) ∧
    (off.toNat + 64 < 2 ^ 64 → ∃ bs d,
      s.codec.readBits ((List.range 32).map (fun k => nudged s.codec off.toNat + 1 + 2 * k)) s.draws
        = .ok (bs, d) ∧
      exec .readDecodedU32 s = okWith (s.withDraws d)
        { y0 := some (u64 (packMsb bs)), y1 := some (u64 (nudged s.codec off.toNat)) } ∧
      (s.codec.weakEnabled = false → d = s.draws ∧ bs.length = 32 ∧ ∀ k, k < 32 →
        s.codec.bits.get (nudged s.codec off.toNat + 1 + 2 * k) = .ok (bs.getD k false)))

/-- 42_codec_access.md R178: bytes encoded with the `Data` variant, loaded by construction, with the clock map at the even positions and substitution disabled or the weak mask zero, decode to themselves. -/
def Obligations.DecodeOfEncodedBytes : Prop :=
  ∀ (s : State) (b : List Byte) (prev : Bit) (m : Option (List Bit)) (we : Bit) (j : Nat),
    s.running → j < b.length → 16 * b.length < 2 ^ 64 →
    (∀ l, m = some l → l.length = 16 * b.length) →
    s.codec = { Codec.build (mfmEncode (bytesToBits b) prev .data) m with
      weakEnabled := we
      clock := { (Codec.build (mfmEncode (bytesToBits b) prev .data) m).clock with
        bits := (List.range (16 * b.length)).map (fun i => i % 2 == 0) } } →
    (we = false ∨ s.codec.weak.bits = List.replicate (16 * b.length) false) →
    s.args.a0 = some (u64 (16 * j)) →
    exec .readDecodedU8 s = okWith s
      { y0 := some ((b.getD j 0).setWidth 64), y1 := some (u64 (16 * j)) }

/-- 42_codec_access.md R180: byte `k` of a stream read starts at the nudged cursor `c k`, and moves the cursor to `(p + 16) mod W`; the bytes pack the data bits and the last cursor is stored. Where `INDEX_OVERFLOW` begins is the model's reading (log 11): a byte's largest index is taken to be `p + 15`, and the `bit_cursor + 16` among the examples of 20_memory.md R72 counts as none, because the cursor is stored modulo the wrap. -/
def Obligations.StreamReadResult : Prop :=
  ∀ (s : State) (n : U64) (c : Nat → Nat), s.running → s.args.a0 = some n →
    TrackReadable s.codec → Readable s.codec.clock →
    c 0 = s.codec.bitCursor.toNat →
    (∀ k, k < n.toNat → c (k + 1) = (nudged s.codec (c k) + 16) % s.codec.bits.wrap) →
    EncodedAs .streamRead 0x29 0 0 ∧
    ((∀ k, k < n.toNat → nudged s.codec (c k) + 15 < 2 ^ 64) → ∃ bs d out,
      s.codec.readBits ((List.range n.toNat).flatMap (fun k =>
        (List.range 8).map (fun l => nudged s.codec (c k) + 1 + 2 * l))) s.draws = .ok (bs, d) ∧
      exec .streamRead s = okWith
        ({ s with codec := { s.codec with bitCursor := u64 (c n.toNat) } }.withDraws d)
        { ob0 := some (.bytes out) } ∧
      out.length = n.toNat ∧
      ∀ m k, m < n.toNat → k < 8 → (out.getD m 0).getMsbD k = bs.getD (8 * m + k) false) ∧
    ((∃ k, k < n.toNat ∧ 2 ^ 64 ≤ nudged s.codec (c k) + 15) →
      exec .streamRead s = faultWith s .indexOverflow)

/-- 42_codec_access.md R182: `SEEK` moves the stream cursor to the origin plus `A0`, read as u64 from the start and as i64 else; an empty codec or a target outside `[0, 2^64)` ends `INVALID_INPUT`. -/
def Obligations.SeekResult : Prop :=
  ∀ (s : State) (v : U64), s.running → s.args.a0 = some v →
    EncodedAs (.seek .fromStart) 0x2A 0 0 ∧ EncodedAs (.seek .fromCurrent) 0x2A 1 0 ∧
    EncodedAs (.seek .fromEnd) 0x2A 2 0 ∧
    (s.codec.bits.wrap = 0 → ∀ w, exec (.seek w) s = .next (s.complete codeInvalidInput {})) ∧
    (s.codec.bits.wrap ≠ 0 →
      exec (.seek .fromStart) s =
        okWith { s with codec := { s.codec with bitCursor := v } } { y0 := some v } ∧
      ∀ (w : Whence) (base : Nat), (w = .fromCurrent ∧ base = s.codec.bitCursor.toNat ∨
          w = .fromEnd ∧ base = s.codec.bits.wrap) →
        (∀ new : Nat, (new : Int) = base + v.toInt → new < 2 ^ 64 →
          exec (.seek w) s =
            okWith { s with codec := { s.codec with bitCursor := u64 new } } { y0 := some (u64 new) }) ∧
        ((base : Int) + v.toInt < 0 ∨ (2 ^ 64 : Int) ≤ base + v.toInt →
          exec (.seek w) s = .next (s.complete codeInvalidInput {})))

/-- A read of a ring with no bits and no wrap value raises `RING_EMPTY` (20_memory.md R74; 42_codec_access.md R171; 60_exceptions.md R311): of `WEAK`, which a read asks while substitution is enabled, and of `CLOCK`, which a decoded read asks first. A `STREAM_READ` whose starts all lie low enough asks both; one with an index past the top raises `INDEX_OVERFLOW` first (60_exceptions.md R319). Where that begins, `p + 15` past `2^64 - 1`, and so which of the two is named within 16 of the top (`RING_EMPTY` at `bitCursor = 2^64 - 16`), is the model's reading (log 11). -/
def Obligations.UnreadableRingRaisesRingEmpty : Prop :=
  ∀ (s : State) (v : U64), s.running → s.args.a0 = some v → s.codec.bits.wrap ≠ 0 →
    (s.codec.weakEnabled = true → ¬ Readable s.codec.weak →
      (v.toNat + 7 < 2 ^ 64 → exec .readRawU8 s = faultWith s .ringEmpty) ∧
      (v.toNat + 31 < 2 ^ 64 → exec .readRawU32 s = faultWith s .ringEmpty) ∧
      (∀ n : U64, s.args.a1 = some n → n ≠ 0 → v.toNat + 8 * n.toNat ≤ 2 ^ 64 →
        exec .readRawBuf s = faultWith s .ringEmpty)) ∧
    (¬ Readable s.codec.clock ∨ s.codec.weakEnabled = true ∧ ¬ Readable s.codec.weak →
      (v.toNat + 16 < 2 ^ 64 → exec .readDecodedU8 s = faultWith s .ringEmpty) ∧
      (v.toNat + 64 < 2 ^ 64 → exec .readDecodedU32 s = faultWith s .ringEmpty)) ∧
    (¬ Readable s.codec.clock → v ≠ 0 →
      (s.codec.bitCursor.toNat + 15 < 2 ^ 64 → exec .streamRead s = faultWith s .ringEmpty) ∧
      (2 ^ 64 ≤ s.codec.bitCursor.toNat + 15 → exec .streamRead s = faultWith s .indexOverflow)) ∧
    (Readable s.codec.clock → s.codec.weakEnabled = true → ¬ Readable s.codec.weak → v ≠ 0 →
      ∀ c : Nat → Nat, c 0 = s.codec.bitCursor.toNat →
        (∀ k, k < v.toNat → c (k + 1) = (nudged s.codec (c k) + 16) % s.codec.bits.wrap) →
        ((∀ k, k < v.toNat → nudged s.codec (c k) + 15 < 2 ^ 64) →
          exec .streamRead s = faultWith s .ringEmpty) ∧
        ((∃ k, k < v.toNat ∧ 2 ^ 64 ≤ nudged s.codec (c k) + 15) →
          exec .streamRead s = faultWith s .indexOverflow))

/-! ### Codec writes, exports, ranges, registers -/

/-- 42_codec_access.md R185: `WRITE_RAW_BUF` stores the bytes' bits in order, most significant first, folding at the wrap, and updates no other part of the codec. -/
def Obligations.WriteRawResult : Prop :=
  ∀ (s : State) (off : U64) (b : List Byte), s.running → s.codec.wf = true → s.args.a0 = some off →
    s.ib0 = some (.bytes b) → s.codec.bits.wrap ≠ 0 → off.toNat + 8 * b.length ≤ 2 ^ 64 →
    EncodedAs .writeRawBuf 0x2B 0 0 ∧
    ∃ r : Ring,
      exec .writeRawBuf s = okWith { s with codec := { s.codec with bits := r } }
        { y0 := some (u64 b.length) } ∧
      StoredInOrder s.codec.bits r off.toNat (b.flatMap (fun x => (List.range 8).map (fun k => x.getMsbD k)))

/-- 42_codec_access.md R186: `WRITE_ENCODED_BUF` stores the encoding of the bytes, after the raw bit before the write as previous data bit, and updates no other part of the codec. -/
def Obligations.WriteEncodedResult : Prop :=
  ∀ (s : State) (v : Variant) (off : U64) (b : List Byte) (prev : Bit), s.running → s.codec.wf = true →
    s.args.a0 = some off → s.ib0 = some (.bytes b) → s.codec.bits.wrap ≠ 0 →
    off.toNat + 16 * b.length ≤ 2 ^ 64 →
    s.codec.bits.get (if off = 0 then s.codec.bits.wrap - 1 else off.toNat - 1) = .ok prev →
    EncodedAs (.writeEncodedBuf v) 0x2C v.code 0 ∧
    ∃ r : Ring,
      exec (.writeEncodedBuf v) s = okWith { s with codec := { s.codec with bits := r } }
        { y0 := some (u64 b.length) } ∧
      StoredInOrder s.codec.bits r off.toNat (mfmEncode (bytesToBits b) prev v)

/-- 42_codec_access.md R190, R191, R192: the exports give every stored bit of their ring; the weak mask goes out as bytes, most significant bit first, the last one padded with zeros. -/
def Obligations.MapExports : Prop :=
  ∀ s : State, s.running →
    EncodedAs .getClockMap 0x2D 0 0 ∧ EncodedAs .getErrorMap 0x2E 0 0 ∧ EncodedAs .getWeakData 0x2F 0 0 ∧
    exec .getClockMap s = okWith s { ob0 := some (.bits s.codec.clock.bits) } ∧
    exec .getErrorMap s = okWith s { ob0 := some (.bits s.codec.error.bits) } ∧
    ∃ out : List Byte,
      exec .getWeakData s = okWith s { ob0 := some (.bytes out) } ∧
      out.length = (s.codec.weak.bits.length + 7) / 8 ∧
      ∀ j k, j < out.length → k < 8 →
        (out.getD j 0).getMsbD k = s.codec.weak.bits.getD (8 * j + k) false

/-- 42_codec_access.md R194 and R196: `SET_DATA_RANGES` installs the ranges and, apart, those that end at or before the wrap, unless one starts after its end; `IS_DATA` asks the list its selector names whether a half-open range holds the index. -/
def Obligations.DataRangeCommands : Prop :=
  (∀ (s : State) (rs : List (U64 × U64)), s.running → s.ib0 = some (.ranges rs) →
    EncodedAs .setDataRanges 0x30 0 0 ∧
    ((∃ r ∈ rs, r.2.toNat < r.1.toNat) → exec .setDataRanges s = faultWith s .badRange) ∧
    ((∀ r ∈ rs, r.1.toNat ≤ r.2.toNat) →
      exec .setDataRanges s = okWith { s with codec := { s.codec with
        dataRanges := rs
        dataRangesFiltered := rs.filter (fun r => decide (r.2.toNat ≤ s.codec.bits.wrap)) } } {})) ∧
  (∀ (s : State) (wrapping : Bool) (i : U64), s.running → s.args.a0 = some i →
    EncodedAs (.isData false) 0x31 0 0 ∧ EncodedAs (.isData true) 0x31 1 0 ∧
    ((∃ r ∈ (if wrapping then s.codec.dataRanges else s.codec.dataRangesFiltered),
        r.1.toNat ≤ i.toNat ∧ i.toNat < r.2.toNat) →
      exec (.isData wrapping) s = okWith s { y0 := some 1 }) ∧
    ((∀ r ∈ (if wrapping then s.codec.dataRanges else s.codec.dataRangesFiltered),
        ¬ (r.1.toNat ≤ i.toNat ∧ i.toNat < r.2.toNat)) →
      exec (.isData wrapping) s = okWith s { y0 := some 0 }))

/-- 10_state.md R55 and 42_codec_access.md R199: the value `REG_READ` gives at each register number, and `ILLEGAL_COMMAND` at a reserved one. -/
def Obligations.RegisterMap : Prop :=
  ∀ s : State, s.running → EncodedAs .regRead 0x70 0 0 ∧
    (∀ row ∈ [(0x00, s.status.setWidth 64), (0x01, u64 s.codec.bits.bits.length),
        (0x02, u64 s.codec.bits.wrap), (0x03, u64 s.codec.clock.wrap), (0x04, u64 s.codec.error.wrap),
        (0x05, u64 s.codec.weak.wrap), (0x08, s.codec.bitCursor), (0x09, u64 s.codec.bits.cursor),
        (0x0A, u64 s.codec.clock.cursor), (0x0B, u64 s.codec.error.cursor),
        (0x0C, u64 s.codec.weak.cursor), (0x0D, u64 s.codec.dataRanges.length),
        (0x0E, u64 s.codec.dataRangesFiltered.length), (0x10, s.pll.period),
        (0x11, F64.div F64.one s.pll.period), (0x12, s.pll.defaultPeriod),
        (0x13, F64.div F64.one s.pll.defaultPeriod), (0x14, s.pll.maxAdjust), (0x15, s.pll.kp),
        (0x16, s.pll.densityFactor), (0x17, s.pll.tooFast), (0x18, s.pll.tooSlow),
        ((0x19 : U64), s.pll.bitsOut)],
      s.args.a0 = some row.1 → exec .regRead s = okWith s { y0 := some row.2 }) ∧
    (s.args.a0 = some 6 → ∃ v : U64, exec .regRead s = okWith s { y0 := some v } ∧
      (∀ k, 8 ≤ k → v.getLsbD k = false) ∧
      ∀ sel : RingSel, v.getLsbD (2 * sel.code.toNat) = (s.codec.ring sel).wrapValue.isSome ∧
        v.getLsbD (2 * sel.code.toNat + 1) = (s.codec.ring sel).wrapValue.getD false) ∧
    (s.args.a0 = some 7 → ∃ v : U64, exec .regRead s = okWith s { y0 := some v } ∧
      v.getLsbD 0 = s.codec.weakEnabled ∧ v.getLsbD 1 = s.codec.initialPhase ∧
      ∀ k, 2 ≤ k → v.getLsbD k = false) ∧
    (∀ num : U64, s.args.a0 = some num → num = 0x0F ∨ 0x19 < num.toNat →
      exec .regRead s = faultWith s .illegalCommand)

/-! ### Analysis -/

/-- 43_codec_analysis.md R212 with R211: `ENCODE.data` gives two bits a source bit, each clock the standard one, never two ones in a row and never four zeros. -/
def Obligations.DataEncodingIsClockLegal : Prop :=
  ∀ (s : State) (p : U64) (d : List Bit), s.running → s.args.a0 = some p → s.ib0 = some (.bits d) →
    ∃ e : List Bit, exec (.encodeMfm .data) s = okWith s { ob0 := some (.bits e) } ∧
      e.length = 2 * d.length ∧
      (∀ i, i < d.length → e.getD (2 * i + 1) false = d.getD i false ∧
        e.getD (2 * i) false =
          (!d.getD i false && !(if i = 0 then p.getLsbD 0 else d.getD (i - 1) false))) ∧
      (∀ i, i + 1 < e.length → ¬ (e.getD i false = true ∧ e.getD (i + 1) false = true)) ∧
      (∀ i, i + 3 < e.length → ∃ k, k < 4 ∧ e.getD (i + k) false = true)

/-- 43_codec_analysis.md R213 with R211: the `AddressMark` encoding of any bits has a 0 at raw bit `16j + 6` of each group of eight pairs that has four, and agrees with the `Data` encoding elsewhere. -/
def Obligations.AddressMarkClearsOneClock : Prop :=
  (∀ (s : State) (v : Variant) (p : U64) (d : List Bit), s.running → s.args.a0 = some p →
    s.ib0 = some (.bits d) → EncodedAs (.encodeMfm v) 0x40 v.code 0 ∧
    exec (.encodeMfm v) s = okWith s { ob0 := some (.bits (mfmEncode d (p.getLsbD 0) v)) }) ∧
  (∀ (d : List Bit) (prev : Bit),
    (mfmEncode d prev .addressMark).length = (mfmEncode d prev .data).length ∧
    ∀ i, (mfmEncode d prev .addressMark).getD i false =
      if i % 16 = 6 then false else (mfmEncode d prev .data).getD i false)

/-- 43_codec_analysis.md R215 and R216: `FIND_MARKER` gives the leftmost window at or after the start that matches and ends before the limit (never past the wrap), and the window's last 16 bits; with none it ends `NONE`. -/
def Obligations.FindMarkerFindsLeftmost : Prop :=
  ∀ (s : State) (mb mask start : U64) (limit : Option U64) (lim : Nat), s.running →
    s.args.a0 = some mb → s.args.a1 = some mask → s.args.a2 = some start →
    (∀ l, limit = some l → s.args.a3 = some l) →
    lim = min (match limit with | some l => l.toNat | none => s.codec.bits.wrap) s.codec.bits.wrap →
    EncodedAs (.findMarker limit.isSome) 0x41 0 (boolCode limit.isSome) ∧
    (∀ o, start.toNat ≤ o → o + 64 < lim → MarkerAt s.codec.bits mb mask o →
      (∀ o', start.toNat ≤ o' → o' < o → ¬ MarkerAt s.codec.bits mb mask o') →
      exec (.findMarker limit.isSome) s = okWith s
        { y0 := some (u64 o)
          y1 := some (u64 (packMsb ((List.range 16).map (fun k => s.codec.bits.stored (o + 48 + k))))) }) ∧
    ((∀ o, start.toNat ≤ o → o + 64 < lim → ¬ MarkerAt s.codec.bits mb mask o) →
      exec (.findMarker limit.isSome) s = .next (s.complete codeNone {}))

/-- 43_codec_analysis.md R220 and R221: `FIND_SYNC` gives the leftmost 32 alternating bits at or after the start that lie within the revolution, and the parity of their offset; with none it ends `NONE`. -/
def Obligations.FindSyncFindsLeftmost : Prop :=
  ∀ (s : State) (start : U64), s.running → s.args.a0 = some start →
    EncodedAs .findSync 0x42 0 0 ∧
    (∀ o, start.toNat ≤ o → o + 32 ≤ s.codec.bits.wrap → SyncAt s.codec.bits o →
      (∀ o', start.toNat ≤ o' → o' < o → ¬ SyncAt s.codec.bits o') →
      exec .findSync s = okWith s { y0 := some (u64 o), y1 := some (u64 (o % 2)) }) ∧
    ((∀ o, start.toNat ≤ o → o + 32 ≤ s.codec.bits.wrap → ¬ SyncAt s.codec.bits o) →
      exec .findSync s = .next (s.complete codeNone {}))

/-- 43_codec_analysis.md R225, R226, R229: the mask commands install a ring of the codec's length with the wrap of `BITS`, no wrap value and cursor 0, whose ones are exactly the bits of the zero runs longer than the threshold (6 or `A0`, and 3), and count them in `Y0`. -/
def Obligations.MasksMarkLongZeroRuns : Prop :=
  ∀ s : State, s.running → s.codec.wf = true →
    EncodedAs (.createWeakMask false) 0x43 0 0 ∧ EncodedAs (.createWeakMask true) 0x43 0 1 ∧
    EncodedAs .createErrorMap 0x44 0 0 ∧
    (∀ run : Option U64, (∀ v, run = some v → s.args.a0 = some v) → ∃ m : List Bit,
      exec (.createWeakMask run.isSome) s = okWith
        { s with codec := { s.codec with weak := ⟨m, s.codec.bits.wrap, none, 0⟩ } }
        { y0 := some (u64 (m.count true)) } ∧
      m.length = s.codec.bits.bits.length ∧
      ∀ k, m.getD k false = true ↔
        InLongZeroRun s.codec.bits (match run with | some v => v.toNat | none => 6) k) ∧
    ∃ m : List Bit,
      exec .createErrorMap s = okWith
        { s with codec := { s.codec with error := ⟨m, s.codec.bits.wrap, none, 0⟩ } }
        { y0 := some (u64 (m.count true)) } ∧
      m.length = s.codec.bits.bits.length ∧
      ∀ k, m.getD k false = true ↔ InLongZeroRun s.codec.bits 3 k

/-- 43_codec_analysis.md R227: with exactly one zero run of length `run + 1`, from `a`, and no other zero run longer than `run`, `CREATE_WEAK_MASK` marks that run's positions and no other. -/
def Obligations.WeakMaskIsExactForOneRun : Prop :=
  ∀ (s t : State) (run : U64) (a : Nat), s.running → s.codec.wf = true → s.args.a0 = some run →
    a + run.toNat + 1 ≤ s.codec.bits.wrap →
    (∀ j, a ≤ j → j < a + run.toNat + 1 → s.codec.bits.stored j = false) →
    (∀ b e, b < e → e ≤ s.codec.bits.wrap → (∀ j, b ≤ j → j < e → s.codec.bits.stored j = false) →
      run.toNat < e - b → b = a ∧ e = a + run.toNat + 1) →
    exec (.createWeakMask true) s = .next t →
    ∀ k, t.codec.weak.bits.getD k false = decide (a ≤ k ∧ k < a + run.toNat + 1)

/-! ### PLL and binary64 -/

/-- 44_pll.md R250 and R252: `PLL_CONFIG` installs the period of the rate and the other three values with the counts at 0, or, when the period is no valid clamp centre or a value is not finite, raises `BAD_OPERAND` and changes no register; `PLL_RESET` returns to the default period with the counts at 0 and keeps the configuration. -/
def Obligations.PllConfigAndReset : Prop :=
  (∀ c ma : F64, validCentre c ma = true ↔
    F64.finite c = true ∧ F64.lt 0 c = true ∧ F64.finite ma = true ∧ F64.le 0 ma = true ∧
    F64.lt ma F64.one = true ∧ F64.lt 0 (F64.mul c (F64.sub F64.one ma)) = true ∧
    F64.finite (F64.mul c (F64.add F64.one ma)) = true) ∧
  ∀ s : State, s.running → EncodedAs .pllConfig 0x50 0 0 ∧ EncodedAs .pllReset 0x51 0 0 ∧
    (∀ rate ma kp density : U64, s.args = ⟨some rate, some ma, some kp, some density⟩ →
      exec .pllConfig s =
        if validCentre (F64.div F64.one rate) ma = true ∧ F64.finite kp = true ∧ F64.finite density = true then
          okWith { s with pll :=
            { period := F64.div F64.one rate, defaultPeriod := F64.div F64.one rate, maxAdjust := ma
              kp := kp, densityFactor := density, tooFast := 0, tooSlow := 0, bitsOut := 0 } } {}
        else faultWith s .badOperand) ∧
    exec .pllReset s = okWith { s with pll := { s.pll with
      period := s.pll.defaultPeriod, tooFast := 0, tooSlow := 0, bitsOut := 0 } } {}

/-- `PLL_DECODE` (44_pll.md R266), for every optional hint: delta validation, then the hint, then the FM profile; an `Mfm` decode ends with the loop's period, an `Fm` one leaves it, and both write the counts. -/
def Obligations.PllDecodeResult : Prop :=
  ∀ (s : State) (x : List F64) (hint : Option U64) (dp p0 : F64), s.running → s.ib0 = some (.f64s x) →
    (∀ h, hint = some h → s.args.a0 = some h) →
    dp = (match hint with | some h => h | none => s.pll.defaultPeriod) →
    p0 = (match hint with | some h => h | none => s.pll.period) →
    EncodedAs (.pllDecode .mfm hint.isSome) 0x52 0 (boolCode hint.isSome) ∧
    EncodedAs (.pllDecode .fm hint.isSome) 0x52 1 (boolCode hint.isSome) ∧
    (∀ e, (∃ v ∈ x, badDelta v = true) →
      exec (.pllDecode e hint.isSome) s = faultWith s .invalidFluxDelta) ∧
    ((∀ v ∈ x, badDelta v = false) →
      (∀ e h, hint = some h → validCentre h s.pll.maxAdjust = false →
        exec (.pllDecode e hint.isSome) s = faultWith s .badOperand) ∧
      ((∀ h, hint = some h → validCentre h s.pll.maxAdjust = true) →
        (∀ r, pllRun s.pll (x.filter nonzeroDelta) p0 dp ⟨F64.one, 2, 5⟩ = .ok r →
          exec (.pllDecode .mfm hint.isSome) s = okWith
            { s with pll := { s.pll with
              period := r.period, defaultPeriod := dp
              tooFast := u64 r.tooFast, tooSlow := u64 r.tooSlow, bitsOut := u64 r.out.length } }
            { y0 := some (u64 r.tooFast), y1 := some (u64 r.tooSlow), y2 := some (u64 r.out.length)
              ob0 := some (.bits r.out) }) ∧
        (∀ c, pllRun s.pll (x.filter nonzeroDelta) p0 dp ⟨F64.one, 2, 5⟩ = .error c →
          exec (.pllDecode .mfm hint.isSome) s = faultWith s .invalidFluxDelta) ∧
        (validCentre (F64.mul dp Config.fmProfile.periodMult) s.pll.maxAdjust = false →
          exec (.pllDecode .fm hint.isSome) s = faultWith s .badOperand) ∧
        (validCentre (F64.mul dp Config.fmProfile.periodMult) s.pll.maxAdjust = true →
          ∀ r, pllRun s.pll (x.filter nonzeroDelta) (F64.mul p0 Config.fmProfile.periodMult)
              (F64.mul dp Config.fmProfile.periodMult) Config.fmProfile = .ok r →
            exec (.pllDecode .fm hint.isSome) s = okWith
              { s with pll := { s.pll with
                period := p0, defaultPeriod := dp
                tooFast := u64 r.tooFast, tooSlow := u64 r.tooSlow, bitsOut := u64 r.out.length } }
              { y0 := some (u64 r.tooFast), y1 := some (u64 r.tooSlow), y2 := some (u64 r.out.length)
                ob0 := some (.bits r.out) }) ∧
        (validCentre (F64.mul dp Config.fmProfile.periodMult) s.pll.maxAdjust = true →
          ∀ c, pllRun s.pll (x.filter nonzeroDelta) (F64.mul p0 Config.fmProfile.periodMult)
              (F64.mul dp Config.fmProfile.periodMult) Config.fmProfile = .error c →
            exec (.pllDecode .fm hint.isSome) s = faultWith s .invalidFluxDelta)))

/-- A list of zero deltas decodes to nothing and leaves the period (44_pll.md R266, corner cases), whatever the state of the PLL. -/
def Obligations.PllDecodeOfZeroDeltasCompletes : Prop :=
  ∀ (s : State) (x : List F64), s.running → s.ib0 = some (.f64s x) → (∀ v ∈ x, F64.mag v = 0) →
    exec (.pllDecode .mfm false) s = okWith
      { s with pll := { s.pll with tooFast := 0, tooSlow := 0, bitsOut := 0 } }
      { y0 := some 0, y1 := some 0, y2 := some 0, ob0 := some (.bits []) }

/-- 44_pll.md R260, clause by clause. One delta: `nxt` is `last + v`; a `nxt` that is not finite faults; the clock ticks by the period until `time + acc` reaches `nxt`, which it does after some `t` ticks unless a tick stops moving it, which faults (R261); then steps c to h give the clock, the emission or the count, the phase error against the period before the clamp, the clamped period (R262) and the reduced phase (R265), and a value that is not finite faults. After a delta the phase is at most the period, where that is finite and positive (R265). A run starts half a period early (R264) and takes the deltas in order, with the clamp bounds of R262. R263: a transition of `t` ticks emits `t - 1` zeros and a one when `mn ≤ t < mx`, and else emits nothing and adds 1 to the too fast or the too slow count. So what a decode emits is a run of such groups: it ends in a 1 or is empty, holds no run of `mx - 1` zeros, is as long as the sum of the emitting tick counts; and every delta emits or is counted. -/
def Obligations.PllLoopAndEmissionLaw : Prop :=
  (∀ (lo hi kp : F64) (prof : Config.Profile) (r : PllRun) (v nxt : F64), nxt = F64.add r.last v →
    (F64.finite nxt = false → pllDelta lo hi kp prof r v = .error .invalidFluxDelta) ∧
    (F64.finite nxt = true →
      (∃ t, ClockReaches r nxt t ∨ ClockSticks r nxt t) ∧
      (∀ t, ClockSticks r nxt t → pllDelta lo hi kp prof r v = .error .invalidFluxDelta) ∧
      (∀ t err r', ClockReaches r nxt t → AfterDelta lo hi kp prof r nxt t err r' →
        pllDelta lo hi kp prof r v =
          if F64.finite r'.time = true ∧ F64.finite err = true ∧ F64.finite r'.acc = true then .ok r'
          else .error .invalidFluxDelta))) ∧
  (∀ (lo hi kp : F64) (prof : Config.Profile) (r r' : PllRun) (v : F64),
    pllDelta lo hi kp prof r v = .ok r' →
    (∃ t err, ClockReaches r (F64.add r.last v) t ∧
      tickLoop r.period r.acc (F64.add r.last v) tickFuel r.time 0 = some (clockAt r t, t) ∧
      AfterDelta lo hi kp prof r (F64.add r.last v) t err r') ∧
    (F64.finite r'.period = true → F64.lt 0 r'.period = true → F64.le (F64.abs r'.acc) r'.period = true)) ∧
  (∀ (u : Pll) (p0 dp : F64) (prof : Config.Profile),
    pllRun u [] p0 dp prof = .ok ⟨p0, F64.neg (F64.div p0 F64.two), 0, 0, [], 0, 0⟩ ∧
    ∀ (d : List F64) (v : F64), pllRun u (d ++ [v]) p0 dp prof =
      match pllRun u d p0 dp prof with
      | .error c => .error c
      | .ok r => pllDelta (F64.mul dp (F64.sub F64.one u.maxAdjust))
          (F64.mul dp (F64.add F64.one u.maxAdjust)) u.kp prof r v) ∧
  (∀ (u : Pll) (d : List F64) (p0 dp : F64) (prof : Config.Profile) (r : PllRun),
    1 ≤ prof.minTicks → prof.minTicks ≤ prof.maxTicks → pllRun u d p0 dp prof = .ok r →
    EmittedGroups prof.minTicks prof.maxTicks r.out r.out.length ∧
    (r.out = [] ∨ r.out.getLast? = some true) ∧
    (2 ≤ prof.maxTicks → ∀ i, i + (prof.maxTicks - 1) ≤ r.out.length →
      ∃ k, i ≤ k ∧ k < i + (prof.maxTicks - 1) ∧ r.out.getD k false = true) ∧
    r.tooFast + r.tooSlow + r.out.count true = d.length)

/-- The tick loop is never cut short by the count it recurses on: a larger one changes nothing (44_pll.md R261, "a model must not cap it"; log 13). -/
def Obligations.TickLoopIsNeverCut : Prop :=
  ∀ (p acc nxt time : F64) (ticks n : Nat), tickFuel ≤ n →
    tickLoop p acc nxt n time ticks = tickLoop p acc nxt tickFuel time ticks

/-- binary64 (00_scope.md R14): what a pattern of sign, exponent and fraction stands for, counted in units of 2^-1074; the order `<`, `<=`, `=`, which is that of the values, has the infinities at its ends and is false of a NaN. On finite values `+`, `-`, `*`, `/` and the conversion of a natural round the exact result once, to nearest, ties to even; `fmod` is the exact remainder of truncated division with the sign of its first operand; `abs`, `min` and `max` are exact. Nothing is said of what an operation gives for a NaN, nor of which zero `min` and `max` give (logs 8, 14, 22). -/
def Obligations.ArithmeticAndOrder : Prop :=
  (∀ (a : F64) (e f : Nat), e = (a.extractLsb' 52 11).toNat → f = (a.extractLsb' 0 52).toNat →
    (F64.finite a = true ↔ e ≠ 2047) ∧ (F64.isNaN a = true ↔ e = 2047 ∧ f ≠ 0) ∧
    (F64.finite a = true → F64.val a = (if a.getLsbD 63 then -1 else 1) *
      (if e = 0 then (f : Int) else (2 ^ 52 + f) * 2 ^ (e - 1)))) ∧
  (∀ a b : F64, F64.finite a = true → F64.finite b = true →
    (F64.lt a b = true ↔ F64.val a < F64.val b) ∧ (F64.le a b = true ↔ F64.val a ≤ F64.val b) ∧
    (F64.eq a b = true ↔ F64.val a = F64.val b)) ∧
  (∀ a b : F64, F64.isNaN a = true ∨ F64.isNaN b = true →
    F64.lt a b = false ∧ F64.le a b = false ∧ F64.eq a b = false) ∧
  (∀ a b : F64, F64.isNaN a = false → F64.isNaN b = false →
    F64.le a b = !F64.lt b a ∧ F64.eq a b = (F64.le a b && F64.le b a) ∧ F64.eq a a = true) ∧
  (∀ a : F64, F64.finite a = true → F64.lt (F64.inf true) a = true ∧ F64.lt a (F64.inf false) = true) ∧
  F64.lt (F64.inf true) (F64.inf false) = true ∧
  (∀ a b : F64, F64.finite a = true → F64.finite b = true →
    (RoundedFrom (F64.add a b) (F64.val a + F64.val b) 1 ∧
      (F64.val a + F64.val b = 0 → F64.sign (F64.add a b) = (F64.sign a && F64.sign b))) ∧
    RoundedFrom (F64.sub a b) (F64.val a - F64.val b) 1 ∧
    (RoundedFrom (F64.mul a b) (F64.val a * F64.val b) f64One ∧
      F64.sign (F64.mul a b) = (F64.sign a != F64.sign b)) ∧
    (F64.val b ≠ 0 →
      (RoundedFrom (F64.div a b) (F64.val a * f64One) (F64.val b) ∧
        F64.sign (F64.div a b) = (F64.sign a != F64.sign b)) ∧
      (F64.finite (F64.fmod a b) = true ∧ F64.val (F64.fmod a b) = (F64.val a).tmod (F64.val b) ∧
        F64.sign (F64.fmod a b) = F64.sign a)) ∧
    F64.val (F64.abs a) = |F64.val a| ∧
    F64.val (F64.max a b) = max (F64.val a) (F64.val b) ∧
    F64.val (F64.min a b) = min (F64.val a) (F64.val b)) ∧
  ∀ n : Nat, RoundedFrom (F64.ofNat n) (n * f64One) 1

/-! ### Revolutions -/

/-- 45_flux_revolution.md R290 with 44_pll.md R256: `REV_NORMALIZE` gives the nonzero deltas in order and counts the dropped, or raises `INVALID_FLUX_DELTA` for a negative, infinite or NaN delta. -/
def Obligations.RevNormalizeResult : Prop :=
  ∀ (s : State) (x : List F64), s.running → s.ib0 = some (.f64s x) →
    EncodedAs .revNormalize 0x60 0 0 ∧
    ((∃ v ∈ x, F64.finite v = false ∨ F64.sign v = true ∧ F64.mag v ≠ 0) →
      exec .revNormalize s = faultWith s .invalidFluxDelta) ∧
    ((∀ v ∈ x, F64.finite v = true ∧ (F64.sign v = true → F64.mag v = 0)) →
      exec .revNormalize s = okWith s
        { y0 := some (u64 (x.countP (fun v => decide (F64.mag v = 0))))
          ob0 := some (.f64s (x.filter (fun v => decide (F64.mag v ≠ 0)))) })

/-- 45_flux_revolution.md R293 and R295: alignment moves the boundary by the one transition the longer revolution has at it, exactly when the counts differ by two; nothing is changed, added or removed. -/
def Obligations.AlignmentMovesTheBoundary : Prop :=
  ∀ (s : State) (a b x y : List F64), s.running → s.ib0 = some (.f64s a) → s.ib1 = some (.f64s b) →
    EncodedAs .revAlignPair 0x61 0 0 ∧
    ((∃ c, normalizeDeltas a = .error c ∨ normalizeDeltas b = .error c) →
      exec .revAlignPair s = faultWith s .invalidFluxDelta) ∧
    (normalizeDeltas a = .ok x → normalizeDeltas b = .ok y → ∃ x' y' : List F64,
      exec .revAlignPair s = okWith s
        { y0 := some (if x.length = y.length + 2 ∨ y.length = x.length + 2 then 1 else 0)
          y1 := some (if y.length = x.length + 2 then 1 else 0)
          ob0 := some (.f64s x'), ob1 := some (.f64s y') } ∧
      x' ++ y' = x ++ y ∧
      x'.length = (if x.length = y.length + 2 then x.length - 1
        else if y.length = x.length + 2 then x.length + 1 else x.length))

/-- 45_flux_revolution.md R297 and R298: auto-detection keeps the MFM decode unless it holds no markers, the classifier suggests FM and the FM decode holds markers; both start fresh, only the counts are written, and an FM pass that is needed on bounds that are not valid raises `BAD_OPERAND`. -/
def Obligations.RevDecodeDirectResult : Prop :=
  ∀ (s : State) (x d : List F64) (time fp : U64) (keep : PllRun → Bit → Host.Outcome State Fault Refusal),
    s.running → s.ib0 = some (.f64s x) → s.args.a0 = some time →
    d = x.filter nonzeroDelta →
    fp = F64.mul s.pll.defaultPeriod Config.fmProfile.periodMult →
    keep = (fun r fm => okWith
      { s with pll := { s.pll with
        tooFast := u64 r.tooFast, tooSlow := u64 r.tooSlow, bitsOut := u64 r.out.length } }
      { y0 := some (if fm then 1 else 0), y1 := some (u64 r.tooFast), y2 := some (u64 r.tooSlow)
        y3 := some (u64 r.out.length), ob0 := some (.bits r.out) }) →
    EncodedAs .revDecodeDirect 0x62 0 0 ∧
    ((∃ v ∈ x, badDelta v = true) → exec .revDecodeDirect s = faultWith s .invalidFluxDelta) ∧
    ((∀ v ∈ x, badDelta v = false) →
      (∀ c, pllRun s.pll d s.pll.defaultPeriod s.pll.defaultPeriod ⟨F64.one, 2, 5⟩ = .error c →
        exec .revDecodeDirect s = faultWith s .invalidFluxDelta) ∧
      (∀ m, pllRun s.pll d s.pll.defaultPeriod s.pll.defaultPeriod ⟨F64.one, 2, 5⟩ = .ok m →
        (Config.hasMarkers m.out = true ∨ Config.fmSuggested d time = false →
          exec .revDecodeDirect s = keep m false) ∧
        (Config.hasMarkers m.out = false → Config.fmSuggested d time = true →
          (validCentre fp s.pll.maxAdjust = false →
            exec .revDecodeDirect s = faultWith s .badOperand) ∧
          (validCentre fp s.pll.maxAdjust = true →
            (∀ c, pllRun s.pll d fp fp Config.fmProfile = .error c →
              exec .revDecodeDirect s = faultWith s .invalidFluxDelta) ∧
            (∀ f, pllRun s.pll d fp fp Config.fmProfile = .ok f →
              exec .revDecodeDirect s =
                if Config.hasMarkers f.out = true then keep f true else keep m false)))))
end

