-- ==== Sys2Proof/Laws/Bits.lean ====
section
/-! SUPPORT. The bits of a packed value, a packed byte and a byte sequence (00_scope.md R13, 20_memory.md R80). -/

namespace Sys2Proof.Machine

theorem packMsb_snoc (s : List Bit) (b : Bit) : packMsb (s ++ [b]) = 2 * packMsb s + b.toNat := by
  simp [packMsb, List.foldl_append]

/-- Bit `n - 1 - k` of a packed value is the `k`-th bit of the sequence. -/
theorem testBit_packMsb (s : List Bit) {k : Nat} (h : k < s.length) :
    (packMsb s).testBit (s.length - 1 - k) = s.getD k false := by
  induction s using List.reverseRecOn with
  | nil => exact absurd h (Nat.not_lt_zero k)
  | append_singleton s b ih =>
    rw [packMsb_snoc]
    simp only [List.length_append, List.length_singleton] at h ⊢
    rcases Nat.lt_or_ge k s.length with hk | hk
    · have e : s.length + 1 - 1 - k = (s.length - 1 - k) + 1 := by omega
      rw [e, Nat.testBit_succ, List.getD_append _ _ _ _ hk, ← ih hk]
      congr 1
      cases b <;> simp; omega
    · have e : k = s.length := by omega
      subst e
      rw [Nat.add_sub_cancel, Nat.sub_self, List.getD_append_right _ _ _ _ le_rfl]
      cases b <;> simp [Nat.testBit_zero]

theorem packMsb_lt (s : List Bit) : packMsb s < 2 ^ s.length := by
  induction s using List.reverseRecOn with
  | nil => simp [packMsb]
  | append_singleton s b ih =>
    rw [packMsb_snoc, List.length_append, List.length_singleton, Nat.pow_succ]
    cases b <;> simp <;> omega

/-- The bits of a packed byte, those past the sequence 0. -/
theorem getMsbD_packByte {s : List Bit} (h : s.length ≤ 8) {k : Nat} (hk : k < 8) :
    (packByte s).getMsbD k = s.getD k false := by
  have hl : (s ++ List.replicate (8 - s.length) false).length = 8 := by simp; omega
  have e : (packByte s).getMsbD k = (packMsb (s ++ List.replicate (8 - s.length) false)).testBit (8 - 1 - k) := by
    unfold packByte
    have h7 : 8 - 1 - k < 8 := by omega
    rw [BitVec.getMsbD, BitVec.getLsbD_ofNat]
    simp only [hk, h7, decide_true, Bool.true_and]
  have t := testBit_packMsb (s ++ List.replicate (8 - s.length) false) (k := k) (by omega)
  rw [hl] at t
  rw [e, t]
  rcases Nat.lt_or_ge k s.length with hs | hs
  · exact List.getD_append _ _ _ _ hs
  · rw [List.getD_append_right _ _ _ _ hs, List.getD_eq_default s false hs]
    rw [List.getD_eq_getElem?_getD, List.getElem?_replicate]
    split <;> rfl

theorem bitsToBytes_length (s : List Bit) : (bitsToBytes s).length = (s.length + 7) / 8 := by
  simp [bitsToBytes]

/-- Bit `k` of byte `j` is bit `8j + k` of the sequence. -/
theorem getMsbD_bitsToBytes (s : List Bit) {j k : Nat} (hj : j < (bitsToBytes s).length) (hk : k < 8) :
    ((bitsToBytes s).getD j 0).getMsbD k = s.getD (8 * j + k) false := by
  have hj' : j < (s.length + 7) / 8 := by rwa [bitsToBytes_length] at hj
  have e : (bitsToBytes s).getD j 0 = packByte ((s.drop (8 * j)).take 8) := by
    simp [bitsToBytes, List.getD_eq_getElem?_getD, hj']
  rw [e, getMsbD_packByte (by simp) hk]
  simp [List.getD_eq_getElem?_getD, hk]

theorem byteBits_length (b : Byte) : (byteBits b).length = 8 := by simp [byteBits]

theorem getD_byteBits (b : Byte) {k : Nat} (hk : k < 8) : (byteBits b).getD k false = b.getMsbD k := by
  simp [byteBits, List.getD_eq_getElem?_getD, hk]

/-- Bit `8j + k` of the bits of a byte sequence is bit `k` of byte `j`. -/
theorem getD_bytesToBits (b : List Byte) {j k : Nat} (hk : k < 8) :
    (bytesToBits b).getD (8 * j + k) false = (b.getD j 0).getMsbD k := by
  induction b generalizing j with
  | nil => simp [bytesToBits]
  | cons x b ih =>
    have e : bytesToBits (x :: b) = byteBits x ++ bytesToBits b := rfl
    rw [e]
    cases j with
    | zero =>
      rw [List.getD_append _ _ _ _ (by rw [byteBits_length]; omega), Nat.mul_zero, Nat.zero_add,
        getD_byteBits x hk]
      rfl
    | succ j =>
      rw [List.getD_append_right _ _ _ _ (by rw [byteBits_length]; omega), byteBits_length]
      have e2 : 8 * (j + 1) + k - 8 = 8 * j + k := by omega
      rw [e2, ih]
      rfl

end Sys2Proof.Machine
end

