-- ==== Sys2Proof/Laws/Float.lean ====
section
/-! SUPPORT. What the rounding of binary64 does, said once: the pattern it gives is exact on a value, monotone, nearest, even on a tie, and finite below one bound (00_scope.md R14). -/

namespace Sys2Proof.Machine

/-! ### The nearest whole number -/

theorem divNearestEven_zero_num (den : Nat) : divNearestEven 0 den = 0 := by
  simp [divNearestEven]

/-- A whole quotient is its own nearest whole number. -/
theorem divNearestEven_mul {den : Nat} (h : 0 < den) (k : Nat) : divNearestEven (k * den) den = k := by
  unfold divNearestEven
  have h1 : k * den % den = 0 := Nat.mul_mod_left k den
  have h2 : k * den / den = k := Nat.mul_div_cancel k h
  rw [h1, h2]
  have : ¬ (2 * 0 = den ∧ k % 2 = 1) := by omega
  rw [if_neg (by omega), if_neg this]

/-- The nearest whole number is the quotient or one more. -/
theorem divNearestEven_cases (num den : Nat) :
    (divNearestEven num den = num / den ∧ 2 * (num % den) ≤ den) ∨
    (divNearestEven num den = num / den + 1 ∧ den ≤ 2 * (num % den)) := by
  unfold divNearestEven
  split
  · exact .inr ⟨rfl, by omega⟩
  · split
    · next h => exact .inr ⟨rfl, by omega⟩
    · exact .inl ⟨rfl, by omega⟩

theorem divNearestEven_mono {a b den : Nat} (h : a ≤ b) :
    divNearestEven a den ≤ divNearestEven b den := by
  have hq : a / den ≤ b / den := Nat.div_le_div_right h
  rcases Nat.lt_or_eq_of_le hq with hlt | heq
  · have h1 : divNearestEven a den ≤ a / den + 1 := by
      rcases divNearestEven_cases a den with ⟨e, -⟩ | ⟨e, -⟩ <;> omega
    have h2 : b / den ≤ divNearestEven b den := by
      rcases divNearestEven_cases b den with ⟨e, -⟩ | ⟨e, -⟩ <;> omega
    omega
  · have hr : a % den ≤ b % den := by
      have ea := Nat.div_add_mod a den
      have eb := Nat.div_add_mod b den
      rw [heq] at ea
      omega
    unfold divNearestEven
    rw [heq]
    split
    · rw [if_pos (by omega)]
    · split
      · next h1 h2 =>
        split
        · omega
        · rw [if_pos]; omega
      · split <;> [omega; (split <;> omega)]

/-- No whole number is nearer. -/
theorem divNearestEven_nearest {den : Nat} (h : 0 < den) (num : Nat) (j : Int) :
    |(divNearestEven num den * den : Int) - num| ≤ |j * den - num| := by
  have e : (num : Int) = (num / den : Nat) * den + (num % den : Nat) := by
    exact_mod_cast (Nat.div_add_mod' num den).symm
  have hm : ((num % den : Nat) : Int) < den := by exact_mod_cast Nat.mod_lt _ h
  have hm0 : (0 : Int) ≤ (num % den : Nat) := Int.natCast_nonneg _
  have hj : (j ≤ (num / den : Nat) ∧ j * den ≤ (num / den : Nat) * (den : Int)) ∨
      (((num / den : Nat) : Int) + 1 ≤ j ∧ ((num / den : Nat) : Int) * den + den ≤ j * den) := by
    rcases le_or_gt j ((num / den : Nat) : Int) with hle | hgt
    · exact .inl ⟨hle, by gcongr⟩
    · refine .inr ⟨by omega, ?_⟩
      have : (((num / den : Nat) : Int) + 1) * den ≤ j * den := by gcongr; omega
      linarith
  rcases divNearestEven_cases num den with ⟨e1, h1⟩ | ⟨e1, h1⟩
  · have h1' : 2 * ((num % den : Nat) : Int) ≤ den := by exact_mod_cast h1
    rw [e1]
    generalize ((num / den : Nat) : Int) * den = x at *
    generalize j * (den : Int) = y at *
    rw [abs_le]
    rcases hj with ⟨-, hj⟩ | ⟨-, hj⟩
    · have := neg_le_abs (y - num)
      constructor <;> linarith
    · have := le_abs_self (y - num)
      constructor <;> linarith
  · have h1' : (den : Int) ≤ 2 * ((num % den : Nat) : Int) := by exact_mod_cast h1
    have hx : (((num / den + 1 : Nat) : Int)) * den = ((num / den : Nat) : Int) * den + den := by
      push_cast; ring
    rw [e1, hx]
    generalize ((num / den : Nat) : Int) * den = x at *
    generalize j * (den : Int) = y at *
    rw [abs_le]
    rcases hj with ⟨-, hj⟩ | ⟨-, hj⟩
    · have := neg_le_abs (y - num)
      constructor <;> linarith
    · have := le_abs_self (y - num)
      constructor <;> linarith

/-- Where another whole number is as near, the nearest is the even one. -/
theorem divNearestEven_tie_even {den : Nat} (h : 0 < den) (num : Nat) {j : Int}
    (hj : j ≠ (divNearestEven num den : Nat))
    (ht : |j * den - num| = |((divNearestEven num den : Nat) : Int) * den - num|) :
    divNearestEven num den % 2 = 0 := by
  have e : (num : Int) = (num / den : Nat) * den + (num % den : Nat) := by
    exact_mod_cast (Nat.div_add_mod' num den).symm
  have hm : num % den < den := Nat.mod_lt _ h
  -- the two candidates lie symmetrically about `num`
  have hs : (j + (divNearestEven num den : Nat)) * den = 2 * num := by
    rcases abs_eq_abs.mp ht with h1 | h1
    · exact absurd (Int.eq_of_mul_eq_mul_right (by omega) (show j * den = _ * (den : Int) by linarith)) hj
    · rw [add_mul]; linarith
  have h2 : 2 * (num % den) = den ∨ num % den = 0 := by
    have : (den : Int) ∣ 2 * (num % den : Nat) := by
      refine ⟨j + (divNearestEven num den : Nat) - 2 * (num / den : Nat), ?_⟩
      linear_combination -hs - 2 * e
    have hd : den ∣ 2 * (num % den) := by exact_mod_cast this
    obtain ⟨q, hq⟩ := hd
    have : q < 2 := by
      by_contra hc
      have : den * 2 ≤ den * q := Nat.mul_le_mul_left _ (by omega)
      omega
    interval_cases q <;> omega
  rcases h2 with h2 | h2
  · unfold divNearestEven
    rw [if_neg (by omega)]
    split
    · omega
    · next hc => omega
  · exfalso
    have hk : divNearestEven num den = num / den := by
      unfold divNearestEven
      rw [if_neg (by omega), if_neg (by omega)]
    rw [hk] at hs hj
    rw [h2] at e
    apply hj
    have : j * den = (num / den : Nat) * (den : Int) := by push_cast at *; linarith
    exact Int.eq_of_mul_eq_mul_right (by omega) this

/-! ### The units of a pattern -/

theorem f64Binade_eq : f64Binade = 2 ^ 52 := by decide

theorem f64Units_subnormal {m : Nat} (h : m < f64Binade) : f64Units m = m := by simp [f64Units, h]

/-- A pattern in the binade of exponent `s` with significand `k`, up to the next binade's first. -/
theorem f64Units_scaled {s k : Nat} (hlo : f64Binade ≤ k) (hhi : k ≤ 2 * f64Binade) :
    f64Units (s * f64Binade + k) = k * 2 ^ s := by
  have hb : 0 < f64Binade := by decide
  unfold f64Units
  rw [if_neg (by nlinarith [Nat.zero_le (s * f64Binade)])]
  rcases Nat.lt_or_eq_of_le hhi with h | h
  · have h1 : (s * f64Binade + k) / f64Binade = s + 1 := by
      rw [Nat.mul_comm, Nat.mul_add_div hb]
      congr 1
      rw [Nat.div_eq_of_lt_le] <;> omega
    have h2 : (s * f64Binade + k) % f64Binade = k - f64Binade := by
      rw [Nat.mul_comm, Nat.mul_add_mod]
      rw [Nat.mod_eq_sub_mod hlo, Nat.mod_eq_of_lt (by omega)]
    rw [h1, h2, Nat.add_sub_cancel, Nat.add_sub_cancel' hlo]
  · subst h
    have h1 : (s * f64Binade + 2 * f64Binade) / f64Binade = s + 2 := by
      rw [← Nat.add_mul, Nat.mul_div_cancel _ hb]
    have h2 : (s * f64Binade + 2 * f64Binade) % f64Binade = 0 := by
      rw [← Nat.add_mul, Nat.mul_mod_left]
    rw [h1, h2]
    have : s + 2 - 1 = s + 1 := by omega
    rw [this, Nat.pow_succ]; ring

/-- Every pattern is a subnormal one or lies in a binade. -/
theorem f64Mag_cases (m : Nat) :
    m < f64Binade ∨ ∃ s k, f64Binade ≤ k ∧ k < 2 * f64Binade ∧ m = s * f64Binade + k := by
  have hb : 0 < f64Binade := by decide
  rcases Nat.lt_or_ge m f64Binade with h | h
  · exact .inl h
  · refine .inr ⟨m / f64Binade - 1, f64Binade + m % f64Binade, by omega, ?_, ?_⟩
    · have := Nat.mod_lt m hb; omega
    · have h1 : 1 ≤ m / f64Binade := (Nat.one_le_div_iff hb).mpr h
      have h2 := Nat.div_add_mod' m f64Binade
      have h3 : (m / f64Binade - 1) * f64Binade + f64Binade = m / f64Binade * f64Binade := by
        conv_rhs => rw [show m / f64Binade = (m / f64Binade - 1) + 1 by omega]
        rw [Nat.add_mul, Nat.one_mul]
      omega

/-! ### Rounding -/

/-- Where the exact value lies against its binade. -/
theorem f64Scale_spec {num den : Nat} (hd : 0 < den) :
    (f64Scale num den = 0 ∧ num < 2 * f64Binade * den) ∨
    (f64Binade * 2 ^ f64Scale num den * den ≤ num ∧
      num < 2 * f64Binade * 2 ^ f64Scale num den * den) := by
  have hb := f64Binade_eq
  unfold f64Scale
  rcases Nat.lt_or_ge (num / den) (2 ^ 53) with h | h
  · left
    constructor
    · rcases Nat.eq_zero_or_pos (num / den) with h0 | h0
      · rw [h0]; decide
      · have := (Nat.log2_lt (by omega)).mpr h
        omega
    · have := (Nat.div_lt_iff_lt_mul hd).mp h
      rw [hb]; linarith
  · right
    have h0 : num / den ≠ 0 := by omega
    have hl : 53 ≤ Nat.log2 (num / den) := (Nat.le_log2 h0).mpr h
    have h1 : 2 ^ Nat.log2 (num / den) ≤ num / den := Nat.log2_self_le h0
    have h2 : num / den < 2 ^ (Nat.log2 (num / den) + 1) := Nat.lt_log2_self
    generalize Nat.log2 (num / den) = l at *
    have e1 : f64Binade * 2 ^ (l - 52) = 2 ^ l := by
      rw [hb, ← Nat.pow_add]; congr 1; omega
    have e2 : 2 * f64Binade * 2 ^ (l - 52) = 2 ^ (l + 1) := by
      rw [Nat.mul_assoc, e1, Nat.pow_succ, Nat.mul_comm]
    rw [e1, e2]
    exact ⟨(Nat.le_div_iff_mul_le hd).mp h1, (Nat.div_lt_iff_lt_mul hd).mp h2⟩

/-- The significand rounding picks lies in its binade, or is the next one's first. -/
theorem f64Round_significand {num den : Nat} (hd : 0 < den) :
    divNearestEven num (den * 2 ^ f64Scale num den) ≤ 2 * f64Binade ∧
    (f64Scale num den = 0 ∨ f64Binade ≤ divNearestEven num (den * 2 ^ f64Scale num den)) := by
  have hD : 0 < den * 2 ^ f64Scale num den := Nat.mul_pos hd (Nat.two_pow_pos _)
  have up : ∀ j, num ≤ j * (den * 2 ^ f64Scale num den) →
      divNearestEven num (den * 2 ^ f64Scale num den) ≤ j := fun j h => by
    simpa [divNearestEven_mul hD] using divNearestEven_mono (den := den * 2 ^ f64Scale num den) h
  have dn : ∀ j, j * (den * 2 ^ f64Scale num den) ≤ num →
      j ≤ divNearestEven num (den * 2 ^ f64Scale num den) := fun j h => by
    simpa [divNearestEven_mul hD] using divNearestEven_mono (den := den * 2 ^ f64Scale num den) h
  rcases f64Scale_spec (num := num) hd with ⟨h0, h⟩ | ⟨hlo, hhi⟩
  · refine ⟨up _ ?_, .inl h0⟩
    rw [h0]; simpa using h.le
  · refine ⟨up _ ?_, .inr (dn _ ?_)⟩
    · calc num ≤ 2 * f64Binade * 2 ^ f64Scale num den * den := hhi.le
        _ = _ := by ring
    · calc f64Binade * (den * 2 ^ f64Scale num den)
          = f64Binade * 2 ^ f64Scale num den * den := by ring
        _ ≤ num := hlo

/-- The units of the rounded pattern, before the clamp to infinity. -/
theorem f64Units_round {num den : Nat} (hd : 0 < den) :
    f64Units (f64Scale num den * f64Binade + divNearestEven num (den * 2 ^ f64Scale num den)) =
      divNearestEven num (den * 2 ^ f64Scale num den) * 2 ^ f64Scale num den := by
  obtain ⟨hhi, hlo⟩ := f64Round_significand (num := num) hd
  rcases hlo with h0 | hlo
  · rw [h0] at hhi ⊢
    rcases Nat.lt_or_ge (divNearestEven num (den * 2 ^ 0)) f64Binade with h | h
    · rw [Nat.zero_mul, Nat.zero_add, f64Units_subnormal h]; simp
    · exact f64Units_scaled h hhi
  · exact f64Units_scaled hlo hhi

/-- Rounding keeps the order. -/
theorem f64Round_mono {a b den : Nat} (hd : 0 < den) (h : a ≤ b) : f64Round a den ≤ f64Round b den := by
  unfold f64Round
  refine min_le_min le_rfl ?_
  have hs : f64Scale a den ≤ f64Scale b den := by
    unfold f64Scale
    have hq : a / den ≤ b / den := Nat.div_le_div_right h
    refine Nat.sub_le_sub_right ?_ _
    rcases Nat.eq_zero_or_pos (a / den) with h0 | h0
    · rw [h0]; simp [Nat.log2_zero]
    · rw [Nat.le_log2 (by omega)]
      exact (Nat.log2_self_le (by omega)).trans hq
  rcases Nat.lt_or_eq_of_le hs with hlt | heq
  · obtain ⟨ha, -⟩ := f64Round_significand (num := a) hd
    obtain ⟨-, hb⟩ := f64Round_significand (num := b) hd
    have hb' : f64Binade ≤ divNearestEven b (den * 2 ^ f64Scale b den) := by
      rcases hb with hb | hb
      · omega
      · exact hb
    have : (f64Scale a den + 1) * f64Binade ≤ f64Scale b den * f64Binade :=
      Nat.mul_le_mul_right _ hlt
    rw [Nat.add_mul, Nat.one_mul] at this
    omega
  · rw [heq]
    exact Nat.add_le_add_left (divNearestEven_mono h) _

/-- A finite value rounds to its own pattern. -/
theorem f64Round_units {m den : Nat} (hd : 0 < den) (h : m < f64InfMag) :
    f64Round (f64Units m * den) den = m := by
  have hb := f64Binade_eq
  unfold f64Round
  have key : f64Scale (f64Units m * den) den * f64Binade +
      divNearestEven (f64Units m * den) (den * 2 ^ f64Scale (f64Units m * den) den) = m := by
    have hsc : f64Scale (f64Units m * den) den = Nat.log2 (f64Units m) - 52 := by
      unfold f64Scale; rw [Nat.mul_div_cancel _ hd]
    rw [hsc]
    rcases f64Mag_cases m with hm | ⟨s, k, hlo, hhi, rfl⟩
    · rw [f64Units_subnormal hm]
      have h0 : Nat.log2 m - 52 = 0 := by
        rcases Nat.eq_zero_or_pos m with h0 | h0
        · rw [h0]; decide
        · have := (Nat.log2_lt (n := m) (k := 52) (by omega)).mpr (by omega)
          omega
      rw [h0, Nat.zero_mul, Nat.zero_add, Nat.pow_zero, Nat.mul_one, divNearestEven_mul hd]
    · rw [f64Units_scaled hlo hhi.le]
      have hk : Nat.log2 (k * 2 ^ s) = s + 52 := by
        have h0 : k * 2 ^ s ≠ 0 := by
          have := Nat.two_pow_pos s
          have : 0 < k := by omega
          positivity
        rw [Nat.log2_eq_iff h0]
        constructor
        · rw [Nat.pow_add, Nat.mul_comm]; gcongr; omega
        · have : 2 ^ (s + 52 + 1) = (2 * 2 ^ 52) * 2 ^ s := by
            rw [Nat.pow_succ, Nat.pow_add]; ring
          rw [this]
          exact Nat.mul_lt_mul_of_pos_right (by omega) (Nat.two_pow_pos s)
      rw [hk, Nat.add_sub_cancel]
      congr 1
      have : k * 2 ^ s * den = k * (den * 2 ^ s) := by ring
      rw [this]
      exact divNearestEven_mul (Nat.mul_pos hd (Nat.two_pow_pos _)) k
  rw [key]
  exact min_eq_right h.le

/-- The pattern before the clamp is the rounded one where that is finite. -/
theorem f64Round_eq_of_lt {num den : Nat} (hf : f64Round num den < f64InfMag) :
    f64Round num den = f64Scale num den * f64Binade + divNearestEven num (den * 2 ^ f64Scale num den) := by
  unfold f64Round at hf ⊢
  exact min_eq_right (by
    by_contra hc
    rw [min_eq_left (by omega)] at hf
    exact absurd hf (lt_irrefl _))

/-- The units of a finite pattern are a whole multiple of the rounding step, or lie below the exact value's binade. -/
theorem f64Units_step (m s : Nat) :
    (∃ j : Nat, f64Units m = j * 2 ^ s) ∨ f64Units m < f64Binade * 2 ^ s := by
  rcases f64Mag_cases m with hm | ⟨t, k, hlo, hhi, rfl⟩
  · right
    rw [f64Units_subnormal hm]
    exact lt_of_lt_of_le hm (Nat.le_mul_of_pos_right _ (Nat.two_pow_pos _))
  · rw [f64Units_scaled hlo hhi.le]
    rcases Nat.lt_or_ge t s with h | h
    · right
      calc k * 2 ^ t < 2 * f64Binade * 2 ^ t := Nat.mul_lt_mul_of_pos_right hhi (Nat.two_pow_pos _)
        _ = f64Binade * 2 ^ (t + 1) := by rw [Nat.pow_succ]; ring
        _ ≤ _ := Nat.mul_le_mul_left _ (Nat.pow_le_pow_right (by decide) h)
    · left
      exact ⟨k * 2 ^ (t - s), by rw [Nat.mul_assoc, ← Nat.pow_add, Nat.sub_add_cancel h]⟩

/-- A finite rounded value is as near the exact one as any finite value. -/
theorem f64Round_nearest {num den : Nat} (hd : 0 < den) (hf : f64Round num den < f64InfMag) (m : Nat) :
    |(f64Units (f64Round num den) * den : Int) - num| ≤ |(f64Units m * den : Int) - num| := by
  have hD : 0 < den * 2 ^ f64Scale num den := Nat.mul_pos hd (Nat.two_pow_pos _)
  have near : ∀ j : Nat, |(f64Units (f64Round num den) * den : Int) - num| ≤
      |((j * 2 ^ f64Scale num den : Nat) * den : Int) - num| := by
    intro j
    have := divNearestEven_nearest hD num j
    rw [f64Round_eq_of_lt hf, f64Units_round hd]
    push_cast at this ⊢
    convert this using 3 <;> ring
  rcases f64Units_step m (f64Scale num den) with ⟨j, hj⟩ | hlt
  · rw [hj]; exact near j
  · rcases f64Scale_spec (num := num) hd with ⟨h0, -⟩ | ⟨hlo, -⟩
    · have := near (f64Units m)
      rwa [h0, Nat.pow_zero, Nat.mul_one] at this
    · refine (near f64Binade).trans ?_
      have h1 : ((f64Binade * 2 ^ f64Scale num den : Nat) * den : Int) ≤ num := by exact_mod_cast hlo
      have h2 : (f64Units m * den : Int) ≤ (f64Binade * 2 ^ f64Scale num den : Nat) * den := by
        exact_mod_cast Nat.mul_le_mul_right den hlt.le
      rw [abs_of_nonpos (by linarith), abs_of_nonpos (by linarith)]
      linarith

/-- Where another finite value is as near, the rounded pattern is even. -/
theorem f64Round_tie_even {num den : Nat} (hd : 0 < den) (hf : f64Round num den < f64InfMag) {m : Nat}
    (hm : f64Units m ≠ f64Units (f64Round num den))
    (ht : |(f64Units m * den : Int) - num| = |(f64Units (f64Round num den) * den : Int) - num|) :
    f64Round num den % 2 = 0 := by
  have hD : 0 < den * 2 ^ f64Scale num den := Nat.mul_pos hd (Nat.two_pow_pos _)
  have hb : f64Binade % 2 = 0 := by decide
  have near := f64Round_nearest hd hf
  rw [f64Round_eq_of_lt hf] at *
  rw [f64Units_round hd] at *
  rw [Nat.add_mod, Nat.mul_mod, hb]
  simp only [Nat.mul_zero, Nat.zero_mod, Nat.zero_add, Nat.mod_mod]
  have mult : ∀ j : Nat, f64Units m = j * 2 ^ f64Scale num den →
      divNearestEven num (den * 2 ^ f64Scale num den) % 2 = 0 := by
    intro j hj
    refine divNearestEven_tie_even hD num (j := j) ?_ ?_
    · intro h
      apply hm
      rw [hj]; congr 1; exact_mod_cast h
    · rw [hj] at ht
      push_cast at ht ⊢
      convert ht using 2 <;> ring
  rcases f64Units_step m (f64Scale num den) with ⟨j, hj⟩ | hlt
  · exact mult j hj
  · rcases f64Scale_spec (num := num) hd with ⟨h0, -⟩ | ⟨hlo, -⟩
    · exact mult (f64Units m) (by rw [h0]; simp)
    · exfalso
      have h3 := near (f64Scale num den * f64Binade + f64Binade)
      rw [f64Units_scaled (le_refl _) (by omega)] at h3
      have h1 : ((f64Binade * 2 ^ f64Scale num den : Nat) * den : Int) ≤ num := by exact_mod_cast hlo
      have h2 : (f64Units m * den : Int) < (f64Binade * 2 ^ f64Scale num den : Nat) * den := by
        exact_mod_cast Nat.mul_lt_mul_of_pos_right hlt hd
      rw [← ht, abs_of_nonpos (by linarith), abs_of_nonpos (by linarith)] at h3
      linarith

/-- The rounded pattern is finite below the largest finite value and half its last place. -/
theorem f64Round_lt_iff {num den : Nat} (hd : 0 < den) :
    f64Round num den < f64InfMag ↔ num < (2 ^ 54 - 1) * 2 ^ 2044 * den := by
  have hb := f64Binade_eq
  have hi : f64InfMag = 2047 * f64Binade := by decide
  obtain ⟨T, hT⟩ : ∃ T, (2 : Nat) ^ 2044 = T := ⟨_, rfl⟩
  have hp : (2 : Nat) ^ 2045 = 2 * T := by rw [← hT, ← Nat.pow_succ']
  rw [hT]
  have pos : ∀ e, 0 < den * 2 ^ e := fun _ => Nat.mul_pos hd (Nat.two_pow_pos _)
  have pw : ∀ {a b : Nat}, a ≤ b → 2 ^ a ≤ 2 ^ b := fun h => Nat.pow_le_pow_right (by decide) h
  constructor
  · intro hf
    have h1 := f64Round_eq_of_lt hf
    by_contra hc
    have hge : (2 ^ 54 - 1) * T * den ≤ num := by omega
    obtain ⟨hhi, hlo⟩ := f64Round_significand (num := num) hd
    have hs := f64Scale_spec (num := num) hd
    -- the scale is at least 2045
    have hsc : 2045 ≤ f64Scale num den := by
      by_contra hlt
      have hle := pw (b := 2044) (Nat.le_of_lt_succ (Nat.lt_of_not_le hlt))
      rw [hT] at hle
      have hup : num < 2 * f64Binade * 2 ^ f64Scale num den * den := by
        rcases hs with ⟨h0, h⟩ | ⟨-, h⟩
        · rw [h0]; simpa using h
        · exact h
      have : 2 * f64Binade * 2 ^ f64Scale num den * den ≤ (2 ^ 54 - 1) * T * den :=
        Nat.mul_le_mul_right _ (Nat.mul_le_mul (by rw [hb]; omega) hle)
      omega
    have h2 : f64Scale num den < 2046 := by
      by_contra h
      have : 2046 * f64Binade ≤ f64Scale num den * f64Binade := Nat.mul_le_mul_right _ (by omega)
      rcases hlo with h0 | h0 <;> omega
    have h3 : f64Scale num den = 2045 := by omega
    rw [h3] at h1 hlo
    have hD := pos 2045
    have hk : divNearestEven num (den * 2 ^ 2045) < 2 ^ 53 := by
      have : 2 ^ 53 = 2 * f64Binade := by rw [hb]; norm_num
      omega
    have hge2 : (2 ^ 54 - 1) * (den * 2 ^ 2045) ≤ 2 * num := by
      rw [hp]; calc _ = 2 * ((2 ^ 54 - 1) * T * den) := by ring
        _ ≤ _ := by omega
    generalize den * 2 ^ 2045 = D at *
    have e := Nat.div_add_mod' num D
    have hm := Nat.mod_lt num hD
    unfold divNearestEven at hk
    have hq : 2 ^ 53 - 1 ≤ num / D := by
      rw [Nat.le_div_iff_mul_le hD]
      have : (2 ^ 54 - 1) * D = 2 * ((2 ^ 53 - 1) * D) + D := by omega
      omega
    split at hk
    · omega
    · split at hk
      · omega
      · next c1 c2 =>
        have hq2 : num / D = 2 ^ 53 - 1 := by omega
        rw [hq2] at e c2
        apply c2
        constructor
        · omega
        · decide
  · intro hlt
    have hs := f64Scale_spec (num := num) hd
    obtain ⟨hhi, hlo⟩ := f64Round_significand (num := num) hd
    have hsc : f64Scale num den ≤ 2045 := by
      by_contra hc
      rcases hs with ⟨h0, -⟩ | ⟨h, -⟩
      · omega
      · have hle := pw (a := 2046) (b := f64Scale num den) (by omega)
        have : f64Binade * 2 ^ 2046 * den ≤ num :=
          le_trans (Nat.mul_le_mul_right _ (Nat.mul_le_mul_left _ hle)) h
        have h4 : (2 : Nat) ^ 2046 = 4 * T := by
          have : (2 : Nat) ^ 2046 = 2 * 2 ^ 2045 := by rw [← Nat.pow_succ']
          omega
        rw [h4] at this
        have : (2 ^ 54 - 1) * T * den ≤ f64Binade * (4 * T) * den :=
          Nat.mul_le_mul_right _ (by rw [hb]; omega)
        omega
    unfold f64Round
    rw [min_lt_iff]
    right
    rcases Nat.lt_or_eq_of_le hsc with h | h
    · have : f64Scale num den * f64Binade ≤ 2044 * f64Binade := Nat.mul_le_mul_right _ (by omega)
      have : 0 < f64Binade := by decide
      omega
    · rw [h] at hhi ⊢
      have hD := pos 2045
      have hlt2 : 2 * num < (2 ^ 54 - 1) * (den * 2 ^ 2045) := by
        rw [hp]; calc 2 * num < 2 * ((2 ^ 54 - 1) * T * den) := by omega
          _ = _ := by ring
      generalize den * 2 ^ 2045 = D at *
      have e := Nat.div_add_mod' num D
      have hq : num / D < 2 ^ 53 := by
        rw [Nat.div_lt_iff_lt_mul hD]; omega
      have : divNearestEven num D < 2 ^ 53 := by
        by_contra hc
        have hq2 : num / D = 2 ^ 53 - 1 ∧ D ≤ 2 * (num % D) := by
          rcases divNearestEven_cases num D with ⟨h1, h2⟩ | ⟨h1, h2⟩
          · omega
          · exact ⟨by omega, h2⟩
        rw [hq2.1] at e
        omega
      rw [hb] at hi ⊢
      omega

/-- The remainder of two finite values' units is a finite value's units. -/
theorem f64Units_mod {a b : Nat} (ha : a < f64InfMag) (hb : b < f64InfMag) (h0 : 0 < f64Units b) :
    ∃ m, m < f64InfMag ∧ f64Units m = f64Units a % f64Units b := by
  have hp : 0 < f64Binade := by decide
  -- a significand below 2^53, scaled as `b` is, is the units of a pattern no larger than `b`
  have rep : ∀ s k r, f64Binade ≤ k → k < 2 * f64Binade → r < k →
      s * f64Binade + k < f64InfMag → ∃ m, m < f64InfMag ∧ f64Units m = r * 2 ^ s := by
    intro s
    induction s with
    | zero =>
      intro k r h1 h2 h3 h4
      refine ⟨r, by omega, ?_⟩
      rcases Nat.lt_or_ge r f64Binade with h | h
      · rw [f64Units_subnormal h]; simp
      · have := f64Units_scaled (s := 0) h (by omega : r ≤ 2 * f64Binade)
        simpa using this
    | succ s ih =>
      intro k r h1 h2 h3 h4
      rcases Nat.lt_or_ge r f64Binade with h | h
      · have hs : (s + 1) * f64Binade = s * f64Binade + f64Binade := by ring
        rcases Nat.lt_or_ge (2 * r) f64Binade with h5 | h5
        · obtain ⟨m, m1, m2⟩ := ih f64Binade (2 * r) (le_refl _) (by omega) h5 (by omega)
          exact ⟨m, m1, by rw [m2, Nat.pow_succ]; ring⟩
        · obtain ⟨m, m1, m2⟩ : ∃ m, m < f64InfMag ∧ f64Units m = 2 * r * 2 ^ s :=
            ⟨s * f64Binade + 2 * r, by omega, f64Units_scaled h5 (by omega)⟩
          exact ⟨m, m1, by rw [m2, Nat.pow_succ]; ring⟩
      · exact ⟨(s + 1) * f64Binade + r, by omega, f64Units_scaled h (by omega)⟩
  rcases f64Mag_cases b with hs | ⟨t, l, h3, h4, rfl⟩
  · rw [f64Units_subnormal hs] at *
    exact ⟨f64Units a % b, by have := Nat.mod_lt (f64Units a) h0; omega, by
      rw [f64Units_subnormal]; have := Nat.mod_lt (f64Units a) h0; omega⟩
  · rw [f64Units_scaled h3 h4.le] at *
    rcases f64Units_step a t with ⟨j, hj⟩ | hlt
    · rw [hj, Nat.mul_mod_mul_right]
      exact rep t l (j % l) h3 h4 (Nat.mod_lt _ (by omega)) hb
    · have : f64Units a < l * 2 ^ t := lt_of_lt_of_le hlt (Nat.mul_le_mul_right _ h3)
      exact ⟨a, ha, (Nat.mod_eq_of_lt this).symm⟩

end Sys2Proof.Machine
end

