-- ==== Sys2Proof/Laws/FloatOrder.lean ====
section
/-! SUPPORT. Sign, magnitude, order and value of binary64, and what each operation does to them. -/

namespace Sys2Proof.Machine

/-! ### Sign and magnitude -/

theorem F64.mag_lt (a : F64) : F64.mag a < 0x8000000000000000 := Nat.mod_lt _ (by decide)

theorem F64.toNat_ofSignMag (neg : Bool) {m : Nat} (h : m < 0x8000000000000000) :
    (F64.ofSignMag neg m).toNat = if neg then 0x8000000000000000 + m else m := by
  unfold F64.ofSignMag
  rw [BitVec.toNat_ofNat, Nat.mod_eq_of_lt]
  split <;> omega

theorem F64.mag_ofSignMag (neg : Bool) {m : Nat} (h : m < 0x8000000000000000) :
    F64.mag (F64.ofSignMag neg m) = m := by
  unfold F64.mag
  rw [F64.toNat_ofSignMag neg h]
  split <;> omega

theorem F64.sign_eq (a : F64) : F64.sign a = decide (0x8000000000000000 ≤ a.toNat) := by
  unfold F64.sign
  rw [BitVec.getLsbD, Nat.testBit, Nat.shiftRight_eq_div_pow]
  have := a.isLt
  rcases Nat.lt_or_ge a.toNat 0x8000000000000000 with h | h
  · have h1 : a.toNat / 2 ^ 63 = 0 := Nat.div_eq_of_lt (by omega)
    rw [h1]; simp [h]
  · have h1 : a.toNat / 2 ^ 63 = 1 := by omega
    rw [h1]; simp [h]

theorem F64.sign_ofSignMag (neg : Bool) {m : Nat} (h : m < 0x8000000000000000) :
    F64.sign (F64.ofSignMag neg m) = neg := by
  rw [F64.sign_eq, F64.toNat_ofSignMag neg h]
  cases neg
  · simp; omega
  · simp

/-- A pattern is its sign and its magnitude. -/
theorem F64.ofSignMag_eta (a : F64) : F64.ofSignMag (F64.sign a) (F64.mag a) = a := by
  apply BitVec.eq_of_toNat_eq
  rw [F64.toNat_ofSignMag _ (F64.mag_lt a), F64.sign_eq]
  have := a.isLt
  unfold F64.mag
  rcases Nat.lt_or_ge a.toNat 0x8000000000000000 with h | h
  · have : ¬ 0x8000000000000000 ≤ a.toNat := by omega
    simp only [this, decide_false, Bool.false_eq_true, if_false]; omega
  · simp only [h, decide_true, if_true]; omega

theorem f64Round_le (num den : Nat) : f64Round num den ≤ f64InfMag := min_le_left _ _

theorem f64Round_lt (num den : Nat) : f64Round num den < 0x8000000000000000 :=
  lt_of_le_of_lt (f64Round_le num den) (by decide)

/-! ### Units -/

/-- A larger finite pattern has more units. -/
theorem f64Units_lt {a b : Nat} (h : a < b) (hb : b < f64InfMag) : f64Units a < f64Units b := by
  by_contra hc
  have := f64Round_mono (den := 1) Nat.one_pos (a := f64Units b * 1) (b := f64Units a * 1) (by omega)
  rw [f64Round_units Nat.one_pos hb, f64Round_units Nat.one_pos (h.trans hb)] at this
  omega

theorem f64Units_mono {a b : Nat} (h : a ≤ b) (hb : b < f64InfMag) : f64Units a ≤ f64Units b := by
  rcases Nat.lt_or_eq_of_le h with h | h
  · exact (f64Units_lt h hb).le
  · rw [h]

theorem f64Units_zero : f64Units 0 = 0 := by decide

theorem f64Units_pos {m : Nat} (h : 0 < m) (hf : m < f64InfMag) : 0 < f64Units m := by
  simpa [f64Units_zero] using f64Units_lt h hf

theorem f64Round_zero (den : Nat) : f64Round 0 den = 0 := by
  simp [f64Round, f64Scale, divNearestEven_zero_num, Nat.log2_zero]

/-! ### Classes -/

theorem F64.finite_iff {a : F64} : F64.finite a = true ↔ F64.mag a < f64InfMag := by simp [F64.finite]

theorem F64.not_isNaN_of_finite {a : F64} (h : F64.finite a = true) : F64.isNaN a = false := by
  have := F64.finite_iff.mp h
  simp [F64.isNaN]; omega

theorem F64.not_isInf_of_finite {a : F64} (h : F64.finite a = true) : F64.isInf a = false := by
  have := F64.finite_iff.mp h
  simp [F64.isInf]; omega

theorem F64.nanOf_isNaN (op : Nat) (a b : F64) : F64.isNaN (F64.nanOf op a b) = true := by
  unfold F64.isNaN F64.nanOf F64.mag
  generalize (Config.nanBits op a b).extractLsb' 51 1 = s
  generalize (Config.nanBits op a b).extractLsb' 0 51 = p
  simp only [decide_eq_true_eq]
  have hs := s.isLt
  have hp := p.isLt
  have e : ((s ++ 0xFFF#12) ++ p : BitVec 64).toNat = (s.toNat * 2 ^ 12 + 0xFFF) * 2 ^ 51 + p.toNat := by
    have h1 : ((s ++ 0xFFF#12) ++ p : BitVec (1 + 12 + 51)).toNat =
        (s ++ 0xFFF#12).toNat <<< 51 ||| p.toNat := BitVec.toNat_append _ _
    have h2 : (s ++ 0xFFF#12).toNat = s.toNat <<< 12 ||| (0xFFF#12).toNat := BitVec.toNat_append _ _
    refine h1.trans ?_
    rw [h2, ← Nat.shiftLeft_add_eq_or_of_lt hp, ← Nat.shiftLeft_add_eq_or_of_lt (by decide)]
    simp [Nat.shiftLeft_eq]
  rw [e]
  unfold f64InfMag
  rcases Nat.lt_or_ge s.toNat 1 with h | h
  · have : s.toNat = 0 := by omega
    rw [this]; omega
  · have : s.toNat = 1 := by omega
    rw [this]; omega

theorem F64.finite_ofSignMag (neg : Bool) {m : Nat} (h : m < 0x8000000000000000) :
    F64.finite (F64.ofSignMag neg m) = decide (m < f64InfMag) := by
  simp [F64.finite, F64.mag_ofSignMag neg h]

theorem F64.isNaN_ofSignMag_round (neg : Bool) (num den : Nat) :
    F64.isNaN (F64.ofSignMag neg (f64Round num den)) = false := by
  have := f64Round_le num den
  simp [F64.isNaN, F64.mag_ofSignMag neg (f64Round_lt num den)]; omega

/-! ### Order and value -/

theorem F64.ord_ofSignMag (neg : Bool) {m : Nat} (h : m < 0x8000000000000000) :
    F64.ord (F64.ofSignMag neg m) = if neg then - (m : Int) else (m : Int) := by
  simp [F64.ord, F64.sign_ofSignMag neg h, F64.mag_ofSignMag neg h]

/-- The order of finite values is the order of their units. -/
theorem F64.ord_le_iff {a b : F64} (ha : F64.finite a = true) (hb : F64.finite b = true) :
    F64.ord a ≤ F64.ord b ↔ F64.val a ≤ F64.val b := by
  have ha := F64.finite_iff.mp ha
  have hb := F64.finite_iff.mp hb
  unfold F64.ord F64.val
  have lt1 : F64.mag a < F64.mag b → f64Units (F64.mag a) < f64Units (F64.mag b) := fun h => f64Units_lt h hb
  have lt2 : F64.mag b < F64.mag a → f64Units (F64.mag b) < f64Units (F64.mag a) := fun h => f64Units_lt h ha
  have z1 : 0 < F64.mag a → 0 < f64Units (F64.mag a) := fun h => f64Units_pos h ha
  have z2 : 0 < F64.mag b → 0 < f64Units (F64.mag b) := fun h => f64Units_pos h hb
  have e : F64.mag a = F64.mag b → f64Units (F64.mag a) = f64Units (F64.mag b) := fun h => by rw [h]
  have y1 : F64.mag a = 0 → f64Units (F64.mag a) = 0 := fun h => by rw [h]; exact f64Units_zero
  have y2 : F64.mag b = 0 → f64Units (F64.mag b) = 0 := fun h => by rw [h]; exact f64Units_zero
  cases F64.sign a <;> cases F64.sign b <;> simp only [if_true, if_false, Bool.false_eq_true] <;> omega

/-- A rounded whole number of units keeps the order. -/
theorem F64.ord_ofUnits_mono {z w : Int} (h : z ≤ w) (n m : Bool) :
    F64.ord (F64.ofUnits z n) ≤ F64.ord (F64.ofUnits w m) := by
  have o : ∀ (z : Int) (n : Bool), F64.ord (F64.ofUnits z n) =
      if z < 0 then - (f64Round z.natAbs 1 : Int) else (f64Round z.natAbs 1 : Int) := by
    intro z n
    unfold F64.ofUnits
    split
    · next h0 =>
      subst h0
      rw [F64.zero, F64.ord_ofSignMag n (by decide)]
      simp [f64Round_zero]
    · rw [F64.ord_ofSignMag _ (f64Round_lt _ _)]
      simp
  rw [o, o]
  have mono : ∀ {a b : Nat}, a ≤ b → f64Round a 1 ≤ f64Round b 1 := fun h => f64Round_mono Nat.one_pos h
  split
  · split
    · have : f64Round w.natAbs 1 ≤ f64Round z.natAbs 1 := mono (by omega)
      omega
    · omega
  · split
    · omega
    · have : f64Round z.natAbs 1 ≤ f64Round w.natAbs 1 := mono (by omega)
      omega

theorem F64.val_ofSignMag (neg : Bool) {m : Nat} (h : m < 0x8000000000000000) :
    F64.val (F64.ofSignMag neg m) = if neg then - (f64Units m : Int) else (f64Units m : Int) := by
  simp [F64.val, F64.sign_ofSignMag neg h, F64.mag_ofSignMag neg h]

theorem F64.natAbs_val (a : F64) : (F64.val a).natAbs = f64Units (F64.mag a) := by
  unfold F64.val; split <;> omega

/-- The value of a finite pattern rounds to a pattern of the same place. -/
theorem F64.ord_ofUnits_val {a : F64} (h : F64.finite a = true) (n : Bool) :
    F64.ord (F64.ofUnits (F64.val a) n) = F64.ord a := by
  have hm := F64.finite_iff.mp h
  have hr : f64Round (f64Units (F64.mag a)) 1 = F64.mag a := by
    simpa using f64Round_units Nat.one_pos hm
  unfold F64.ofUnits
  split
  · next h0 =>
    have : F64.mag a = 0 := by
      by_contra hc
      have := f64Units_pos (Nat.pos_of_ne_zero hc) hm
      have := F64.natAbs_val a
      omega
    rw [F64.zero, F64.ord_ofSignMag n (by decide)]
    simp [F64.ord, this]
  · next h0 =>
    rw [F64.natAbs_val, hr, F64.ord_ofSignMag _ (F64.mag_lt a)]
    unfold F64.ord
    have : decide (F64.val a < 0) = F64.sign a := by
      unfold F64.val at h0 ⊢
      cases hs : F64.sign a
      · simp
      · simp [hs] at h0 ⊢; omega
    rw [this]

theorem F64.add_of_finite {a b : F64} (ha : F64.finite a = true) (hb : F64.finite b = true) :
    F64.add a b = F64.ofUnits (F64.val a + F64.val b) (F64.sign a && F64.sign b) := by
  simp [F64.add, F64.not_isNaN_of_finite ha, F64.not_isNaN_of_finite hb, F64.not_isInf_of_finite ha,
    F64.not_isInf_of_finite hb]

theorem F64.mul_of_finite {a b : F64} (ha : F64.finite a = true) (hb : F64.finite b = true) :
    F64.mul a b = F64.ofSignMag (F64.sign a != F64.sign b)
      (f64Round (f64Units (F64.mag a) * f64Units (F64.mag b)) f64One) := by
  simp [F64.mul, F64.not_isNaN_of_finite ha, F64.not_isNaN_of_finite hb, F64.not_isInf_of_finite ha,
    F64.not_isInf_of_finite hb]

theorem F64.div_of_finite {a b : F64} (ha : F64.finite a = true) (hb : F64.finite b = true)
    (h0 : F64.mag b ≠ 0) :
    F64.div a b = F64.ofSignMag (F64.sign a != F64.sign b)
      (f64Round (f64Units (F64.mag a) * f64One) (f64Units (F64.mag b))) := by
  simp [F64.div, F64.not_isNaN_of_finite ha, F64.not_isNaN_of_finite hb, F64.not_isInf_of_finite ha,
    F64.not_isInf_of_finite hb, h0]

theorem F64.fmod_of_finite {a b : F64} (ha : F64.finite a = true) (hb : F64.finite b = true)
    (h0 : F64.mag b ≠ 0) :
    F64.fmod a b =
      F64.ofSignMag (F64.sign a) (f64Round (f64Units (F64.mag a) % f64Units (F64.mag b)) 1) := by
  simp [F64.fmod, F64.not_isNaN_of_finite ha, F64.not_isNaN_of_finite hb, F64.not_isInf_of_finite ha,
    F64.not_isInf_of_finite hb, h0]

theorem F64.one_units : f64Units (F64.mag F64.one) = f64One := by decide +kernel

/-- `1.0 * a = a`. -/
theorem F64.one_mul {a : F64} (h : F64.finite a = true) : F64.mul F64.one a = a := by
  rw [F64.mul_of_finite (by decide) h, F64.one_units, Nat.mul_comm,
    f64Round_units (by unfold f64One; positivity) (F64.finite_iff.mp h)]
  have : F64.sign F64.one = false := by decide
  rw [this]
  simpa using F64.ofSignMag_eta a

/-- `a * 1.0 = a`. -/
theorem F64.mul_one {a : F64} (h : F64.finite a = true) : F64.mul a F64.one = a := by
  rw [F64.mul_of_finite h (by decide), F64.one_units,
    f64Round_units (by unfold f64One; positivity) (F64.finite_iff.mp h)]
  have : F64.sign F64.one = false := by decide
  rw [this]
  simpa using F64.ofSignMag_eta a

theorem F64.lt_iff {a b : F64} : F64.lt a b = true ↔
    F64.isNaN a = false ∧ F64.isNaN b = false ∧ F64.ord a < F64.ord b := by
  simp [F64.lt, and_assoc]

theorem F64.le_iff {a b : F64} : F64.le a b = true ↔
    F64.isNaN a = false ∧ F64.isNaN b = false ∧ F64.ord a ≤ F64.ord b := by
  simp [F64.le, and_assoc]

theorem F64.le_refl {a : F64} (h : F64.isNaN a = false) : F64.le a a = true := F64.le_iff.mpr ⟨h, h, Int.le_refl _⟩

end Sys2Proof.Machine
end

