-- ==== Sys2Proof/Laws/Pll.lean ====
section
/-! SUPPORT. What each operation of the PLL unit can do, said once (44_pll.md R256, R260 to R262). -/

namespace Sys2Proof.Machine

/-! ### Normalisation -/

theorem normalizeDeltas_of_good {x : List F64} (h : ∀ v ∈ x, badDelta v = false) :
    normalizeDeltas x = .ok (x.filter nonzeroDelta) := by
  have : x.any badDelta = false := by
    rw [List.any_eq_false]; intro v hv; simp [h v hv]
  simp [normalizeDeltas, this]

theorem normalizeDeltas_of_bad {x : List F64} (h : ∃ v ∈ x, badDelta v = true) :
    normalizeDeltas x = .error .invalidFluxDelta := by
  have : x.any badDelta = true := List.any_eq_true.mpr h
  simp [normalizeDeltas, this]

theorem normalizeDeltas_ok {x d : List F64} (h : normalizeDeltas x = .ok d) :
    (∀ v ∈ x, badDelta v = false) ∧ d = x.filter nonzeroDelta := by
  unfold normalizeDeltas at h
  split at h
  · cases h
  · next hb => exact ⟨by simpa using hb, by simpa using h.symm⟩

theorem normalizeDeltas_error {x : List F64} {c : FaultCode} (h : normalizeDeltas x = .error c) :
    c = .invalidFluxDelta ∧ ∃ v ∈ x, badDelta v = true := by
  unfold normalizeDeltas at h
  split at h
  · next hb => cases h; exact ⟨rfl, List.any_eq_true.mp hb⟩
  · cases h

/-! ### One delta, every delta -/

/-- Everything one delta can do, when it faults nothing. -/
theorem pllDelta_ok {lo hi kp : F64} {prof : Config.Profile} {r r' : PllRun} {v : F64}
    (h : pllDelta lo hi kp prof r v = .ok r') :
    ∃ time ticks, tickLoop r.period r.acc (F64.add r.last v) tickFuel r.time 0 = some (time, ticks) ∧
      F64.finite (F64.add r.last v) = true ∧ F64.finite r'.time = true ∧ F64.finite r'.acc = true ∧
      r' = afterTicks lo hi kp prof r (F64.add r.last v) time ticks := by
  unfold pllDelta at h
  split at h
  · next hn =>
    split at h
    · cases h
    · next time ticks ht =>
      split at h
      · next hc =>
        cases h
        simp only [Bool.and_eq_true] at hc
        exact ⟨time, ticks, ht, hn, hc.1.1, hc.2, rfl⟩
      · cases h
  · cases h

theorem pllDelta_error {lo hi kp : F64} {prof : Config.Profile} {r : PllRun} {v : F64} {c : FaultCode}
    (h : pllDelta lo hi kp prof r v = .error c) : c = .invalidFluxDelta := by
  unfold pllDelta at h
  split at h
  · split at h
    · cases h; rfl
    · split at h <;> cases h; rfl
  · cases h; rfl

theorem pllDeltas_error {lo hi kp : F64} {prof : Config.Profile} {d : List F64} {r : PllRun}
    {c : FaultCode} (h : pllDeltas lo hi kp prof d r = .error c) : c = .invalidFluxDelta := by
  induction d generalizing r with
  | nil => cases h
  | cons v d ih =>
    unfold pllDeltas at h
    split at h
    · next hd => cases h; exact pllDelta_error hd
    · exact ih h

/-- The one fault of a decode (44_pll.md R261). -/
theorem pllRun_error {u : Pll} {d : List F64} {p0 dp : F64} {prof : Config.Profile} {c : FaultCode}
    (h : pllRun u d p0 dp prof = .error c) : c = .invalidFluxDelta := pllDeltas_error h

/-- What holds of a run at its start and across every delta holds at its end. -/
theorem pllDeltas_induction {lo hi kp : F64} {prof : Config.Profile} {P : PllRun → Prop}
    (step : ∀ r r' v, P r → pllDelta lo hi kp prof r v = .ok r' → P r')
    {d : List F64} {r r' : PllRun} (hr : P r) (h : pllDeltas lo hi kp prof d r = .ok r') : P r' := by
  induction d generalizing r with
  | nil => cases h; exact hr
  | cons v d ih =>
    unfold pllDeltas at h
    split at h
    · cases h
    · next r1 hd => exact ih (step r r1 v hr hd) h

/-! ### The clamp (44_pll.md R262) -/

theorem validCentre_iff {c ma : F64} : validCentre c ma = true ↔
    F64.finite c = true ∧ F64.lt (F64.zero false) c = true ∧ F64.finite ma = true ∧
    F64.le (F64.zero false) ma = true ∧ F64.lt ma F64.one = true ∧
    F64.lt (F64.zero false) (clampLo c ma) = true ∧ F64.finite (clampHi c ma) = true := by
  simp [validCentre, and_assoc]

/-- A clamped value lies between ordered bounds. -/
theorem clampPeriod_bounds {lo hi : F64} (h : F64.le lo hi = true) (p : F64) :
    F64.le lo (clampPeriod lo hi p) = true ∧ F64.le (clampPeriod lo hi p) hi = true := by
  obtain ⟨hl, hh, hle⟩ := F64.le_iff.mp h
  have hm : F64.isNaN (F64.max p lo) = false ∧ F64.ord lo ≤ F64.ord (F64.max p lo) := by
    unfold F64.max
    split
    · exact ⟨hl, Int.le_refl _⟩
    · next hp =>
      rw [hl]
      simp only [Bool.false_eq_true, if_false]
      split
      · exact ⟨hl, Int.le_refl _⟩
      · next hlt =>
        have hp : F64.isNaN p = false := by simpa using hp
        refine ⟨hp, ?_⟩
        by_contra hc
        exact hlt (F64.lt_iff.mpr ⟨hp, hl, by omega⟩)
  unfold clampPeriod
  generalize F64.max p lo = m at hm
  obtain ⟨hm, hml⟩ := hm
  unfold F64.min
  rw [hm, hh]
  simp only [Bool.false_eq_true, if_false]
  split
  · next hlt =>
    exact ⟨h, F64.le_refl hh⟩
  · next hlt =>
    refine ⟨F64.le_iff.mpr ⟨hl, hm, hml⟩, F64.le_iff.mpr ⟨hm, hh, ?_⟩⟩
    by_contra hc
    exact hlt (F64.lt_iff.mpr ⟨hh, hm, by omega⟩)

end Sys2Proof.Machine
end

