-- ==== Sys2Proof/Laws/Clamp.lean ====
section
/-! SUPPORT. Signs and the order of binary64 sums, and the place of a clamp centre between its bounds (44_pll.md R250, R262). -/

namespace Sys2Proof.Machine

theorem F64.ord_zero : F64.ord (F64.zero false) = 0 := by decide

theorem F64.val_one : F64.val F64.one = f64One := by decide +kernel

/-- Negation changes the sign of the value. -/
theorem F64.val_neg (a : F64) : F64.val (F64.neg a) = - F64.val a := by
  unfold F64.neg F64.val
  rw [F64.sign_ofSignMag _ (F64.mag_lt a), F64.mag_ofSignMag _ (F64.mag_lt a)]
  cases F64.sign a <;> simp

theorem F64.finite_neg (a : F64) : F64.finite (F64.neg a) = F64.finite a := by
  unfold F64.neg F64.finite
  rw [F64.mag_ofSignMag _ (F64.mag_lt a)]

/-- A value between zero and a finite one is finite. -/
theorem F64.finite_of_ord_le {a b : F64} (hb : F64.finite b = true)
    (h0 : 0 ≤ F64.ord a) (h : F64.ord a ≤ F64.ord b) : F64.finite a = true := by
  have := F64.finite_iff.mp hb
  rw [F64.finite_iff]
  unfold F64.ord at h h0
  have : (0:Nat) < f64InfMag := by decide
  cases h1 : F64.sign a <;> cases h2 : F64.sign b <;> simp [h1, h2] at h h0 <;> omega

theorem F64.isNaN_ofUnits (z n) : F64.isNaN (F64.ofUnits z n) = false := by
  unfold F64.ofUnits
  split
  · cases n <;> decide
  · exact F64.isNaN_ofSignMag_round _ _ _

/-- The order and the value agree on the sign. -/
theorem F64.ord_nonneg_iff {a : F64} (ha : F64.finite a = true) : 0 ≤ F64.ord a ↔ 0 ≤ F64.val a := by
  have h := F64.ord_le_iff (a := F64.zero false) (by decide) ha
  rw [F64.ord_zero] at h
  have : F64.val (F64.zero false) = 0 := by decide
  rw [this] at h; exact h

theorem F64.sign_of_ord_pos {a : F64} (h : 0 < F64.ord a) : F64.sign a = false ∧ F64.ord a = F64.mag a := by
  unfold F64.ord at *
  cases hs : F64.sign a
  · simp
  · simp [hs] at h; omega

theorem F64.isInf_of_not_finite {a : F64} (h1 : F64.isNaN a = false) (h2 : ¬ F64.finite a = true) : F64.isInf a = true := by
  unfold F64.isNaN at h1
  unfold F64.finite at h2
  unfold F64.isInf
  simp at *; omega

/-- The order of binary64 is transitive. -/
theorem F64.le_of_le_of_le {a b c : F64} (h1 : F64.le a b = true) (h2 : F64.le b c = true) : F64.le a c = true := by
  obtain ⟨a1, a2, a3⟩ := F64.le_iff.mp h1
  obtain ⟨b1, b2, b3⟩ := F64.le_iff.mp h2
  exact F64.le_iff.mpr ⟨a1, b2, by omega⟩

theorem F64.ord_bounds {a : F64} (h : F64.isNaN a = false) : -(f64InfMag : Int) ≤ F64.ord a ∧ F64.ord a ≤ f64InfMag := by
  have : F64.mag a ≤ f64InfMag := by simpa [F64.isNaN] using h
  unfold F64.ord
  split <;> omega

theorem F64.finite_or_isInf {a : F64} (h : F64.isNaN a = false) : F64.finite a = true ∨ F64.isInf a = true := by
  by_cases hf : F64.finite a = true
  · exact .inl hf
  · exact .inr (F64.isInf_of_not_finite h hf)

theorem F64.ord_of_isInf {a : F64} (h : F64.isInf a = true) : F64.ord a = if F64.sign a then -(f64InfMag : Int) else f64InfMag := by
  have : F64.mag a = f64InfMag := by simpa [F64.isInf] using h
  simp [F64.ord, this]

theorem F64.ord_nonpos_of_sign {a : F64} (hs : F64.sign a = true) : F64.ord a ≤ 0 := by simp [F64.ord, hs]

theorem F64.ord_nonneg_of_sign {a : F64} (hs : F64.sign a = false) : 0 ≤ F64.ord a := by simp [F64.ord, hs]

/-- Adding `p` moves a value in the direction of the sign of `p`, or leaves it, when the sum is no NaN. -/
theorem F64.add_moves_towards {t p : F64} (ht : F64.isNaN t = false) (hp : F64.isNaN p = false) (hr : F64.isNaN (F64.add t p) = false) :
    (F64.sign p = false → F64.ord t ≤ F64.ord (F64.add t p)) ∧ (F64.sign p = true → F64.ord (F64.add t p) ≤ F64.ord t) := by
  rcases F64.finite_or_isInf ht with ft | it
  · rcases F64.finite_or_isInf hp with fp | ip
    · rw [F64.add_of_finite ft fp, ← F64.ord_ofUnits_val ft false]
      constructor
      · intro hs
        have := (F64.ord_nonneg_iff fp).mp (F64.ord_nonneg_of_sign hs)
        exact F64.ord_ofUnits_mono (by omega) _ _
      · intro hs
        have : F64.val p ≤ 0 := by simp [F64.val, hs]
        exact F64.ord_ofUnits_mono (by omega) _ _
    · have : F64.add t p = p := by simp [F64.add, ht, hp, F64.not_isInf_of_finite ft, ip]
      rw [this, F64.ord_of_isInf ip]
      obtain ⟨h1, h2⟩ := F64.ord_bounds ht
      constructor <;> intro hs <;> simp [hs] <;> omega
  · by_cases hc : F64.isInf p = true ∧ F64.sign t ≠ F64.sign p
    · exfalso
      have : F64.add t p = F64.nanOf 0 t p := by simp [F64.add, ht, hp, it, hc.1, hc.2]
      rw [this, F64.nanOf_isNaN] at hr; cases hr
    · have : F64.add t p = t := by
        simp only [F64.add, ht, hp, it, Bool.or_self, Bool.false_eq_true, if_false, if_true]
        split
        · next h => exfalso; apply hc; simpa using h
        · rfl
      rw [this]; exact ⟨fun _ => Int.le_refl _, fun _ => Int.le_refl _⟩

theorem F64.eq_iff {a b : F64} : F64.eq a b = true ↔ F64.isNaN a = false ∧ F64.isNaN b = false ∧ F64.ord a = F64.ord b := by
  simp [F64.eq, and_assoc]

theorem F64.add_nan_left {a b : F64} (h : F64.isNaN a = true) : F64.isNaN (F64.add a b) = true := by
  simp [F64.add, h, F64.nanOf_isNaN]

theorem F64.add_nan_right {a b : F64} (h : F64.isNaN b = true) : F64.isNaN (F64.add a b) = true := by
  simp [F64.add, h, F64.nanOf_isNaN]

/-- A valid clamp centre lies between its own clamp bounds (44_pll.md R250, R262). -/
theorem validCentre_clamp_order {c ma : F64} (h : validCentre c ma = true) :
    F64.le (clampLo c ma) c = true ∧ F64.le c (clampHi c ma) = true := by
  obtain ⟨hc, hc0, hma, hma0, hma1, hlo, hhi⟩ := validCentre_iff.mp h
  obtain ⟨-, hcn, hc0⟩ := F64.lt_iff.mp hc0
  obtain ⟨-, -, hma0⟩ := F64.le_iff.mp hma0
  obtain ⟨-, -, hma1⟩ := F64.lt_iff.mp hma1
  obtain ⟨-, hlon, hlo⟩ := F64.lt_iff.mp hlo
  rw [F64.ord_zero] at *
  have hone : F64.finite F64.one = true := by decide
  have vma0 : 0 ≤ F64.val ma := (F64.ord_nonneg_iff hma).mp hma0
  have vma1 : F64.val ma ≤ f64One := by
    have := (F64.ord_le_iff hma hone).mp (by omega)
    rwa [F64.val_one] at this
  -- x = 1 - ma
  have hx : F64.sub F64.one ma = F64.ofUnits (F64.val F64.one - F64.val ma) (F64.sign F64.one && F64.sign (F64.neg ma)) := by
    rw [F64.sub, F64.add_of_finite hone (by rw [F64.finite_neg]; exact hma), F64.val_neg]; rfl
  have hxle : F64.ord (F64.sub F64.one ma) ≤ F64.ord F64.one := by
    rw [hx, ← F64.ord_ofUnits_val hone false]
    exact F64.ord_ofUnits_mono (by omega) _ _
  have hx0 : 0 ≤ F64.ord (F64.sub F64.one ma) := by
    rw [hx, ← F64.ord_zero]
    have : F64.zero false = F64.ofUnits 0 false := rfl
    rw [this]
    exact F64.ord_ofUnits_mono (by rw [F64.val_one]; omega) _ _
  have hxf : F64.finite (F64.sub F64.one ma) = true :=
    F64.finite_of_ord_le hone hx0 hxle
  have hy : F64.add F64.one ma = F64.ofUnits (F64.val F64.one + F64.val ma) (F64.sign F64.one && F64.sign ma) :=
    F64.add_of_finite hone hma
  have hyge : F64.ord F64.one ≤ F64.ord (F64.add F64.one ma) := by
    rw [hy, ← F64.ord_ofUnits_val hone false]
    exact F64.ord_ofUnits_mono (by omega) _ _
  have hyn : F64.isNaN (F64.add F64.one ma) = false := by rw [hy]; exact F64.isNaN_ofUnits _ _
  obtain ⟨sc, mc⟩ := F64.sign_of_ord_pos hc0
  have h1pos : 0 < F64.ord F64.one := by decide
  obtain ⟨sy, my⟩ := F64.sign_of_ord_pos (lt_of_lt_of_le h1pos hyge)
  obtain ⟨s1, m1⟩ := F64.sign_of_ord_pos h1pos
  have hc' : c = F64.ofSignMag false (f64Round (f64Units (F64.mag c) * f64Units (F64.mag F64.one)) f64One) := by
    conv_lhs => rw [← F64.mul_one hc]
    rw [F64.mul_of_finite hc hone, sc, s1]; rfl
  have hf1 : 0 < f64One := by unfold f64One; positivity
  have cord : F64.ord c = (f64Round (f64Units (F64.mag c) * f64Units (F64.mag F64.one)) f64One : Nat) := by
    conv_lhs => rw [hc']
    rw [F64.ord_ofSignMag _ (f64Round_lt _ _)]; rfl
  constructor
  · refine F64.le_iff.mpr ⟨hlon, hcn, ?_⟩
    have hlo' : clampLo c ma = F64.ofSignMag (F64.sign c != F64.sign (F64.sub F64.one ma))
      (f64Round (f64Units (F64.mag c) * f64Units (F64.mag (F64.sub F64.one ma))) f64One) := F64.mul_of_finite hc hxf
    rw [hlo', F64.ord_ofSignMag _ (f64Round_lt _ _)]
    rw [hlo', F64.ord_ofSignMag _ (f64Round_lt _ _)] at hlo
    split at hlo
    · omega
    · next hsx =>
      rw [if_neg hsx, cord]
      generalize f64One = K at *
      refine Int.ofNat_le.mpr (f64Round_mono hf1 ?_)
      apply Nat.mul_le_mul_left
      apply f64Units_mono _ (F64.finite_iff.mp hone)
      have sx : F64.sign (F64.sub F64.one ma) = false := by rw [sc] at hsx; simpa using hsx
      unfold F64.ord at hxle
      rw [sx, s1] at hxle
      simpa using hxle
  · have hyf : F64.finite (F64.add F64.one ma) = true := by
      by_contra hn
      have hinf : F64.isInf (F64.add F64.one ma) = true := F64.isInf_of_not_finite hyn hn
      have : F64.finite (clampHi c ma) = false := by
        have mc0 : F64.mag c ≠ 0 := by omega
        unfold clampHi F64.mul
        rw [F64.not_isNaN_of_finite hc, hyn, F64.not_isInf_of_finite hc, hinf]
        have e1 : (F64.mag c == 0) = false := by simp [mc0]
        rw [e1]
        simp only [Bool.false_and, Bool.and_false, Bool.or_false, Bool.false_eq_true, if_false, Bool.or_true, if_true]
        cases (F64.sign c != F64.sign (F64.add F64.one ma)) <;> decide
      rw [this] at hhi; cases hhi
    refine F64.le_iff.mpr ⟨hcn, F64.not_isNaN_of_finite hhi, ?_⟩
    have hhi' : clampHi c ma = F64.ofSignMag false
      (f64Round (f64Units (F64.mag c) * f64Units (F64.mag (F64.add F64.one ma))) f64One) := by
      have := F64.mul_of_finite hc hyf
      rw [sc, sy] at this; exact this
    rw [hhi', F64.ord_ofSignMag _ (f64Round_lt _ _), cord]
    simp only [Bool.false_eq_true, if_false]
    generalize f64One = K at *
    refine Int.ofNat_le.mpr (f64Round_mono hf1 ?_)
    apply Nat.mul_le_mul_left
    apply f64Units_mono _ (F64.finite_iff.mp hyf)
    omega

end Sys2Proof.Machine
end

