-- ==== Sys2Proof/Laws/State.lean ====
section
/-! SUPPORT. One lemma per field per update of the state, each true by unfolding, for simp. -/

namespace Sys2Proof.Machine

/-! ### complete -/

@[simp] theorem State.complete_codec (s : State) (code : BitVec 8) (r : Results) : (s.complete code r).codec = s.codec := rfl
@[simp] theorem State.complete_pll (s : State) (code : BitVec 8) (r : Results) : (s.complete code r).pll = s.pll := rfl
@[simp] theorem State.complete_args (s : State) (code : BitVec 8) (r : Results) : (s.complete code r).args = s.args := rfl
@[simp] theorem State.complete_ib0 (s : State) (code : BitVec 8) (r : Results) : (s.complete code r).ib0 = s.ib0 := rfl
@[simp] theorem State.complete_ib1 (s : State) (code : BitVec 8) (r : Results) : (s.complete code r).ib1 = s.ib1 := rfl
@[simp] theorem State.complete_results (s : State) (code : BitVec 8) (r : Results) : (s.complete code r).results = r := rfl
@[simp] theorem State.complete_status (s : State) (code : BitVec 8) (r : Results) : (s.complete code r).status = setStatusCode s.status code := rfl
@[simp] theorem State.complete_draws (s : State) (code : BitVec 8) (r : Results) : (s.complete code r).draws = s.draws := rfl
@[simp] theorem State.complete_pending (s : State) (code : BitVec 8) (r : Results) : (s.complete code r).pending = s.pending := rfl

/-! ### raise -/

@[simp] theorem State.raise_codec (s : State) (c : FaultCode) : (s.raise c).codec = s.codec := rfl
@[simp] theorem State.raise_pll (s : State) (c : FaultCode) : (s.raise c).pll = s.pll := rfl
@[simp] theorem State.raise_args (s : State) (c : FaultCode) : (s.raise c).args = s.args := rfl
@[simp] theorem State.raise_ib0 (s : State) (c : FaultCode) : (s.raise c).ib0 = s.ib0 := rfl
@[simp] theorem State.raise_ib1 (s : State) (c : FaultCode) : (s.raise c).ib1 = s.ib1 := rfl
@[simp] theorem State.raise_results (s : State) (c : FaultCode) : (s.raise c).results = {} := rfl
@[simp] theorem State.raise_status (s : State) (c : FaultCode) : (s.raise c).status = faultStatus s.status c := rfl
@[simp] theorem State.raise_draws (s : State) (c : FaultCode) : (s.raise c).draws = s.draws := rfl
@[simp] theorem State.raise_pending (s : State) (c : FaultCode) : (s.raise c).pending = s.pending := rfl

/-! ### withRing -/

@[simp] theorem State.withRing_codec (s : State) (sel : RingSel) (r : Ring) : (s.withRing sel r).codec = s.codec.setRing sel r := rfl
@[simp] theorem State.withRing_pll (s : State) (sel : RingSel) (r : Ring) : (s.withRing sel r).pll = s.pll := rfl
@[simp] theorem State.withRing_args (s : State) (sel : RingSel) (r : Ring) : (s.withRing sel r).args = s.args := rfl
@[simp] theorem State.withRing_ib0 (s : State) (sel : RingSel) (r : Ring) : (s.withRing sel r).ib0 = s.ib0 := rfl
@[simp] theorem State.withRing_ib1 (s : State) (sel : RingSel) (r : Ring) : (s.withRing sel r).ib1 = s.ib1 := rfl
@[simp] theorem State.withRing_results (s : State) (sel : RingSel) (r : Ring) : (s.withRing sel r).results = s.results := rfl
@[simp] theorem State.withRing_status (s : State) (sel : RingSel) (r : Ring) : (s.withRing sel r).status = s.status := rfl
@[simp] theorem State.withRing_draws (s : State) (sel : RingSel) (r : Ring) : (s.withRing sel r).draws = s.draws := rfl
@[simp] theorem State.withRing_pending (s : State) (sel : RingSel) (r : Ring) : (s.withRing sel r).pending = s.pending := rfl

/-! ### withDraws -/

@[simp] theorem State.withDraws_codec (s : State) (d : Nat) : (s.withDraws d).codec = s.codec := rfl
@[simp] theorem State.withDraws_pll (s : State) (d : Nat) : (s.withDraws d).pll = s.pll := rfl
@[simp] theorem State.withDraws_args (s : State) (d : Nat) : (s.withDraws d).args = s.args := rfl
@[simp] theorem State.withDraws_ib0 (s : State) (d : Nat) : (s.withDraws d).ib0 = s.ib0 := rfl
@[simp] theorem State.withDraws_ib1 (s : State) (d : Nat) : (s.withDraws d).ib1 = s.ib1 := rfl
@[simp] theorem State.withDraws_results (s : State) (d : Nat) : (s.withDraws d).results = s.results := rfl
@[simp] theorem State.withDraws_status (s : State) (d : Nat) : (s.withDraws d).status = s.status := rfl
@[simp] theorem State.withDraws_draws (s : State) (d : Nat) : (s.withDraws d).draws = d := rfl
@[simp] theorem State.withDraws_pending (s : State) (d : Nat) : (s.withDraws d).pending = s.pending := rfl

/-! ### writeArg -/

@[simp] theorem State.writeArg_codec (s : State) (a : ArgReg) (v : U64) : (s.writeArg a v).codec = s.codec := rfl
@[simp] theorem State.writeArg_pll (s : State) (a : ArgReg) (v : U64) : (s.writeArg a v).pll = s.pll := rfl
@[simp] theorem State.writeArg_args (s : State) (a : ArgReg) (v : U64) : (s.writeArg a v).args = s.args.set a v := rfl
@[simp] theorem State.writeArg_ib0 (s : State) (a : ArgReg) (v : U64) : (s.writeArg a v).ib0 = s.ib0 := rfl
@[simp] theorem State.writeArg_ib1 (s : State) (a : ArgReg) (v : U64) : (s.writeArg a v).ib1 = s.ib1 := rfl
@[simp] theorem State.writeArg_results (s : State) (a : ArgReg) (v : U64) : (s.writeArg a v).results = s.results := rfl
@[simp] theorem State.writeArg_status (s : State) (a : ArgReg) (v : U64) : (s.writeArg a v).status = s.status := rfl
@[simp] theorem State.writeArg_draws (s : State) (a : ArgReg) (v : U64) : (s.writeArg a v).draws = s.draws := rfl
@[simp] theorem State.writeArg_pending (s : State) (a : ArgReg) (v : U64) : (s.writeArg a v).pending = s.pending := rfl

/-! ### afterReset -/

@[simp] theorem State.afterReset_codec (s : State) : (s.afterReset).codec = Codec.reset := rfl
@[simp] theorem State.afterReset_pll (s : State) : (s.afterReset).pll = Pll.resetWith Config.pllDefaultRate Config.pllDensityFactor := rfl
@[simp] theorem State.afterReset_args (s : State) : (s.afterReset).args = {} := rfl
@[simp] theorem State.afterReset_ib0 (s : State) : (s.afterReset).ib0 = none := rfl
@[simp] theorem State.afterReset_ib1 (s : State) : (s.afterReset).ib1 = none := rfl
@[simp] theorem State.afterReset_results (s : State) : (s.afterReset).results = {} := rfl
@[simp] theorem State.afterReset_status (s : State) : (s.afterReset).status = 0 := rfl
@[simp] theorem State.afterReset_draws (s : State) : (s.afterReset).draws = s.draws := rfl
@[simp] theorem State.afterReset_pending (s : State) : (s.afterReset).pending = s.pending := rfl

/-! ### writeBuf -/

@[simp] theorem State.writeBuf_codec (s : State) (b : InBuf) (v : Buffer) : (s.writeBuf b v).codec = s.codec := by cases b <;> rfl
@[simp] theorem State.writeBuf_pll (s : State) (b : InBuf) (v : Buffer) : (s.writeBuf b v).pll = s.pll := by cases b <;> rfl
@[simp] theorem State.writeBuf_args (s : State) (b : InBuf) (v : Buffer) : (s.writeBuf b v).args = s.args := by cases b <;> rfl
@[simp] theorem State.writeBuf_results (s : State) (b : InBuf) (v : Buffer) : (s.writeBuf b v).results = s.results := by cases b <;> rfl
@[simp] theorem State.writeBuf_status (s : State) (b : InBuf) (v : Buffer) : (s.writeBuf b v).status = s.status := by cases b <;> rfl
@[simp] theorem State.writeBuf_draws (s : State) (b : InBuf) (v : Buffer) : (s.writeBuf b v).draws = s.draws := by cases b <;> rfl
@[simp] theorem State.writeBuf_pending (s : State) (b : InBuf) (v : Buffer) : (s.writeBuf b v).pending = s.pending := by cases b <;> rfl

/-! ### Rings of the codec -/

@[simp] theorem Codec.ring_setRing_same (c : Codec) (sel : RingSel) (r : Ring) : (c.setRing sel r).ring sel = r := by
  cases sel <;> rfl

theorem Codec.ring_setRing_other (c : Codec) {sel other : RingSel} (r : Ring) (h : other ≠ sel) :
    (c.setRing sel r).ring other = c.ring other := by
  cases sel <;> cases other <;> first | rfl | exact absurd rfl h

@[simp] theorem Ring.setWrap_bits (r : Ring) (len : Nat) : (r.setWrap len).bits = r.bits := rfl
@[simp] theorem Ring.setWrap_wrap (r : Ring) (len : Nat) : (r.setWrap len).wrap = min len r.bits.length := rfl
@[simp] theorem Ring.setWrap_wrapValue (r : Ring) (len : Nat) : (r.setWrap len).wrapValue = r.wrapValue := rfl
@[simp] theorem Ring.setWrap_cursor (r : Ring) (len : Nat) : (r.setWrap len).cursor = r.cursor := rfl
@[simp] theorem Ring.setWrapValue_bits (r : Ring) (v : Option Bit) : (r.setWrapValue v).bits = r.bits := rfl
@[simp] theorem Ring.setWrapValue_wrap (r : Ring) (v : Option Bit) : (r.setWrapValue v).wrap = r.wrap := rfl
@[simp] theorem Ring.setWrapValue_wrapValue (r : Ring) (v : Option Bit) : (r.setWrapValue v).wrapValue = v := rfl
@[simp] theorem Ring.setWrapValue_cursor (r : Ring) (v : Option Bit) : (r.setWrapValue v).cursor = r.cursor := rfl
@[simp] theorem Ring.fromBits_bits (s : List Bit) : (Ring.fromBits s).bits = s := rfl
@[simp] theorem Ring.fromBits_wrap (s : List Bit) : (Ring.fromBits s).wrap = s.length := rfl
@[simp] theorem Ring.fromBits_wrapValue (s : List Bit) : (Ring.fromBits s).wrapValue = none := rfl
@[simp] theorem Ring.fromBits_cursor (s : List Bit) : (Ring.fromBits s).cursor = 0 := rfl

end Sys2Proof.Machine
end

