-- ==== Sys2Proof/Laws/Status.lean ====
section
/-! SUPPORT. What each of the two writes of STATUS leaves in its fields (60_exceptions.md R312, R314). -/

namespace Sys2Proof.Machine

/-- A bit of STATUS after its code is written. -/
theorem getLsbD_setStatusCode (st : BitVec 32) (code : BitVec 8) (i : Nat) :
    (setStatusCode st code).getLsbD i = if i < 8 then code.getLsbD i else st.getLsbD i := by
  unfold setStatusCode
  refine (BitVec.getLsbD_append (x := st.extractLsb' 8 24) (y := code)).trans ?_
  by_cases h : i < 8
  · simp [h]
  · by_cases h2 : i < 32
    · have h3 : i - 8 < 24 := by omega
      have h4 : 8 + (i - 8) = i := by omega
      simp [h, h3, h4]
    · have h3 : ¬ i - 8 < 24 := by omega
      simp [h, h3, BitVec.getLsbD_of_ge st i (by omega)]

/-- The first fault, as one word of fields. -/
theorem faultStatus_of_running {st : BitVec 32} (h : statusFaulted st = false) (c : FaultCode) :
    faultStatus st c =
      st.extractLsb' 24 8 ++ c.byte ++ st.extractLsb' 9 7 ++ 1#1 ++ c.byte := by
  simp [faultStatus, h]

/-- A bit of STATUS after the first fault. -/
theorem getLsbD_faultStatus {st : BitVec 32} (h : statusFaulted st = false) (c : FaultCode) (i : Nat) :
    (faultStatus st c).getLsbD i =
      if i < 8 then c.byte.getLsbD i else if i < 9 then true
      else if i < 16 then st.getLsbD i else if i < 24 then c.byte.getLsbD (i - 16)
      else st.getLsbD i := by
  rw [faultStatus_of_running h]
  have e : ((st.extractLsb' 24 8 ++ c.byte ++ st.extractLsb' 9 7 ++ 1#1 ++ c.byte :
      BitVec (8 + 8 + 7 + 1 + 8))).getLsbD i =
      if i < 8 then c.byte.getLsbD i else if i < 9 then true
      else if i < 16 then st.getLsbD i else if i < 24 then c.byte.getLsbD (i - 16)
      else st.getLsbD i := by
    simp only [BitVec.getLsbD_append, BitVec.getLsbD_extractLsb']
    by_cases h8 : i < 8
    · simp [h8]
    by_cases h9 : i < 9
    · have : i = 8 := by omega
      subst this; simp
    by_cases h16 : i < 16
    · have h1 : ¬ i - 8 < 1 := by omega
      have h2 : i - 8 - 1 < 7 := by omega
      have h3 : 9 + (i - 8 - 1) = i := by omega
      simp only [h8, h9, h16, h1, h2, h3, if_true, if_false, decide_true, Bool.true_and]
    by_cases h24 : i < 24
    · have h1 : ¬ i - 8 < 1 := by omega
      have h2 : ¬ i - 8 - 1 < 7 := by omega
      have h3 : i - 8 - 1 - 7 < 8 := by omega
      have h4 : i - 8 - 1 - 7 = i - 16 := by omega
      rw [if_neg h8, if_neg h1, if_neg h2, if_pos h3, h4, if_neg h8, if_neg h9, if_neg h16, if_pos h24]
    by_cases h32 : i < 32
    · have h1 : ¬ i - 8 < 1 := by omega
      have h2 : ¬ i - 8 - 1 < 7 := by omega
      have h3 : ¬ i - 8 - 1 - 7 < 8 := by omega
      have h4 : i - 8 - 1 - 7 - 8 < 8 := by omega
      have h5 : 24 + (i - 8 - 1 - 7 - 8) = i := by omega
      simp only [h8, h9, h16, h24, h1, h2, h3, h4, h5, if_false, decide_true, Bool.true_and]
    · have h1 : ¬ i - 8 < 1 := by omega
      have h2 : ¬ i - 8 - 1 < 7 := by omega
      have h3 : ¬ i - 8 - 1 - 7 < 8 := by omega
      have h4 : ¬ i - 8 - 1 - 7 - 8 < 8 := by omega
      simp only [h8, h9, h16, h24, h1, h2, h3, h4, if_false, decide_false, Bool.false_and,
        BitVec.getLsbD_of_ge st i (by omega)]
  exact e

@[simp] theorem statusCode_setStatusCode (st : BitVec 32) (code : BitVec 8) :
    statusCode (setStatusCode st code) = code := by
  unfold statusCode
  ext i hi
  simp [BitVec.getElem_extractLsb', getLsbD_setStatusCode, hi]

@[simp] theorem statusFaulted_setStatusCode (st : BitVec 32) (code : BitVec 8) :
    statusFaulted (setStatusCode st code) = statusFaulted st := by
  unfold statusFaulted
  rw [getLsbD_setStatusCode]
  rfl

@[simp] theorem statusFaultCode_setStatusCode (st : BitVec 32) (code : BitVec 8) :
    statusFaultCode (setStatusCode st code) = statusFaultCode st := by
  unfold statusFaultCode
  ext i hi
  have h : ¬ 16 + i < 8 := by omega
  simp [BitVec.getElem_extractLsb', getLsbD_setStatusCode, h]

theorem extractLsb'_9_setStatusCode (st : BitVec 32) (code : BitVec 8) :
    (setStatusCode st code).extractLsb' 9 7 = st.extractLsb' 9 7 := by
  ext i hi
  have h : ¬ 9 + i < 8 := by omega
  simp [BitVec.getElem_extractLsb', getLsbD_setStatusCode, h]

theorem extractLsb'_24_setStatusCode (st : BitVec 32) (code : BitVec 8) :
    (setStatusCode st code).extractLsb' 24 8 = st.extractLsb' 24 8 := by
  ext i hi
  have h : ¬ 24 + i < 8 := by omega
  simp [BitVec.getElem_extractLsb', getLsbD_setStatusCode, h]

@[simp] theorem statusFaulted_faultStatus (st : BitVec 32) (c : FaultCode) :
    statusFaulted (faultStatus st c) = true := by
  cases h : statusFaulted st
  · unfold statusFaulted
    rw [getLsbD_faultStatus h]
    rfl
  · simp [faultStatus, h]

@[simp] theorem statusCode_faultStatus (st : BitVec 32) (c : FaultCode) :
    statusCode (faultStatus st c) = c.byte := by
  cases h : statusFaulted st
  · unfold statusCode
    ext i hi
    simp [BitVec.getElem_extractLsb', getLsbD_faultStatus h, hi]
  · simp [faultStatus, h]

theorem statusFaultCode_faultStatus {st : BitVec 32} (h : statusFaulted st = false) (c : FaultCode) :
    statusFaultCode (faultStatus st c) = c.byte := by
  unfold statusFaultCode
  ext i hi
  have h1 : ¬ 16 + i < 8 := by omega
  have h2 : ¬ 16 + i < 9 := by omega
  have h3 : 16 + i < 24 := by omega
  simp [BitVec.getElem_extractLsb', getLsbD_faultStatus h, h1, h2, h3, hi]

theorem extractLsb'_9_faultStatus {st : BitVec 32} (h : statusFaulted st = false) (c : FaultCode) :
    (faultStatus st c).extractLsb' 9 7 = st.extractLsb' 9 7 := by
  ext i hi
  have h1 : ¬ 9 + i < 8 := by omega
  have h3 : 9 + i < 16 := by omega
  simp [BitVec.getElem_extractLsb', getLsbD_faultStatus h, h1, h3]

theorem extractLsb'_24_faultStatus {st : BitVec 32} (h : statusFaulted st = false) (c : FaultCode) :
    (faultStatus st c).extractLsb' 24 8 = st.extractLsb' 24 8 := by
  ext i hi
  have h1 : ¬ 24 + i < 8 := by omega
  have h2 : ¬ 24 + i < 9 := by omega
  have h3 : ¬ 24 + i < 16 := by omega
  simp [BitVec.getElem_extractLsb', getLsbD_faultStatus h, h1, h2, h3]

/-- A machine word with zero reserved bits takes the word the spec's vectors show (`0x00cc01cc`). -/
theorem faultStatus_of_wf {st : BitVec 32} (h : statusFaulted st = false)
    (hlo : st.extractLsb' 9 7 = 0#7) (hhi : st.extractLsb' 24 8 = 0#8) (c : FaultCode) :
    faultStatus st c = 0#8 ++ c.byte ++ 0#7 ++ 1#1 ++ c.byte := by
  rw [faultStatus_of_running h, hlo, hhi]

@[simp] theorem State.faulted_complete (s : State) (code : BitVec 8) (r : Results) :
    (s.complete code r).faulted = s.faulted := statusFaulted_setStatusCode _ _

@[simp] theorem State.faulted_raise (s : State) (c : FaultCode) : (s.raise c).faulted = true :=
  statusFaulted_faultStatus _ _

end Sys2Proof.Machine
end

