-- ==== Sys2Proof/Laws/Command.lean ====
section
/-! SUPPORT. How a command can end, said once: the inversion of `command`, `conclude` and the checks around a meaning (60_exceptions.md R310, R318, R319). -/

namespace Sys2Proof.Machine

/-- A halted block does nothing (60_exceptions.md R318). -/
theorem command_halted {s : State} (h : s.halted) (body : Except Refusal Ending) :
    command s body = .next s := by simp [command, h]

/-- A running block whose operands are written ends the command as its rule says. -/
theorem command_ok {s : State} (h : s.running) (e : Ending) :
    command s (.ok e) = .next (conclude s e) := by simp [command, h]

/-- A running block refuses a command whose operand was never written. -/
theorem command_error {s : State} (h : s.running) (r : Refusal) :
    command s (.error r) = .refused r := by simp [command, h]

/-- Everything a command can do, when it answers a next state. -/
theorem command_next {s t : State} {body : Except Refusal Ending} (h : command s body = .next t) :
    (s.halted ∧ t = s) ∨ (s.running ∧ ∃ e, body = .ok e ∧ t = conclude s e) := by
  unfold command at h
  split at h
  · next hf => exact .inl ⟨hf, by simpa using h.symm⟩
  · next hf =>
    refine .inr ⟨by simpa using hf, ?_⟩
    cases body with
    | error r => cases h
    | ok e => exact ⟨e, rfl, by simpa using h.symm⟩

/-- A command is refused only on a running block, for an operand. -/
theorem command_refused {s : State} {r : Refusal} {body : Except Refusal Ending} :
    command s body = .refused r ↔ s.running ∧ body = .error r := by
  unfold command
  cases hf : s.faulted <;> cases body <;> simp [State.running, hf]

/-- A command never ends in a fault of the model. -/
theorem command_ne_fault (s : State) (body : Except Refusal Ending) (f : Fault) :
    command s body ≠ .fault f := nomatch f

@[simp] theorem conclude_ok (s s' : State) (r : Results) :
    conclude s (.ok s' r) = s'.complete codeOk r := rfl

@[simp] theorem conclude_none (s : State) : conclude s .none = s.complete codeNone {} := rfl

@[simp] theorem conclude_invalidInput (s : State) :
    conclude s .invalidInput = s.complete codeInvalidInput {} := rfl

@[simp] theorem conclude_fault (s : State) (c : FaultCode) : conclude s (.fault c) = s.raise c := rfl

@[simp] theorem orFault_ok {α : Type} (a : α) (k : α → Ending) : orFault (.ok a) k = k a := rfl

@[simp] theorem orFault_error {α : Type} (c : FaultCode) (k : α → Ending) :
    orFault (.error c) k = .fault c := rfl

/-- The ending of a step that can fault, by cases. -/
theorem orFault_cases {α : Type} (x : Except FaultCode α) (k : α → Ending) :
    (∃ c, x = .error c ∧ orFault x k = .fault c) ∨ ∃ a, x = .ok a ∧ orFault x k = k a := by
  cases x with
  | error c => exact .inl ⟨c, rfl, rfl⟩
  | ok a => exact .inr ⟨a, rfl, rfl⟩

/-- The checks of an access command, by cases (42_codec_access.md R165, 20_memory.md R72). -/
theorem accessChecks_cases (c : Codec) (past : Nat) (k : Ending) :
    (c.bits.wrap = 0 ∧ accessChecks c past k = .invalidInput) ∨
    (c.bits.wrap ≠ 0 ∧ 2 ^ 64 < past ∧ accessChecks c past k = .fault .indexOverflow) ∨
    (c.bits.wrap ≠ 0 ∧ past ≤ 2 ^ 64 ∧ accessChecks c past k = k) := by
  unfold accessChecks
  have hm : Config.maxIndex + 1 = 2 ^ 64 := by decide
  rw [hm]
  by_cases h : c.bits.wrap = 0
  · simp [h]
  · by_cases hp : 2 ^ 64 < past
    · exact .inr (.inl ⟨h, hp, by rw [if_neg h, if_pos hp]⟩)
    · exact .inr (.inr ⟨h, by omega, by rw [if_neg h, if_neg hp]⟩)

/-! ### Operands -/

theorem State.arg_ok {s : State} {a : ArgReg} {v : U64} (h : s.args.get a = some v) :
    s.arg a = .ok v := by simp [State.arg, h]

theorem State.argNat_ok {s : State} {a : ArgReg} {v : U64} (h : s.args.get a = some v) :
    s.argNat a = .ok v.toNat := by simp [State.argNat, State.arg, h, Except.map]

theorem State.argBit_ok {s : State} {a : ArgReg} {v : U64} (h : s.args.get a = some v) :
    s.argBit a = .ok (v.getLsbD 0) := by simp [State.argBit, State.arg, h, Except.map]

theorem State.argNatIf_ok {s : State} {a : ArgReg} {v : U64} (h : s.args.get a = some v) :
    s.argNatIf true a = .ok (some v.toNat) := by simp [State.argNatIf, State.argNat_ok h, Except.map]

theorem State.argBitIf_ok {s : State} {a : ArgReg} {v : U64} (h : s.args.get a = some v) :
    s.argBitIf true a = .ok (some (v.getLsbD 0)) := by simp [State.argBitIf, State.argBit_ok h, Except.map]

theorem State.argIf_ok {s : State} {a : ArgReg} {v : U64} (h : s.args.get a = some v) :
    s.argIf true a = .ok (some v) := by simp [State.argIf, State.arg_ok h, Except.map]

@[simp] theorem State.argNatIf_absent (s : State) (a : ArgReg) : s.argNatIf false a = .ok none := rfl

@[simp] theorem State.argBitIf_absent (s : State) (a : ArgReg) : s.argBitIf false a = .ok none := rfl

@[simp] theorem State.argIf_absent (s : State) (a : ArgReg) : s.argIf false a = .ok none := rfl

@[simp] theorem State.bufBitsIf_absent (s : State) (b : InBuf) : s.bufBitsIf false b = .ok none := rfl

theorem State.bufBits_ok {s : State} {b : InBuf} {x : List Bit} (h : s.inBuf b = some (.bits x)) :
    s.bufBits b = .ok x := by simp [State.bufBits, h]

theorem State.bufBytes_ok {s : State} {b : InBuf} {x : List Byte} (h : s.inBuf b = some (.bytes x)) :
    s.bufBytes b = .ok x := by simp [State.bufBytes, h]

theorem State.bufRanges_ok {s : State} {b : InBuf} {x : List (U64 × U64)}
    (h : s.inBuf b = some (.ranges x)) : s.bufRanges b = .ok x := by simp [State.bufRanges, h]

theorem State.bufF64s_ok {s : State} {b : InBuf} {x : List F64} (h : s.inBuf b = some (.f64s x)) :
    s.bufF64s b = .ok x := by simp [State.bufF64s, h]

theorem State.bufBitsIf_ok {s : State} {b : InBuf} {x : List Bit} (h : s.inBuf b = some (.bits x)) :
    s.bufBitsIf true b = .ok (some x) := by simp [State.bufBitsIf, State.bufBits_ok h, Except.map]

end Sys2Proof.Machine
end

