-- ==== Sys2Proof/Laws/Ring.lean ====
section
/-! SUPPORT. What each ring operation can do, said once (20_memory.md R74, R76; 41_bitring.md R133). -/

namespace Sys2Proof.Machine

/-! ### get -/

theorem Ring.get_below {r : Ring} {i : Nat} (h : i < r.wrap) : r.get i = .ok (r.stored i) := by
  simp [Ring.get, h]

theorem Ring.get_wrapValue {r : Ring} {i : Nat} {v : Bit} (h : r.wrap ≤ i)
    (hv : r.wrapValue = some v) : r.get i = .ok v := by
  simp [Ring.get, Nat.not_lt.mpr h, hv]

theorem Ring.get_fold {r : Ring} {i : Nat} (h : r.wrap ≤ i) (hw : r.wrap ≠ 0)
    (hv : r.wrapValue = none) : r.get i = .ok (r.stored (i % r.wrap)) := by
  simp [Ring.get, Nat.not_lt.mpr h, hv, hw]

/-- A ring with a bit or a wrap value never faults on a read. -/
theorem Ring.get_ok {r : Ring} (h : r.wrap ≠ 0 ∨ r.wrapValue ≠ none) (i : Nat) :
    ∃ b, r.get i = .ok b := by
  unfold Ring.get
  split
  · exact ⟨_, rfl⟩
  · cases hv : r.wrapValue with
    | some v => exact ⟨v, rfl⟩
    | none =>
      have hw : r.wrap ≠ 0 := by simpa [hv] using h
      exact ⟨r.stored (i % r.wrap), by simp [hw]⟩

/-- The one fault of a read is `RING_EMPTY`, of a ring with no bit and no wrap value. -/
theorem Ring.get_error {r : Ring} {i : Nat} {c : FaultCode} (h : r.get i = .error c) :
    c = .ringEmpty ∧ r.wrap = 0 ∧ r.wrapValue = none := by
  unfold Ring.get at h
  split at h
  · cases h
  · split at h
    · cases h
    · next hv =>
      split at h
      · next hw => cases h; exact ⟨rfl, hw, hv⟩
      · cases h

/-! ### set -/

/-- Everything a write can do. -/
theorem Ring.set_ok {r r' : Ring} {i : Nat} {b : Bit} (h : r.set i b = .ok r') :
    r.wrap ≠ 0 ∧ r' = { r with bits := r.bits.set (i % r.wrap) b } := by
  unfold Ring.set at h
  split at h
  · cases h
  · next hw => exact ⟨hw, by simpa using h.symm⟩

theorem Ring.set_of_wrap {r : Ring} (h : r.wrap ≠ 0) (i : Nat) (b : Bit) :
    r.set i b = .ok { r with bits := r.bits.set (i % r.wrap) b } := by simp [Ring.set, h]

theorem Ring.set_error {r : Ring} {i : Nat} {b : Bit} {c : FaultCode} (h : r.set i b = .error c) :
    c = .ringEmpty ∧ r.wrap = 0 := by
  unfold Ring.set at h
  split at h
  · next hw => cases h; exact ⟨rfl, hw⟩
  · cases h

/-- A run of writes changes the stored bits only, and not how many there are. -/
theorem Ring.setMany_ok {r r' : Ring} {bs : List Bit} {i : Nat} (h : r.setMany bs i = .ok r') :
    r'.bits.length = r.bits.length ∧ r'.wrap = r.wrap ∧ r'.wrapValue = r.wrapValue ∧
      r'.cursor = r.cursor := by
  induction bs generalizing r i with
  | nil => cases h; exact ⟨rfl, rfl, rfl, rfl⟩
  | cons b bs ih =>
    unfold Ring.setMany at h
    split at h
    · cases h
    · next r1 hs =>
      obtain ⟨-, rfl⟩ := Ring.set_ok hs
      simpa using ih h

/-- A run of writes to a ring with bits never faults. -/
theorem Ring.setMany_of_wrap {r : Ring} (h : r.wrap ≠ 0) (bs : List Bit) (i : Nat) :
    ∃ r', r.setMany bs i = .ok r' := by
  induction bs generalizing r i with
  | nil => exact ⟨r, rfl⟩
  | cons b bs ih =>
    obtain ⟨r', hr⟩ := ih (r := { r with bits := r.bits.set (i % r.wrap) b }) h (i + 1)
    exact ⟨r', by simp [Ring.setMany, Ring.set_of_wrap h, hr]⟩

/-! ### getMany -/

/-- A run of reads gives one bit a position. -/
theorem Ring.getMany_length {r : Ring} {n i : Nat} {bs : List Bit} (h : r.getMany n i = .ok bs) :
    bs.length = n := by
  induction n generalizing i bs with
  | zero => cases h; rfl
  | succ n ih =>
    unfold Ring.getMany at h
    split at h
    · cases h
    · split at h
      · cases h
      · next bs' hbs => cases h; simp [ih hbs]

/-- The k-th bit of a run of reads is the read of the k-th index. -/
theorem Ring.getMany_get {r : Ring} {n i k : Nat} {bs : List Bit} (h : r.getMany n i = .ok bs)
    (hk : k < n) : r.get (i + k) = .ok (bs.getD k false) := by
  induction n generalizing i bs k with
  | zero => omega
  | succ n ih =>
    unfold Ring.getMany at h
    split at h
    · cases h
    · next b hb =>
      split at h
      · cases h
      · next bs' hbs =>
        cases h
        cases k with
        | zero => simpa using hb
        | succ k => simpa [Nat.add_comm, Nat.add_left_comm] using ih hbs (k := k) (by omega)

theorem Ring.getMany_ok {r : Ring} (h : r.wrap ≠ 0 ∨ r.wrapValue ≠ none) (n i : Nat) :
    ∃ bs, r.getMany n i = .ok bs := by
  induction n generalizing i with
  | zero => exact ⟨[], rfl⟩
  | succ n ih =>
    obtain ⟨b, hb⟩ := Ring.get_ok h i
    obtain ⟨bs, hbs⟩ := ih (i + 1)
    exact ⟨b :: bs, by simp [Ring.getMany, hb, hbs]⟩

/-! ### Well-formed rings -/

theorem Ring.wf_iff {r : Ring} {n : Nat} : r.wf n = true ↔ r.bits.length = n ∧ r.wrap ≤ n := by
  simp [Ring.wf]

theorem Ring.wf_setWrap {r : Ring} {n : Nat} (h : r.wf n = true) (len : Nat) :
    (r.setWrap len).wf n = true := by
  obtain ⟨hl, -⟩ := Ring.wf_iff.mp h
  exact Ring.wf_iff.mpr ⟨hl, by simp only [Ring.setWrap_wrap, hl]; exact min_le_right _ _⟩

theorem Ring.wf_setWrapValue {r : Ring} {n : Nat} (h : r.wf n = true) (v : Option Bit) :
    (r.setWrapValue v).wf n = true := h

theorem Ring.wf_fromBits (s : List Bit) : (Ring.fromBits s).wf s.length = true :=
  Ring.wf_iff.mpr ⟨rfl, le_rfl⟩

theorem Ring.wf_set {r r' : Ring} {n i : Nat} {b : Bit} (h : r.wf n = true)
    (hs : r.set i b = .ok r') : r'.wf n = true := by
  obtain ⟨-, rfl⟩ := Ring.set_ok hs
  simpa [Ring.wf] using h

theorem Ring.wf_setMany {r r' : Ring} {n i : Nat} {bs : List Bit} (h : r.wf n = true)
    (hs : r.setMany bs i = .ok r') : r'.wf n = true := by
  obtain ⟨hl, hw, -, -⟩ := Ring.setMany_ok hs
  simpa [Ring.wf, hl, hw] using h

end Sys2Proof.Machine
end

