-- ==== Sys2Proof/Laws/Codec.lean ====
section
/-! SUPPORT. What each read of the codec can do, said once (42_codec_access.md R170, R174, R180; 41_bitring.md R139, R140). -/

namespace Sys2Proof.Machine

/-! ### The one fault of a run of ring accesses -/

theorem Ring.getMany_error {r : Ring} {n i : Nat} {c : FaultCode} (h : r.getMany n i = .error c) :
    c = .ringEmpty := by
  induction n generalizing i with
  | zero => cases h
  | succ n ih =>
    unfold Ring.getMany at h
    split at h
    · next hb => cases h; exact (Ring.get_error hb).1
    · split at h
      · next hb => cases h; exact ih hb
      · cases h

theorem Ring.setMany_error {r : Ring} {bs : List Bit} {i : Nat} {c : FaultCode}
    (h : r.setMany bs i = .error c) : c = .ringEmpty := by
  induction bs generalizing r i with
  | nil => cases h
  | cons b bs ih =>
    unfold Ring.setMany at h
    split at h
    · next hb => cases h; exact (Ring.set_error hb).1
    · exact ih h

/-! ### The byte read of a ring (41_bitring.md R140) -/

/-- A ring with bits gives bits at every cursor. -/
theorem Ring.takeBits_of_wrap {r : Ring} (h : r.wrap ≠ 0) (n c : Nat) :
    ∃ bs c', r.takeBits n c = .ok (bs, c') ∧ bs.length = n := by
  induction n generalizing c with
  | zero => exact ⟨[], c, rfl, rfl⟩
  | succ n ih =>
    obtain ⟨b, hb⟩ := Ring.get_ok (.inl h) c
    obtain ⟨bs, c', hbs, hl⟩ := ih (r.cursorAfter c)
    exact ⟨b :: bs, c', by simp [Ring.takeBits, hb, hbs], by simp [hl]⟩

/-- A ring with bits gives bytes at every cursor. -/
theorem Ring.takeBytes_of_wrap {r : Ring} (h : r.wrap ≠ 0) (n c : Nat) :
    ∃ out c', r.takeBytes n c = .ok (out, c') ∧ out.length = n := by
  induction n generalizing c with
  | zero => exact ⟨[], c, rfl, rfl⟩
  | succ n ih =>
    obtain ⟨bs, c1, hb, -⟩ := Ring.takeBits_of_wrap h 8 c
    obtain ⟨out, c', ho, hl⟩ := ih c1
    exact ⟨packByte bs :: out, c', by simp [Ring.takeBytes, hb, ho], by simp [hl]⟩

/-! ### Reads of the codec -/

/-- Everything a read of one position can do, when it faults nothing. -/
theorem Codec.readBit_ok {c : Codec} {p d d' : Nat} {b : Bit} (h : c.readBit p d = .ok (b, d')) :
    (c.weakEnabled = true ∧ c.weak.get p = .ok true ∧ b = Config.weakDraw d ∧ d' = d + 1) ∨
    ((c.weakEnabled = true → c.weak.get p = .ok false) ∧ c.bits.get p = .ok b ∧ d' = d) := by
  unfold Codec.readBit at h
  split at h
  · next hw =>
    split at h
    · cases h
    · next hg => cases h; exact .inl ⟨hw, hg, rfl, rfl⟩
    · next hg =>
      cases hb : c.bits.get p with
      | error e => rw [hb] at h; cases h
      | ok b' => rw [hb] at h; cases h; exact .inr ⟨fun _ => hg, rfl, rfl⟩
  · next hw =>
    cases hb : c.bits.get p with
    | error e => rw [hb] at h; cases h
    | ok b' => rw [hb] at h; cases h; exact .inr ⟨fun hc => absurd hc hw, rfl, rfl⟩

theorem Codec.readBit_error {c : Codec} {p d : Nat} {e : FaultCode} (h : c.readBit p d = .error e) :
    e = .ringEmpty := by
  unfold Codec.readBit at h
  split at h
  · split at h
    · next hg => cases h; exact (Ring.get_error hg).1
    · cases h
    · cases hb : c.bits.get p with
      | error e' => rw [hb] at h; cases h; exact (Ring.get_error hb).1
      | ok b => rw [hb] at h; cases h
  · cases hb : c.bits.get p with
    | error e' => rw [hb] at h; cases h; exact (Ring.get_error hb).1
    | ok b => rw [hb] at h; cases h

/-- A run of reads, one position taken apart. -/
theorem Codec.readBits_cons_ok {c : Codec} {p d d' : Nat} {ps : List Nat} {bs : List Bit}
    (h : c.readBits (p :: ps) d = .ok (bs, d')) :
    ∃ b bs' d1, c.readBit p d = .ok (b, d1) ∧ c.readBits ps d1 = .ok (bs', d') ∧ bs = b :: bs' := by
  unfold Codec.readBits at h
  split at h
  · cases h
  · next b d1 hb =>
    split at h
    · cases h
    · next bs' d2 hbs => cases h; exact ⟨b, bs', d1, hb, hbs, rfl⟩

theorem Codec.readBits_error {c : Codec} {ps : List Nat} {d : Nat} {e : FaultCode}
    (h : c.readBits ps d = .error e) : e = .ringEmpty := by
  induction ps generalizing d with
  | nil => cases h
  | cons p ps ih =>
    unfold Codec.readBits at h
    split at h
    · next hb => cases h; exact Codec.readBit_error hb
    · split at h
      · next hb => cases h; exact ih hb
      · cases h

/-- A run of reads gives one bit a position. -/
theorem Codec.readBits_length {c : Codec} {ps : List Nat} {d d' : Nat} {bs : List Bit}
    (h : c.readBits ps d = .ok (bs, d')) : bs.length = ps.length := by
  induction ps generalizing d d' bs with
  | nil => cases h; rfl
  | cons p ps ih =>
    obtain ⟨b, bs', d1, -, h2, rfl⟩ := Codec.readBits_cons_ok h
    simp [ih h2]

/-- With substitution disabled the reads are the stored bits and no draw is taken. -/
theorem Codec.readBits_stored {c : Codec} (hw : c.weakEnabled = false) {ps : List Nat} {d d' : Nat}
    {bs : List Bit} (h : c.readBits ps d = .ok (bs, d')) :
    d' = d ∧ ∀ k, k < ps.length → c.bits.get (ps.getD k 0) = .ok (bs.getD k false) := by
  induction ps generalizing d d' bs with
  | nil => cases h; exact ⟨rfl, fun k hk => absurd hk (Nat.not_lt_zero k)⟩
  | cons p ps ih =>
    obtain ⟨b, bs', d1, h1, h2, rfl⟩ := Codec.readBits_cons_ok h
    rcases Codec.readBit_ok h1 with ⟨hw', -⟩ | ⟨-, hb, rfl⟩
    · rw [hw] at hw'; cases hw'
    · obtain ⟨rfl, hk⟩ := ih h2
      refine ⟨rfl, fun k hlt => ?_⟩
      cases k with
      | zero => exact hb
      | succ k => exact hk k (by simpa using hlt)

/-! ### Alignment and the stream -/

/-- The nudge is at most one bit (42_codec_access.md R174). -/
theorem Codec.align_ok {c : Codec} {o p : Nat} (h : c.align o = .ok p) : p = o ∨ p = o + 1 := by
  unfold Codec.align at h
  split at h
  · cases h
  · cases h; exact .inl rfl
  · split at h
    · cases h
    · cases h; exact .inr rfl
    · cases h; exact .inl rfl

theorem Codec.align_error {c : Codec} {o : Nat} {e : FaultCode} (h : c.align o = .error e) :
    e = .ringEmpty := by
  unfold Codec.align at h
  split at h
  · next hg => cases h; exact (Ring.get_error hg).1
  · cases h
  · split at h
    · next hg => cases h; exact (Ring.get_error hg).1
    · cases h
    · cases h

/-- A clock ring that can be read never stops an alignment. -/
theorem Codec.align_of_readable {c : Codec} (h : c.clock.wrap ≠ 0 ∨ c.clock.wrapValue ≠ none) (o : Nat) :
    ∃ p, c.align o = .ok p := by
  obtain ⟨b, hb⟩ := Ring.get_ok h o
  obtain ⟨b', hb'⟩ := Ring.get_ok h (o + 1)
  unfold Codec.align
  rw [hb]
  cases b with
  | true => exact ⟨o, rfl⟩
  | false =>
    simp only [hb']
    cases b' with
    | true => exact ⟨o + 1, rfl⟩
    | false => exact ⟨o, rfl⟩

theorem Codec.streamStarts_error {c : Codec} {n o : Nat} {e : FaultCode}
    (h : c.streamStarts n o = .error e) : e = .ringEmpty ∨ e = .indexOverflow := by
  induction n generalizing o with
  | zero => cases h
  | succ n ih =>
    unfold Codec.streamStarts at h
    split at h
    · cases h; exact .inr rfl
    · split at h
      · next ha => cases h; exact .inl (Codec.align_error ha)
      · split at h
        · cases h; exact .inr rfl
        · split at h
          · next hs => cases h; exact ih hs
          · cases h

/-- One byte of the stream, taken apart. -/
theorem Codec.streamStarts_succ_ok {c : Codec} {n o o' : Nat} {ps : List Nat}
    (h : c.streamStarts (n + 1) o = .ok (ps, o')) :
    ∃ p ps', c.align o = .ok p ∧ p + 15 ≤ Config.maxIndex ∧
      c.streamStarts n ((p + 16) % c.bits.wrap) = .ok (ps', o') ∧ ps = p :: ps' := by
  unfold Codec.streamStarts at h
  split at h
  · cases h
  · split at h
    · cases h
    · next p hp =>
      split at h
      · cases h
      · next hle =>
        split at h
        · cases h
        · next ps' o1 hs => cases h; exact ⟨p, ps', hp, by omega, hs, rfl⟩

/-! ### Well-formed codecs -/

theorem Codec.wf_iff {c : Codec} : c.wf = true ↔
    c.bits.wf c.len = true ∧ c.clock.wf c.len = true ∧ c.error.wf c.len = true ∧
    c.weak.wf c.len = true ∧ c.dataRanges.all rangeOrdered = true ∧
    c.dataRangesFiltered.all rangeOrdered = true ∧
    c.dataRangesFiltered.length ≤ c.dataRanges.length := by
  simp [Codec.wf, and_assoc]

/-- Any ring of a well-formed codec has the codec's storage length and a wrap inside it. -/
theorem Codec.wf_ring {c : Codec} (h : c.wf = true) (sel : RingSel) : (c.ring sel).wf c.len = true := by
  obtain ⟨h1, h2, h3, h4, -⟩ := Codec.wf_iff.mp h
  cases sel <;> assumption

/-- A ring of the same storage length with its wrap inside it may take any ring's place. -/
theorem Codec.wf_setRing {c : Codec} (h : c.wf = true) (sel : RingSel) {r : Ring}
    (hr : r.wf c.len = true) : (c.setRing sel r).wf = true := by
  obtain ⟨h1, h2, h3, h4, h5, h6, h7⟩ := Codec.wf_iff.mp h
  have hl : (c.setRing sel r).len = c.len := by
    cases sel
    · exact (Ring.wf_iff.mp hr).1
    · rfl
    · rfl
    · rfl
  refine Codec.wf_iff.mpr ?_
  rw [hl]
  cases sel <;> exact ⟨by assumption, by assumption, by assumption, by assumption, h5, h6, h7⟩

end Sys2Proof.Machine
end

