-- ==== Sys2Proof/Laws/Decode.lean ====
section
/-! SUPPORT. The fields of a word and the word of the fields are inverse (30_encoding.md R101), and each field of a command is legal. -/

namespace Sys2Proof

/-- A bit of a command word, by its field. -/
theorem CmdFields.getLsbD_word (c : CmdFields) (i : Nat) :
    c.word.getLsbD i =
      if i < 16 then c.zero.getLsbD i else if i < 20 then c.flags.getLsbD (i - 16)
      else if i < 24 then c.sel.getLsbD (i - 20) else c.opc.getLsbD (i - 24) := by
  have e : ((c.opc ++ c.sel ++ c.flags ++ c.zero : BitVec (8 + 4 + 4 + 16))).getLsbD i =
      if i < 16 then c.zero.getLsbD i else if i < 20 then c.flags.getLsbD (i - 16)
      else if i < 24 then c.sel.getLsbD (i - 20) else c.opc.getLsbD (i - 24) := by
    simp only [BitVec.getLsbD_append]
    by_cases h1 : i < 16
    · simp [h1]
    by_cases h2 : i < 20
    · have : i - 16 < 4 := by omega
      simp [h1, h2, this]
    by_cases h3 : i < 24
    · have h4 : ¬ i - 16 < 4 := by omega
      have h5 : i - 16 - 4 < 4 := by omega
      have h6 : i - 16 - 4 = i - 20 := by omega
      rw [if_neg h1, if_neg h4, if_pos h5, h6, if_neg h1, if_neg h2, if_pos h3]
    · have h4 : ¬ i - 16 < 4 := by omega
      have h5 : ¬ i - 16 - 4 < 4 := by omega
      have h6 : i - 16 - 4 - 4 = i - 24 := by omega
      rw [if_neg h1, if_neg h4, if_neg h5, h6, if_neg h1, if_neg h2, if_neg h3]
  exact e

/-- The fields read from a word are the fields it was made of. -/
@[simp] theorem fieldsOf_word (c : CmdFields) : fieldsOf c.word = c := by
  obtain ⟨o, s, f, z⟩ := c
  unfold fieldsOf
  congr 1
  · ext i hi
    have h1 : ¬ 24 + i < 16 := by omega
    have h2 : ¬ 24 + i < 20 := by omega
    have h3 : ¬ 24 + i < 24 := by omega
    simp [BitVec.getElem_extractLsb', CmdFields.getLsbD_word, h1, h2, h3, hi]
  · ext i hi
    have h1 : ¬ 20 + i < 16 := by omega
    have h2 : ¬ 20 + i < 20 := by omega
    have h3 : 20 + i < 24 := by omega
    simp [BitVec.getElem_extractLsb', CmdFields.getLsbD_word, h1, h2, h3, hi]
  · ext i hi
    have h1 : ¬ 16 + i < 16 := by omega
    have h2 : 16 + i < 20 := by omega
    simp [BitVec.getElem_extractLsb', CmdFields.getLsbD_word, h1, h2, hi]
  · ext i hi
    simp [BitVec.getElem_extractLsb', CmdFields.getLsbD_word, hi]

/-- A word is the word of its fields. -/
@[simp] theorem word_fieldsOf (w : CmdWord) : (fieldsOf w).word = w := by
  ext i hi
  rw [← BitVec.getLsbD_eq_getElem, CmdFields.getLsbD_word, ← BitVec.getLsbD_eq_getElem]
  unfold fieldsOf
  by_cases h1 : i < 16
  · simp [h1]
  by_cases h2 : i < 20
  · have h : 16 + (i - 16) = i := by omega
    have h' : i - 16 < 4 := by omega
    simp [h1, h2, h, h']
  by_cases h3 : i < 24
  · have h : 20 + (i - 20) = i := by omega
    have h' : i - 20 < 4 := by omega
    simp [h1, h2, h3, h, h']
  · have h : 24 + (i - 24) = i := by omega
    have h' : i - 24 < 8 := by omega
    simp [h1, h2, h3, h, h']

end Sys2Proof
end

