-- ==== Sys2Proof/Laws/Exec.lean ====
section
/-! SUPPORT. The frame every command shares: each is the generic checks of 60_exceptions.md R318 around a body of its own, `REG_READ` on a halted block apart. -/

namespace Sys2Proof.Machine

/-- Every command but `REG_READ` is the generic checks around a body. -/
theorem exec_command {i : Instr} (h : i ≠ .regRead) :
    ∃ body : State → Except Refusal Ending, ∀ s, exec i s = command s (body s) := by
  cases i with
  | regRead => exact absurd rfl h
  | _ => exact ⟨_, fun s => by simp only [exec]; rfl⟩

/-- A halted block does nothing with a command but `REG_READ` (60_exceptions.md R318). -/
theorem exec_halted {s : State} (h : s.halted) {i : Instr} (hi : i ≠ .regRead) : exec i s = .next s := by
  obtain ⟨body, hb⟩ := exec_command hi
  rw [hb, command_halted h]

/-- `REG_READ` on a halted block (60_exceptions.md R318). -/
theorem exec_regRead_halted {s : State} (h : s.halted) : exec .regRead s = .next (regReadHalted s) := by
  simp [exec, execRegRead, h]

/-- `REG_READ` on a running block. -/
theorem exec_regRead_running {s : State} (h : s.running) : exec .regRead s = regReadRunning s := by
  simp [exec, execRegRead, h]

/-- A running block ends a command as a body of the command's says, or refuses it for an operand. -/
theorem exec_running {s : State} (h : s.running) (i : Instr) :
    (∃ r, exec i s = .refused r) ∨ ∃ e, exec i s = .next (conclude s e) := by
  by_cases hi : i = .regRead
  · subst hi
    rw [exec_regRead_running h]
    unfold regReadRunning
    cases hb : (do
      let num ← s.argNat .a0
      Except.ok <|
        match regValue s num with
        | none => Ending.fault .illegalCommand
        | some v => .ok s { y0 := some v } : Except Refusal Ending) with
    | error r => exact .inl ⟨r, command_error h r⟩
    | ok e => exact .inr ⟨e, command_ok h e⟩
  · obtain ⟨body, hb⟩ := exec_command hi
    rw [hb]
    cases hx : body s with
    | error r => exact .inl ⟨r, command_error h r⟩
    | ok e => exact .inr ⟨e, command_ok h e⟩

/-- A halted `REG_READ` writes `Y0` and nothing else. -/
theorem regReadHalted_eq (s : State) :
    regReadHalted s = s ∨ ∃ v, regReadHalted s = { s with results := { s.results with y0 := some v } } := by
  unfold regReadHalted
  split
  · exact .inl rfl
  · split
    · exact .inl rfl
    · exact .inr ⟨_, rfl⟩

end Sys2Proof.Machine
end

