-- ==== Sys2Proof/Laws/Masks.lean ====
section
/-! SUPPORT. How long the sequences are that construction and the analysis commands build (42_codec_access.md R160, 43_codec_analysis.md R211, R225), and that they keep the codec well-formed. -/

namespace Sys2Proof.Machine

theorem zeroRuns_length (thr k : Nat) (bs : List Bit) : (zeroRuns thr k bs).length = k + bs.length := by
  induction bs generalizing k with
  | nil => simp [zeroRuns]
  | cons b bs ih =>
    cases b
    · simp [zeroRuns, ih]; omega
    · simp [zeroRuns, ih]

/-- A mask is as long as the storage. -/
theorem zeroRunMask_length {r : Ring} (h : r.wrap ≤ r.bits.length) (thr : Nat) :
    (zeroRunMask r thr).length = r.bits.length := by
  simp [zeroRunMask, zeroRuns_length]; omega

theorem phaseMap_length (q : Bit) (n : Nat) : (phaseMap q n).length = n := by simp [phaseMap]

theorem mfmEncodeFrom_length (v : Variant) (prev : Bit) (cnt : Nat) (d : List Bit) :
    (mfmEncodeFrom v prev cnt d).length = 2 * d.length := by
  induction d generalizing prev cnt with
  | nil => rfl
  | cons b bs ih => simp [mfmEncodeFrom, ih]; omega

theorem mfmEncode_length (d : List Bit) (prev : Bit) (v : Variant) :
    (mfmEncode d prev v).length = 2 * d.length := mfmEncodeFrom_length v prev 0 d

theorem bytesToBits_length (b : List Byte) : (bytesToBits b).length = 8 * b.length := by
  induction b with
  | nil => rfl
  | cons x b ih =>
    have : bytesToBits (x :: b) = byteBits x ++ bytesToBits b := rfl
    rw [this, List.length_append, ih]
    simp [byteBits]; omega

/-- The ring a mask command installs. -/
theorem wf_maskRing {r : Ring} {n : Nat} (h : r.wf n = true) (thr : Nat) : (maskRing r thr).wf n = true := by
  obtain ⟨hl, hw⟩ := Ring.wf_iff.mp h
  have hm : (zeroRunMask r thr).length = n := by rw [zeroRunMask_length (by omega), hl]
  refine Ring.wf_iff.mpr ⟨hm, ?_⟩
  show min r.wrap (zeroRunMask r thr).length ≤ n
  omega

/-- Construction gives a well-formed codec, when the weak mask it was given has the length of the bits. -/
theorem Codec.wf_build (s : List Bit) {m : Option (List Bit)} (h : ∀ l, m = some l → l.length = s.length) :
    (Codec.build s m).wf = true := by
  have hb : (Ring.fromBits s).wrap ≤ (Ring.fromBits s).bits.length := le_rfl
  have hm : (m.getD (zeroRunMask (Ring.fromBits s) Config.weakBitRun)).length = s.length := by
    cases m with
    | none => exact zeroRunMask_length hb _
    | some l => exact h l rfl
  refine Codec.wf_iff.mpr ⟨Ring.wf_fromBits s, ?_, ?_, ?_, rfl, rfl, le_rfl⟩
  · exact Ring.wf_iff.mpr ⟨phaseMap_length _ _, (phaseMap_length _ _).le⟩
  · exact Ring.wf_iff.mpr ⟨zeroRunMask_length hb _, (zeroRunMask_length hb _).le⟩
  · exact Ring.wf_iff.mpr ⟨hm, hm.le⟩

/-- `set_wrap` of all four rings keeps the codec well-formed. -/
theorem Codec.wf_setTrackLen {c : Codec} (h : c.wf = true) (len : Nat) : (c.setTrackLen len).wf = true := by
  obtain ⟨h1, h2, h3, h4, h5, h6, h7⟩ := Codec.wf_iff.mp h
  exact Codec.wf_iff.mpr ⟨Ring.wf_setWrap h1 len, Ring.wf_setWrap h2 len, Ring.wf_setWrap h3 len,
    Ring.wf_setWrap h4 len, h5, h6, h7⟩

/-- The ranges `SET_DATA_RANGES` installs are ordered, and the filtered ones no more. -/
theorem wf_ranges {rs : List (U64 × U64)} (h : rs.any badRange = false) (w : Nat) :
    rs.all rangeOrdered = true ∧ (rs.filter (rangeInside w)).all rangeOrdered = true ∧
      (rs.filter (rangeInside w)).length ≤ rs.length := by
  have h1 : ∀ r ∈ rs, rangeOrdered r = true := by
    intro r hr
    have := (List.any_eq_false.mp h) r hr
    simpa [badRange, rangeOrdered] using this
  exact ⟨List.all_eq_true.mpr h1,
    List.all_eq_true.mpr fun r hr => h1 r (List.mem_filter.mp hr).1, List.length_filter_le _ _⟩

end Sys2Proof.Machine
end

