-- ==== Sys2Proof/Laws/PerInstr.lean ====
section
/-! SUPPORT. Statements for all commands, one lemma a constructor: the fields of every command pass the four checks of 30_encoding.md R102. -/

namespace Sys2Proof.Laws

/-- Every command's own fields are legal: a known opcode, `Z = 0`, a legal selector, only defined flags. -/
def FieldsLegal.Statement (i : Instr) : Prop := i.wellFormed = true

theorem FieldsLegal.ringLen (r : RingSel) : Statement (.ringLen r) := by cases r <;> rfl
theorem FieldsLegal.ringSetWrap (r : RingSel) : Statement (.ringSetWrap r) := by cases r <;> rfl
theorem FieldsLegal.ringSetWrapValue (r : RingSel) (p : Bool) : Statement (.ringSetWrapValue r p) := by cases r <;> cases p <;> rfl
theorem FieldsLegal.ringGet (r : RingSel) : Statement (.ringGet r) := by cases r <;> rfl
theorem FieldsLegal.ringSet (r : RingSel) : Statement (.ringSet r) := by cases r <;> rfl
theorem FieldsLegal.ringIter (r : RingSel) : Statement (.ringIter r) := by cases r <;> rfl
theorem FieldsLegal.ringIterRev (r : RingSel) : Statement (.ringIterRev r) := by cases r <;> rfl
theorem FieldsLegal.ringRead (r : RingSel) : Statement (.ringRead r) := by cases r <;> rfl
theorem FieldsLegal.codecNew (c m : Bool) : Statement (.codecNew c m) := by cases c <;> cases m <;> rfl
theorem FieldsLegal.setClockMap : Statement .setClockMap := rfl
theorem FieldsLegal.setTrackLen : Statement .setTrackLen := rfl
theorem FieldsLegal.setWeakEnabled : Statement .setWeakEnabled := rfl
theorem FieldsLegal.readRawU8 : Statement .readRawU8 := rfl
theorem FieldsLegal.readRawU32 : Statement .readRawU32 := rfl
theorem FieldsLegal.readRawBuf : Statement .readRawBuf := rfl
theorem FieldsLegal.readDecodedU8 : Statement .readDecodedU8 := rfl
theorem FieldsLegal.readDecodedU32 : Statement .readDecodedU32 := rfl
theorem FieldsLegal.streamRead : Statement .streamRead := rfl
theorem FieldsLegal.seek (w : Whence) : Statement (.seek w) := by cases w <;> rfl
theorem FieldsLegal.writeRawBuf : Statement .writeRawBuf := rfl
theorem FieldsLegal.writeEncodedBuf (v : Variant) : Statement (.writeEncodedBuf v) := by cases v <;> rfl
theorem FieldsLegal.getClockMap : Statement .getClockMap := rfl
theorem FieldsLegal.getErrorMap : Statement .getErrorMap := rfl
theorem FieldsLegal.getWeakData : Statement .getWeakData := rfl
theorem FieldsLegal.setDataRanges : Statement .setDataRanges := rfl
theorem FieldsLegal.isData (w : Bool) : Statement (.isData w) := by cases w <;> rfl
theorem FieldsLegal.encodeMfm (v : Variant) : Statement (.encodeMfm v) := by cases v <;> rfl
theorem FieldsLegal.findMarker (l : Bool) : Statement (.findMarker l) := by cases l <;> rfl
theorem FieldsLegal.findSync : Statement .findSync := rfl
theorem FieldsLegal.createWeakMask (r : Bool) : Statement (.createWeakMask r) := by cases r <;> rfl
theorem FieldsLegal.createErrorMap : Statement .createErrorMap := rfl
theorem FieldsLegal.pllConfig : Statement .pllConfig := rfl
theorem FieldsLegal.pllReset : Statement .pllReset := rfl
theorem FieldsLegal.pllDecode (e : PllEnc) (h : Bool) : Statement (.pllDecode e h) := by cases e <;> cases h <;> rfl
theorem FieldsLegal.revNormalize : Statement .revNormalize := rfl
theorem FieldsLegal.revAlignPair : Statement .revAlignPair := rfl
theorem FieldsLegal.revDecodeDirect : Statement .revDecodeDirect := rfl
theorem FieldsLegal.regRead : Statement .regRead := rfl

end Sys2Proof.Laws
end

