-- ==== Sys2Proof/Laws/Sequences.lean ====
section
/-! SUPPORT. What the operations over bit sequences do, said once: cursor reads (41_bitring.md R140), the encoder (43_codec_analysis.md R211), the search registers (R215, R220), zero runs (R225). -/

namespace Sys2Proof.Machine

/-- A list with one entry replaced. -/
theorem getD_set (l : List Bit) (i j : Nat) (b : Bit) (hi : i < l.length) : (l.set i b).getD j false = if j = i then b else l.getD j false := by
  simp only [List.getD_eq_getElem?_getD, List.getElem?_set]
  by_cases h : i = j
  · subst h; simp [hi]
  · have : ¬ j = i := fun h' => h h'.symm
    simp [h, this]

/-- The cursor `m` places on: around the revolution, from 0 after a cursor left beyond the wrap (41_bitring.md R140). -/
def cursorPos (w c m : Nat) : Nat := if m = 0 then c else if c < w then (c + m) % w else (m - 1) % w

theorem cursorPos_succ (r : Ring) (hw : r.wrap ≠ 0) (c m) : cursorPos r.wrap (r.cursorAfter c) m = cursorPos r.wrap c (m+1) := by
  unfold cursorPos Ring.cursorAfter
  by_cases h : r.wrap ≤ c + 1
  · simp only [h, if_true]
    have : 0 < r.wrap := by omega
    rcases Nat.lt_or_eq_of_le h with h2 | h2
    · have : ¬ c < r.wrap := by omega
      by_cases hm : m = 0
      · simp [hm, this]
      · simp [*]
    · have : c < r.wrap := by omega
      have e : c + (m+1) = m + r.wrap := by omega
      by_cases hm : m = 0
      · subst hm; simp [h2]
      · simp only [*, if_false, Nat.add_mod_right, Nat.zero_add]; simp
  · have : c < r.wrap := by omega
    have h3 : c + 1 < r.wrap := by omega
    by_cases hm : m = 0
    · subst hm; simp [h, this, Nat.mod_eq_of_lt h3]
    · simp only [h, hm, if_false, h3, if_true, this]
      simp [Nat.add_assoc, Nat.add_comm 1 m]

theorem cursorPos_add (w c a b) (hw : w ≠ 0) : cursorPos w (cursorPos w c a) b = cursorPos w c (a + b) := by
  by_cases ha : a = 0
  · subst ha; simp [cursorPos]
  by_cases hb : b = 0
  · subst hb; simp [cursorPos]
  have hp : 0 < w := by omega
  unfold cursorPos
  have : a + b ≠ 0 := by omega
  by_cases hc : c < w
  · have := Nat.mod_lt (c + a) hp
    simp only [*, if_true, if_false]
    rw [Nat.mod_add_mod]; congr 1; omega
  · have := Nat.mod_lt (a-1) hp
    simp only [*, if_true, if_false]
    rw [Nat.mod_add_mod]; congr 1; omega

/-- Everything a cursor read of bits does, on a ring that has bits. -/
theorem Ring.takeBits_spec {r : Ring} (hw : r.wrap ≠ 0) : ∀ n c, ∃ bs, r.takeBits n c = .ok (bs, cursorPos r.wrap c n) ∧ bs.length = n ∧
   ∀ k, k < n → r.get (cursorPos r.wrap c k) = .ok (bs.getD k false) := by
  intro n
  induction n with
  | zero => intro c; exact ⟨[], rfl, rfl, fun k hk => absurd hk (by omega)⟩
  | succ n ih =>
    intro c
    obtain ⟨bs, h1, h2, h3⟩ := ih (r.cursorAfter c)
    obtain ⟨b, hb⟩ := Ring.get_ok (.inl hw) c
    refine ⟨b :: bs, ?_, by simp [h2], ?_⟩
    · simp [Ring.takeBits, hb, h1, cursorPos_succ r hw]
    · intro k hk
      cases k with
      | zero => simpa [cursorPos] using hb
      | succ k => rw [← cursorPos_succ r hw]; simpa using h3 k (by omega)

/-- Everything a cursor read of bytes does, on a ring that has bits. -/
theorem Ring.takeBytes_spec {r : Ring} (hw : r.wrap ≠ 0) : ∀ n c, ∃ out, r.takeBytes n c = .ok (out, cursorPos r.wrap c (8 * n)) ∧ out.length = n ∧
   ∀ m k, m < n → k < 8 → r.get (cursorPos r.wrap c (8 * m + k)) = .ok ((out.getD m 0).getMsbD k) := by
  intro n
  induction n with
  | zero => intro c; exact ⟨[], rfl, rfl, fun k _ hk => absurd hk (by omega)⟩
  | succ n ih =>
    intro c
    obtain ⟨bs, b1, b2, b3⟩ := Ring.takeBits_spec hw 8 c
    obtain ⟨out, h1, h2, h3⟩ := ih (cursorPos r.wrap c 8)
    refine ⟨packByte bs :: out, ?_, by simp [h2], ?_⟩
    · simp [Ring.takeBytes, b1, h1, cursorPos_add _ _ _ _ hw]; congr 1; omega
    · intro m k hm hk
      cases m with
      | zero => 
        simp only [Nat.mul_zero, Nat.zero_add]
        rw [b3 k hk, List.getD_cons_zero, getMsbD_packByte (by omega) hk]
      | succ m =>
        have := h3 m k (by omega) hk
        rw [cursorPos_add _ _ _ _ hw] at this
        rw [List.getD_cons_succ, ← this]; congr 2; omega

/-- The bits of one revolution are the stored bits below the wrap. -/
theorem Ring.getMany_revolution (r : Ring) (h : r.wrap ≤ r.bits.length) : r.getMany r.wrap 0 = .ok (r.bits.take r.wrap) := by
  have key : ∀ n i, i + n ≤ r.wrap → r.getMany n i = .ok ((r.bits.drop i).take n) := by
    intro n
    induction n with
    | zero => intro i _; simp [Ring.getMany]
    | succ n ih =>
      intro i hi
      have hlt : i < r.bits.length := by omega
      unfold Ring.getMany
      rw [Ring.get_below (by omega), ih (i+1) (by omega)]
      simp only [Ring.stored]
      rw [List.drop_eq_getElem_cons hlt, List.take_succ_cons]
      simp [List.getD, hlt]
  simpa using key r.wrap 0 (by omega)

/-- The bits of the marker search's register after one more bit. -/
theorem shiftIn64_getLsbD (reg : U64) (b : Bit) (t : Nat) (ht : t < 64) : (shiftIn64 reg b).getLsbD t = if t = 0 then b else reg.getLsbD (t-1) := by
  unfold shiftIn64 bitWord u64
  rw [BitVec.getLsbD_or, BitVec.getLsbD_shiftLeft, BitVec.getLsbD_ofNat]
  rcases Nat.eq_zero_or_pos t with rfl | h
  · cases b <;> simp
  · obtain ⟨t, rfl⟩ : ∃ u, t = u + 1 := ⟨t - 1, by omega⟩
    cases b <;> simp [ht, Nat.testBit_succ]

/-- The bits of the sync search's register after one more bit. -/
theorem shiftIn32_getLsbD (reg : BitVec 32) (b : Bit) (t : Nat) (ht : t < 32) : (shiftIn32 reg b).getLsbD t = if t = 0 then b else reg.getLsbD (t-1) := by
  unfold shiftIn32
  rw [BitVec.getLsbD_or, BitVec.getLsbD_shiftLeft, BitVec.getLsbD_ofNat]
  rcases Nat.eq_zero_or_pos t with rfl | h
  · cases b <;> simp
  · obtain ⟨t, rfl⟩ : ∃ u, t = u + 1 := ⟨t - 1, by omega⟩
    cases b <;> simp [ht, Nat.testBit_succ]

/-- The data bit of an encoded pair. -/
theorem mfmEncodeFrom_data (v : Variant) : ∀ (d : List Bit) (prev cnt i), i < d.length → (mfmEncodeFrom v prev cnt d).getD (2*i+1) false = d.getD i false := by
  intro d
  induction d with
  | nil => intro _ _ i h; simp at h
  | cons b bs ih =>
    intro prev cnt i h
    cases i with
    | zero => rfl
    | succ i => 
      have := ih b ((cnt+1)%8) i (by simpa using h)
      have e : 2 * (i+1) + 1 = (2*i+1) + 1 + 1 := by omega
      rw [e]; simpa [mfmEncodeFrom] using this

/-- The clock bit of a pair of the `Data` encoding. -/
theorem mfmEncodeFrom_clock : ∀ (d : List Bit) (prev cnt i), i < d.length → (mfmEncodeFrom .data prev cnt d).getD (2*i) false = (!d.getD i false && !(if i = 0 then prev else d.getD (i-1) false)) := by
  intro d
  induction d with
  | nil => intro _ _ i h; simp at h
  | cons b bs ih =>
    intro prev cnt i h
    cases i with
    | zero => simp [mfmEncodeFrom, mfmClock]
    | succ i => 
      have := ih b ((cnt+1)%8) i (by simpa using h)
      have e : 2 * (i+1) = (2*i) + 1 + 1 := by omega
      rw [e]; simp only [mfmEncodeFrom, List.getD_cons_succ]
      rw [this]
      cases i <;> simp

/-- The `AddressMark` encoding is the `Data` one but for the clock of pair 3 of each eight. -/
theorem mfmEncodeFrom_addressMark : ∀ (d : List Bit) (prev cnt) , cnt < 8 → ∀ i, (mfmEncodeFrom .addressMark prev cnt d).getD i false =
      if (i + 2 * cnt) % 16 = 6 then false else (mfmEncodeFrom .data prev cnt d).getD i false := by
  intro d
  induction d with
  | nil => intro prev cnt _ i; simp [mfmEncodeFrom]
  | cons b bs ih =>
    intro prev cnt hc i
    match i with
    | 0 => 
      simp only [mfmEncodeFrom, List.getD_cons_zero, mfmClock]
      by_cases h : cnt = 3
      · subst h; simp
      · have : ¬ (0 + 2 * cnt) % 16 = 6 := by omega
        have e3 : (cnt == 3) = false := by simp [h]
        rw [if_neg this, e3]; simp
    | 1 =>
      have : ¬ (1 + 2 * cnt) % 16 = 6 := by omega
      simp [mfmEncodeFrom, this]
    | i+2 =>
      simp only [mfmEncodeFrom, List.getD_cons_succ]
      rw [ih b ((cnt+1)%8) (Nat.mod_lt _ (by omega)) i]
      have : (i + 2 * ((cnt+1)%8)) % 16 = 6 ↔ (i + 2 + 2 * cnt) % 16 = 6 := by omega
      simp only [this]

/-- Position `j` of `L` lies in a run of more than `thr` zero bits. -/
def ZeroRunAt (L : List Bit) (thr j : Nat) : Prop :=
  ∃ a b, a ≤ j ∧ j < b ∧ b ≤ L.length ∧ thr < b - a ∧ ∀ i, a ≤ i → i < b → L.getD i false = false

/-- Everything `zeroRuns` does: it marks the positions that lie in a long zero run. -/
theorem zeroRuns_spec (thr k : Nat) (bs : List Bit) (j : Nat) :
    (zeroRuns thr k bs).getD j false = true ↔ ZeroRunAt (List.replicate k false ++ bs) thr j := by
  induction bs generalizing k j with
  | nil =>
    simp only [zeroRuns, ZeroRunAt, List.append_nil, List.length_replicate, List.getD_eq_getElem?_getD, List.getElem?_replicate]
    constructor
    · intro h
      split at h
      · refine ⟨0, k, by omega, by omega, le_rfl, by simpa using h, ?_⟩
        intro i _ hi; simp [hi]
      · simp at h
    · rintro ⟨a, b, h1, h2, h3, h4, -⟩
      rw [if_pos (by omega)]; simp; omega
  | cons x bs ih =>
    cases x with
    | false =>
      rw [zeroRuns, ih, List.replicate_succ', List.append_assoc]; rfl
    | true =>
      rw [zeroRuns]
      have ih0 := ih 0
      simp only [List.replicate_zero, List.nil_append] at ih0
      have gl : ∀ i, (List.replicate k false ++ true :: bs).getD i false = if i = k then true else if i < k then false else bs.getD (i - k - 1) false := by
        intro i
        simp only [List.getD_eq_getElem?_getD, List.getElem?_append, List.length_replicate, List.getElem?_replicate]
        split
        · next h => simp; omega
        · next h =>
          split
          · next h2 => subst h2; simp
          · next h2 =>
            obtain ⟨d, rfl⟩ : ∃ d, i = k + d + 1 := ⟨i - k - 1, by omega⟩
            simp [show k + d + 1 - k = d + 1 by omega]
      have ml : (List.replicate k (decide (thr < k)) ++ false :: zeroRuns thr 0 bs).getD j false = if j = k then false else if j < k then decide (thr < k) else (zeroRuns thr 0 bs).getD (j - k - 1) false := by
        simp only [List.getD_eq_getElem?_getD, List.getElem?_append, List.length_replicate, List.getElem?_replicate]
        split
        · next h => rw [if_neg (by omega)]; simp
        · next h =>
          split
          · next h2 => subst h2; simp
          · next h2 =>
            obtain ⟨d, rfl⟩ : ∃ d, j = k + d + 1 := ⟨j - k - 1, by omega⟩
            simp [show k + d + 1 - k = d + 1 by omega]
      rw [ml]
      constructor
      · intro h
        split at h
        · simp at h
        · next h1 =>
          split at h
          · next h2 =>
            refine ⟨0, k, by omega, h2, by simp, by simpa using h, ?_⟩
            intro i _ hi; rw [gl, if_neg (by omega), if_pos hi]
          · next h2 =>
            obtain ⟨a, b, q1, q2, q3, q4, q5⟩ := (ih0 _).mp h
            refine ⟨a + k + 1, b + k + 1, by omega, by omega, by simp; omega, by omega, ?_⟩
            intro i hi hj
            rw [gl, if_neg (by omega), if_neg (by omega)]
            exact q5 _ (by omega) (by omega)
      · rintro ⟨a, b, q1, q2, q3, q4, q5⟩
        have hk : ¬ (a ≤ k ∧ k < b) := by
          rintro ⟨u, v⟩
          have := q5 k u v
          rw [gl, if_pos rfl] at this; simp at this
        simp at q3
        split
        · omega
        · split
          · simp; omega
          · apply (ih0 _).mpr
            refine ⟨a - k - 1, b - k - 1, by omega, by omega, by omega, by omega, ?_⟩
            intro i hi hj
            have := q5 (i + k + 1) (by omega) (by omega)
            rw [gl, if_neg (by omega), if_neg (by omega)] at this
            rwa [show i + k + 1 - k - 1 = i by omega] at this

/-- The ring a mask command installs, written out. -/
theorem maskRing_eq (r : Ring) (hw : r.wrap ≤ r.bits.length) (thr : Nat) :
    maskRing r thr = ⟨zeroRunMask r thr, r.wrap, none, 0⟩ := by
  unfold maskRing Ring.setWrap Ring.fromBits
  simp [zeroRunMask_length hw, hw]

end Sys2Proof.Machine
end

