-- ==== Sys2Proof/Tests/Slice0.lean ====
section
/-! SUPPORT. Tests. The expected results are those of spec/95_test_vectors.md (its vector is named at each), or of the rule named. The second part shows, for every statement that has hypotheses, operands and states that meet them. -/

namespace Sys2Proof.Tests

open Sys2Proof.Machine Sys2Proof.Claims

set_option Elab.async false

/-! ### Small states -/

/-- A bit sequence from a number, the first bit most significant. -/
def bitsOf (n w : Nat) : List Bit := (List.range n).map (fun i => w.testBit (n - 1 - i))

/-- The track `T` of spec/95_test_vectors.md. -/
def trackT : List Bit := bitsOf 64 0xAAAAAAAA44A95554

/-- The last ten bytes of its track `T2`. -/
def trackM : List Bit := bitsOf 80 0xAAAA44A944A944A95554

/-- A PLL unit with all values exact: period 1, no clamp room, no gain. -/
def unitOne : Pll := ⟨F64.one, F64.one, 0, 0, 0, 0, 0, 0⟩

/-- A PLL unit configured with 500000.0, 0.15, 0.05, 1.0 (vector CFG-1). -/
def unitMhz : Pll :=
  ⟨0x3EC0C6F7A0B5ED8D, 0x3EC0C6F7A0B5ED8D, 0x3FC3333333333333, 0x3FA999999999999A, F64.one, 0, 0, 0⟩

/-- A block with the codec, the operands and the buffers given. -/
def block (c : Codec) (a : Args := {}) (i0 i1 : Option Buffer := none) (u : Pll := unitOne) : State :=
  { State.resetWith F64.one 0 with codec := c, args := a, ib0 := i0, ib1 := i1, pll := u }

/-- The codec of the track `T` (vector ACC-1). -/
def codecT : Codec := Codec.build trackT none

/-- The codec of a short track. -/
def codecOf (n w : Nat) : Codec := Codec.build (bitsOf n w) none

/-- One argument. -/
def arg1 (v : U64) : Args := { a0 := some v }

/-- Two arguments. -/
def arg2 (v w : U64) : Args := { a0 := some v, a1 := some w }

/-- A block that took a fault. -/
def haltedBlock (a : Args := {}) : State := { block Codec.reset a with status := 0x00800180 }

/-- The state an outcome gives. -/
def after (o : Host.Outcome State Fault Refusal) : Option State :=
  match o with
  | .next t => some t
  | .fault _ => none
  | .refused _ => none

/-- `Y0` after an outcome. -/
def y0 (o : Host.Outcome State Fault Refusal) : Option U64 := (after o).bind (fun t => t.results.y0)

/-- `Y1` after an outcome. -/
def y1 (o : Host.Outcome State Fault Refusal) : Option U64 := (after o).bind (fun t => t.results.y1)

/-- `OB0` after an outcome. -/
def ob0 (o : Host.Outcome State Fault Refusal) : Option Buffer := (after o).bind (fun t => t.results.ob0)

/-- `STATUS` after an outcome. -/
def status (o : Host.Outcome State Fault Refusal) : Option (BitVec 32) := (after o).map (fun t => t.status)

/-- An outcome whose state can be shown is that next state. -/
theorem next_of_after {o : Host.Outcome State Fault Refusal} (h : (after o).isSome = true) : ∃ t, o = .next t := by
  cases o with
  | next t => exact ⟨t, rfl⟩
  | fault f => cases f
  | refused r => cases h

/-! ### WellFormed: a word that breaks one check, and the check refuses it (30_encoding.md R102) -/

theorem test_check_opcode : (⟨0x32, 0, 0, 0⟩ : CmdFields).known = false ∧
    decode 0x32000000 = .error .unknownOpcode := by decide
theorem test_check_reserved : (⟨0x24, 0, 0, 1⟩ : CmdFields).reservedZero = false ∧
    decode 0x24000001 = .error .reservedNotZero := by decide
theorem test_check_selector : (⟨0x2A, 3, 0, 0⟩ : CmdFields).selectorLegal = false ∧
    decode 0x2A300000 = .error .illegalSelector := by decide
theorem test_check_flags : (⟨0x12, 0, 2, 0⟩ : CmdFields).flagsDefined = false ∧
    decode 0x12020000 = .error .undefinedFlag := by decide

/-! ### Decoding: words written out from 30_encoding.md R101 and R111, as opcode, S, F, Z -/

theorem test_decode_ring :
    decode 0b00010000001000000000000000000000#32 = .ok (.ringLen .error) ∧
    decode 0b00010001000100000000000000000000#32 = .ok (.ringSetWrap .clock) ∧
    decode 0b00010010001100010000000000000000#32 = .ok (.ringSetWrapValue .weak true) ∧
    decode 0b00010011000100000000000000000000#32 = .ok (.ringGet .clock) ∧
    decode 0b00010100001100000000000000000000#32 = .ok (.ringSet .weak) ∧
    decode 0b00010101001000000000000000000000#32 = .ok (.ringIter .error) ∧
    decode 0b00010110000000000000000000000000#32 = .ok (.ringIterRev .bits) ∧
    decode 0b00010111000100000000000000000000#32 = .ok (.ringRead .clock) := by decide
theorem test_decode_codec :
    decode 0b00100000000000010000000000000000#32 = .ok (.codecNew true false) ∧
    decode 0b00100000000000100000000000000000#32 = .ok (.codecNew false true) ∧
    decode 0b00100001000000000000000000000000#32 = .ok .setClockMap ∧
    decode 0b00100010000000000000000000000000#32 = .ok .setTrackLen ∧
    decode 0b00100011000000000000000000000000#32 = .ok .setWeakEnabled ∧
    decode 0b00100100000000000000000000000000#32 = .ok .readRawU8 ∧
    decode 0b00100101000000000000000000000000#32 = .ok .readRawU32 ∧
    decode 0b00100110000000000000000000000000#32 = .ok .readRawBuf ∧
    decode 0b00100111000000000000000000000000#32 = .ok .readDecodedU8 ∧
    decode 0b00101000000000000000000000000000#32 = .ok .readDecodedU32 ∧
    decode 0b00101001000000000000000000000000#32 = .ok .streamRead ∧
    decode 0b00101010000100000000000000000000#32 = .ok (.seek .fromCurrent) ∧
    decode 0b00101011000000000000000000000000#32 = .ok .writeRawBuf ∧
    decode 0b00101100000100000000000000000000#32 = .ok (.writeEncodedBuf .addressMark) ∧
    decode 0b00101101000000000000000000000000#32 = .ok .getClockMap ∧
    decode 0b00101110000000000000000000000000#32 = .ok .getErrorMap ∧
    decode 0b00101111000000000000000000000000#32 = .ok .getWeakData ∧
    decode 0b00110000000000000000000000000000#32 = .ok .setDataRanges ∧
    decode 0b00110001000100000000000000000000#32 = .ok (.isData true) := by decide
theorem test_decode_units :
    decode 0b01000000000000000000000000000000#32 = .ok (.encodeMfm .data) ∧
    decode 0b01000001000000010000000000000000#32 = .ok (.findMarker true) ∧
    decode 0b01000010000000000000000000000000#32 = .ok .findSync ∧
    decode 0b01000011000000010000000000000000#32 = .ok (.createWeakMask true) ∧
    decode 0b01000100000000000000000000000000#32 = .ok .createErrorMap ∧
    decode 0b01010000000000000000000000000000#32 = .ok .pllConfig ∧
    decode 0b01010001000000000000000000000000#32 = .ok .pllReset ∧
    decode 0b01010010000100010000000000000000#32 = .ok (.pllDecode .fm true) ∧
    decode 0b01100000000000000000000000000000#32 = .ok .revNormalize ∧
    decode 0b01100001000000000000000000000000#32 = .ok .revAlignPair ∧
    decode 0b01100010000000000000000000000000#32 = .ok .revDecodeDirect ∧
    decode 0b01110000000000000000000000000000#32 = .ok .regRead := by decide

/-- Every row's word, as the first command after reset, is decoded and runs. -/
theorem test_first_command :
    ((opRows.map (fun r => r.opc.toNat * 2 ^ 24)).all (fun w =>
      (decodeTableWord 32 w).isSome && (after (step (State.reset.withFetchWord 32 w))).isSome)) = true := by
  decide +kernel

/-! ### One step of each command -/

theorem test_ringLen : y0 (exec (.ringLen .bits) (block codecT)) = some 64 := by decide +kernel -- RING-1
theorem test_ringSetWrap : (after (exec (.ringSetWrap .bits) (block codecT (arg1 100)))).map (fun t => t.codec.bits.wrap)
    = some 64 := by decide +kernel -- RING-2
theorem test_ringSetWrapValue : (after (exec (.ringSetWrapValue .weak true) (block codecT (arg1 3)))).map
    (fun t => t.codec.weak.wrapValue) = some (some true) := by decide +kernel -- RING-12
theorem test_clearWrapValue : (after (exec (.ringSetWrapValue .clock false) (block codecT))).map
    (fun t => t.codec.clock.wrapValue) = some none := by decide +kernel -- RING-13
theorem test_ringGet_folds : y0 (exec (.ringGet .bits) (block codecT (arg1 64))) = some 1 := by decide +kernel -- RING-3
theorem test_ringGet_wrapValue : y0 (exec (.ringGet .clock) (block codecT (arg1 64))) = some 0 := by decide +kernel -- RING-4
theorem test_ringSet : (after (exec (.ringSet .bits) (block codecT (arg2 65 1)))).map (fun t => packMsb t.codec.bits.bits)
    = some 0xEAAAAAAA44A95554 := by decide +kernel -- RING-11
theorem test_ringSet_empty : status (exec (.ringSet .clock) (block Codec.reset (arg2 0 1)))
    = some 0x00820182 := by decide +kernel -- ST-8
theorem test_ringIter : ob0 (exec (.ringIter .clock) (block (codecOf 4 0b0100) (arg1 6)))
    = some (.bits [true, false, true, false, false, false]) := by decide +kernel -- R139: four stored bits, two wrap values
theorem test_ringIterRev : ob0 (exec (.ringIterRev .bits) (block (codecOf 5 0b10110)))
    = some (.bits [true, false, true, true, false]) := by decide +kernel -- R141
theorem test_ringRead : ob0 (exec (.ringRead .bits) (block (codecOf 5 0b10110) (arg1 2)))
    = some (.bytes [0xB5, 0xAD]) := by decide +kernel -- RING-16
theorem test_ringRead_empty : status (exec (.ringRead .bits) (block Codec.reset (arg1 1))) = some 2 := by decide +kernel -- RING-17
theorem test_codecNew : (after (exec (.codecNew true false) (block Codec.reset (arg1 40) (some (.bits trackT))))).map
    (fun t => (t.codec.bits.bits.length, t.codec.initialPhase)) = some (40, false) := by decide +kernel -- ACC-2
theorem test_codecNew_mask : status (exec (.codecNew true true)
    (block Codec.reset (arg1 40) (some (.bits trackT)) (some (.bits (bitsOf 40 0))))) = some 0x00800180 := by decide +kernel -- ACC-6
theorem test_setClockMap : status (exec .setClockMap (block codecT {} (some (.bits (bitsOf 63 0)))))
    = some 0x00810181 := by decide +kernel -- ACC-9
theorem test_setTrackLen : (after (exec .setTrackLen (block codecT (arg1 1000)))).map
    (fun t => (t.codec.bits.wrap, t.codec.weak.wrap)) = some (64, 64) := by decide +kernel -- ACC-11
theorem test_setWeakEnabled : (after (exec .setWeakEnabled (block codecT (arg1 2)))).map
    (fun t => t.codec.weakEnabled) = some false := by decide +kernel -- R164: bit 0 only
theorem test_readRawU8 : y0 (exec .readRawU8 (block codecT (arg1 60))) = some 0x4A := by decide +kernel -- ACC-13
theorem test_readRawU8_top : y0 (exec .readRawU8 (block codecT (arg1 0xFFFFFFFFFFFFFFF8))) = some 0x54 ∧
    status (exec .readRawU8 (block codecT (arg1 0xFFFFFFFFFFFFFFF9))) = some 0x00840184 := by decide +kernel -- ST-3, ST-4
theorem test_readRawU32 : y0 (exec .readRawU32 (block codecT (arg1 32))) = some 0x44A95554 := by decide +kernel -- ACC-14
theorem test_readRawBuf : ob0 (exec .readRawBuf (block codecT (arg2 0 2))) = some (.bytes [0xAA, 0xAA]) := by decide +kernel -- ACC-15
theorem test_readDecodedU8_nudge : y0 (exec .readDecodedU8 (block codecT (arg1 33))) = some 0x43 ∧
    y1 (exec .readDecodedU8 (block codecT (arg1 33))) = some 34 := by decide +kernel -- ACC-18
theorem test_readDecodedU8_seam : y0 (exec .readDecodedU8 (block codecT (arg1 63))) = some 0xFF ∧
    y1 (exec .readDecodedU8 (block codecT (arg1 63))) = some 63 := by decide +kernel -- ACC-20
theorem test_readDecodedU32 : y0 (exec .readDecodedU32 (block codecT (arg1 0))) = some 0xA1FE := by decide +kernel -- ACC-23
theorem test_streamRead : ob0 (exec .streamRead (block codecT (arg1 5))) = some (.bytes [0, 0, 0xA1, 0xFE, 0]) ∧
    (after (exec .streamRead (block codecT (arg1 5)))).map (fun t => t.codec.bitCursor) = some 16 := by decide +kernel -- ACC-29
theorem test_seek_end : y0 (exec (.seek .fromEnd) (block codecT (arg1 0xFFFFFFFFFFFFFFE0))) = some 32 := by decide +kernel -- ACC-30
theorem test_seek_before : status (exec (.seek .fromCurrent) (block codecT (arg1 0xFFFFFFFFFFFFFFFF))) = some 2 := by decide +kernel -- ACC-31
theorem test_writeRawBuf : (after (exec .writeRawBuf (block codecT (arg1 60) (some (.bytes [0x0F]))))).map
    (fun t => packMsb t.codec.bits.bits) = some 0xFAAAAAAA44A95550 := by decide +kernel -- ACC-38
theorem test_writeEncodedBuf : (after (exec (.writeEncodedBuf .addressMark) (block codecT (arg1 0) (some (.bytes [0]))))).map
    (fun t => packMsb t.codec.bits.bits) = some 0xA8AAAAAA44A95554 := by decide +kernel -- ACC-37
theorem test_getClockMap : ob0 (exec .getClockMap (block codecT)) = some (.bits (bitsOf 64 0xAAAAAAAAAAAAAAAA)) := by decide +kernel -- ACC-39
theorem test_getErrorMap : ob0 (exec .getErrorMap (block codecT)) = some (.bits (bitsOf 64 0)) := by decide +kernel -- ACC-40
theorem test_getWeakData : ob0 (exec .getWeakData (block (Codec.build (bitsOf 10 0) (some (bitsOf 10 0b0000001111)))))
    = some (.bytes [0x03, 0xC0]) := by decide +kernel -- ACC-42
theorem test_setDataRanges : (after (exec .setDataRanges (block codecT {} (some (.ranges [(10, 20), (60, 70)]))))).map
    (fun t => t.codec.dataRangesFiltered) = some [(10, 20)] := by decide +kernel -- ACC-43
theorem test_setDataRanges_bad : status (exec .setDataRanges (block codecT {} (some (.ranges [(7, 3)]))))
    = some 0x00870187 := by decide +kernel -- ACC-46
theorem test_isData : y0 (exec (.isData true) (block { codecT with dataRanges := [(60, 70)] } (arg1 65))) = some 1 ∧
    y0 (exec (.isData false) (block { codecT with dataRanges := [(60, 70)] } (arg1 65))) = some 0 := by decide +kernel -- ACC-44
theorem test_encodeMfm : ob0 (exec (.encodeMfm .data) (block Codec.reset (arg1 0) (some (.bits (bitsOf 8 0x4E)))))
    = some (.bits (bitsOf 16 0x9254)) := by decide +kernel -- section 2.4
theorem test_encodeMfm_mark : ob0 (exec (.encodeMfm .addressMark) (block Codec.reset (arg1 0) (some (.bits (bitsOf 5 0)))))
    = some (.bits (bitsOf 10 0b1010100010)) := by decide +kernel -- ENC-7
theorem test_findMarker : y0 (exec (.findMarker false)
      (block (Codec.build trackM none) ⟨some 0x44A944A944A95554, some 0xFFFFFFFFFFFFFFFF, some 0, none⟩)) = none ∧
    y0 (exec (.findMarker false)
      (block (Codec.build (trackM ++ [true]) none) ⟨some 0x44A944A944A95554, some 0xFFFFFFFFFFFFFFFF, some 0, none⟩)) = some 16 := by
  decide +kernel -- R215: the window is tested one bit later; MK-2, MK-3
theorem test_findMarker_mask : status (exec (.findMarker false) (block codecT ⟨some 0, some 0, some 0, none⟩)) = some 1 := by
  decide +kernel -- MK-9
theorem test_findSync : y0 (exec .findSync (block (Codec.build (false :: trackT) none) (arg1 0))) = some 1 ∧
    y1 (exec .findSync (block (Codec.build (false :: trackT) none) (arg1 0))) = some 1 := by decide +kernel -- SY-4
theorem test_createWeakMask : y0 (exec (.createWeakMask false) (block (codecOf 7 0))) = some 7 ∧
    y0 (exec (.createWeakMask false) (block (codecOf 6 0))) = some 0 := by decide +kernel -- ZR-4, ZR-5
theorem test_createErrorMap : (after (exec .createErrorMap (block (codecOf 9 0b000110000)))).map
    (fun t => t.codec.error.bits) = some (bitsOf 9 0b000001111) := by decide +kernel -- ZR-3
theorem test_pllConfig : (after (exec .pllConfig (block Codec.reset
      ⟨some 0x411E848000000000, some 0x3FC3333333333333, some 0x3FA999999999999A, some F64.one⟩))).map (fun t => t.pll)
    = some unitMhz := by decide +kernel -- CFG-1
theorem test_pllConfig_bad : status (exec .pllConfig (block Codec.reset ⟨some 0, some 0, some 0, some 0⟩))
    = some 0x00860186 := by decide +kernel -- CFG-2
theorem test_pllReset : (after (exec .pllReset (block Codec.reset {} none none
      { unitMhz with period := F64.one, bitsOut := 5 }))).map (fun t => t.pll) = some unitMhz := by decide +kernel -- CFG-8
theorem test_pllDecode : (after (exec (.pllDecode .mfm false) (block Codec.reset {}
      (some (.f64s [0x3ED0C6F7A0B5ED8D, 0x3ED0C6F7A0B5ED8D, 0x3ED92A737110E454, 0x3ED0C6F7A0B5ED8D])) none unitMhz))).map
      (fun t => (t.results.ob0, t.pll.period))
    = some (some (.bits (bitsOf 10 0b0010100101)), 0x3EC0331CF0A32C19) := by decide +kernel -- PLL-1
theorem test_pllDecode_bad : status (exec (.pllDecode .mfm true)
      (block Codec.reset (arg1 0) (some (.f64s [0xBEB0C6F7A0B5ED8D])) none unitMhz)) = some 0x00850185 := by decide +kernel -- PLL-14
theorem test_revNormalize : ob0 (exec .revNormalize (block Codec.reset {} (some (.f64s
      [0x3ED0C6F7A0B5ED8D, 0, 0x3EC0C6F7A0B5ED8D, 0x8000000000000000]))))
    = some (.f64s [0x3ED0C6F7A0B5ED8D, 0x3EC0C6F7A0B5ED8D]) := by decide +kernel -- REV-1
theorem test_revAlignPair : ob0 (exec .revAlignPair (block Codec.reset {} (some (.f64s [1, 2, 3, 4])) (some (.f64s [5, 6]))))
      = some (.f64s [1, 2, 3]) ∧
    y0 (exec .revAlignPair (block Codec.reset {} (some (.f64s [1, 2, 3])) (some (.f64s [5, 6])))) = some 0 := by
  decide +kernel -- REV-5, REV-7
theorem test_revDecodeDirect_bad : status (exec .revDecodeDirect (block Codec.reset (arg1 0) (some (.f64s [0x7FF0000000000000]))))
    = some 0x00850185 := by decide +kernel -- R297 with R256
theorem test_regRead : y0 (exec .regRead (block codecT (arg1 6))) = some 4 ∧
    status (exec .regRead (block codecT (arg1 0x1A))) = some 0x00830183 := by decide +kernel -- ACC-1, ACC-49
theorem test_regRead_halted : y0 (exec .regRead (haltedBlock (arg1 0))) = some 0x00800180 ∧
    after (exec .regRead (haltedBlock (arg1 0xF))) = some (haltedBlock (arg1 0xF)) := by decide +kernel -- ST-10, ST-12

/-! ### Witnesses: encoding, steps, reset -/

theorem witness_DecodeOfEncode : (Instr.codecNew true true).wellFormed = true ∧ (Instr.pllDecode .fm true).wellFormed = true := by decide
theorem witness_EncodeOfDecode : decode 0x2A200000 = .ok (.seek .fromEnd) := by decide
theorem witness_WordRunsItsCommandOrIsIllegal : (block codecT).running ∧ (fieldsOf 0x13300000).wellFormed = true ∧
    (fieldsOf 0x13400000).wellFormed = false ∧ (fieldsOf 0x12020000).wellFormed = false ∧
    (fieldsOf 0x24000001).wellFormed = false ∧ (fieldsOf 0xFF000000).wellFormed = false := by decide +kernel

/-- A block with host events to come. -/
def withEvents (s : State) (es : List HostEvent) : State := { s with pending := es }

theorem witness_StepRunsDecodedCommand :
    (withEvents (block codecT) [.command 0x10000000]).pending = .command 0x10000000 :: [] ∧
    decode 0x10000000 = .ok (.ringLen .bits) ∧
    (withEvents (block codecT) [.command 0]).pending = .command 0 :: [] ∧ decode 0 = .error .unknownOpcode := by decide +kernel
theorem witness_HostAccessSteps : (block codecT).pending = [] ∧
    (withEvents (block codecT) [.writeArg .a3 7]).pending = .writeArg .a3 7 :: [] ∧
    (withEvents (block codecT) [.writeBuf .ib0 (.bits [])]).pending = .writeBuf .ib0 (.bits []) :: [] ∧
    (withEvents (block codecT) [.writeBuf .ib1 (.bits [])]).pending = .writeBuf .ib1 (.bits []) :: [] ∧
    (withEvents (block codecT) [.readResult .y3]).pending = .readResult .y3 :: [] ∧
    (withEvents (block codecT) [.readOut .ob1]).pending = .readOut .ob1 :: [] := by decide +kernel
theorem witness_ResetEventSetsEveryElement :
    (withEvents (haltedBlock) [.reset]).pending = .reset :: [] ∧
    (withEvents (haltedBlock) [.command 0]).pending = .command 0 :: [] ∧ HostEvent.command 0 ≠ .reset ∧
    (withEvents (haltedBlock) [.command 0]).halted ∧
    (after (step (withEvents (haltedBlock) [.command 0]))).isSome = true := by decide +kernel
theorem witness_StepKeepsWellFormed :
    (withEvents (block codecT (arg1 1)) [.command 0x43010000]).wf = true ∧
    (after (step (withEvents (block codecT (arg1 1)) [.command 0x43010000]))).isSome = true := by decide +kernel
theorem witness_PllWithinClampAtReset :
    validCentre (F64.div F64.one F64.one) Config.pllMaxAdjust = true ∧
    validCentre (F64.div F64.one 0x411E848000000000) Config.pllMaxAdjust = true := by decide +kernel
theorem witness_StepKeepsPllWithinClamp :
    (block Codec.reset (arg1 0x3EB0C6F7A0B5ED8D) (some (.f64s [0x3ED0C6F7A0B5ED8D])) none unitMhz).pll.ok = true ∧
    (after (exec (.pllDecode .mfm true)
      (block Codec.reset (arg1 0x3EB0C6F7A0B5ED8D) (some (.f64s [0x3ED0C6F7A0B5ED8D])) none unitMhz))).isSome = true ∧
    (withEvents (block Codec.reset {} none none unitMhz) [.command 0x51000000]).pll.ok = true ∧
    (withEvents (block Codec.reset {} none none unitMhz) [.command 0x51000000]).pending = .command 0x51000000 :: [] ∧
    (after (step (withEvents (block Codec.reset {} none none unitMhz) [.command 0x51000000]))).isSome = true := by decide +kernel

/-! ### Witnesses: faults and outcomes -/

theorem witness_HaltedBlockOnlyReadsRegisters : (haltedBlock (arg1 0x19)).halted ∧ (0x70010000 : CmdWord) ≠ 0x70000000 ∧
    (haltedBlock (arg1 0x19)).args.a0 = some 0x19 ∧ regValue (haltedBlock (arg1 0x19)) 0x19 = some 0 ∧
    (haltedBlock (arg1 0x1A)).halted ∧ regValue (haltedBlock (arg1 0x1A)) 0x1A = none ∧
    (withEvents haltedBlock [.command 0]).halted ∧ (withEvents haltedBlock [.command 0]).pending = [.command 0] ∧
    (after (step (withEvents haltedBlock [.command 0]))).isSome = true := by decide +kernel
theorem witness_UnwrittenOperandRefusesTheRun : (block codecT).running ∧ (block codecT).ready (.ringGet .bits) = false ∧
    (block codecT (arg1 0)).ready (.ringGet .bits) = true ∧
    (block codecT {} (some (.bytes []))).ready .setClockMap = false ∧ haltedBlock.halted := by decide +kernel
theorem witness_FaultIsPrecise : (block Codec.reset (arg1 0)).running ∧ statusWf (block Codec.reset (arg1 0)).status = true ∧
    ∃ t, exec (.ringGet .bits) (block Codec.reset (arg1 0)) = .next t ∧ t.halted :=
  ⟨by decide +kernel, by decide +kernel, _, rfl, by decide +kernel⟩
theorem witness_OutcomesRaisedAsListed : (block Codec.reset (arg1 0)).running ∧
    (∃ t, exec (.ringGet .bits) (block Codec.reset (arg1 0)) = .next t ∧ t.halted ∧
      statusCode t.status = FaultCode.ringEmpty.byte) ∧
    (∃ t, exec .findSync (block Codec.reset (arg1 0)) = .next t ∧ statusCode t.status = codeNone) ∧
    (∃ t, exec .streamRead (block Codec.reset (arg1 0)) = .next t ∧ statusCode t.status = codeInvalidInput) :=
  ⟨by decide +kernel, ⟨_, rfl, by decide +kernel⟩, ⟨_, rfl, by decide +kernel⟩, ⟨_, rfl, by decide +kernel⟩⟩
theorem witness_NonFaultCompletion : (block Codec.reset (arg1 0)).running ∧
    (∃ t, exec .findSync (block Codec.reset (arg1 0)) = .next t ∧ t.running ∧ statusCode t.status ≠ codeOk) ∧
    (∃ t, exec (.ringLen .bits) (block Codec.reset) = .next t ∧ t.running ∧ statusCode t.status = codeOk) :=
  ⟨by decide +kernel, ⟨_, rfl, by decide +kernel⟩, ⟨_, rfl, by decide +kernel⟩⟩
theorem witness_CommandsKeepTheirInputs : (after (exec (.ringSet .bits) (block codecT (arg2 65 1)))).isSome = true := by decide +kernel
theorem witness_UnitsShareNoState : codecCommand .createErrorMap = true ∧
    (after (exec .createErrorMap (block codecT))).isSome = true ∧ pllCommand .pllReset = true ∧
    (after (exec .pllReset (block codecT))).isSome = true := by decide +kernel
theorem witness_ReadsChangeNoRing : pureRead .getWeakData = true ∧ (after (exec .getWeakData (block codecT))).isSome = true ∧
    (after (exec .streamRead (block codecT (arg1 1)))).isSome = true ∧
    (after (exec (.ringRead .weak) (block codecT (arg1 1)))).isSome = true := by decide +kernel

/-- The operands of a decode with a hint. -/
def decodeBlock (c : Codec) : State := block c (arg1 F64.one) (some (.f64s [F64.one]))

theorem witness_PllDecodeDependsOnItsOperandsOnly : (decodeBlock codecT).running ∧ (decodeBlock Codec.reset).running ∧
    (decodeBlock codecT).ib0 = (decodeBlock Codec.reset).ib0 ∧
    (decodeBlock codecT).args.a0 = (decodeBlock Codec.reset).args.a0 ∧
    (decodeBlock codecT).pll = (decodeBlock Codec.reset).pll ∧
    (after (exec (.pllDecode .mfm true) (decodeBlock codecT))).isSome = true := by decide +kernel

/-! ### Witnesses: rings -/

/-- A ring whose wrap is below its storage. -/
def shortRing (wv : Option Bit) : Ring := ⟨[true, false, true, true], 3, wv, 0⟩

theorem witness_RingReadRule : 2 < (shortRing none).wrap ∧ (shortRing (some true)).wrap ≤ 3 ∧
    (shortRing (some true)).wrapValue = some true ∧ (Ring.empty none).wrap ≤ 0 ∧ (Ring.empty none).wrapValue = none ∧
    (Ring.empty none).wrap = 0 ∧ (shortRing none).wrap ≤ 3 ∧ (shortRing none).wrapValue = none ∧ (shortRing none).wrap ≠ 0 := by
  decide
theorem witness_RingLengthAndWrapCommands : (block codecT (arg1 65)).running ∧ (block codecT (arg1 65)).args.a0 = some 65 ∧
    (block codecT (arg1 0)).args.a0 = some 0 := by decide +kernel
theorem witness_RingGetResult : (block codecT (arg1 64)).running ∧ (block codecT (arg1 64)).args.a0 = some 64 ∧
    (block codecT (arg1 63)).args.a0 = some 63 ∧ (codecT.ring .bits).wrap = 64 ∧
    (codecT.ring .bits).wrapValue = none ∧ (codecT.ring .clock).wrapValue = some false ∧
    (Codec.reset.ring .weak).wrap = 0 ∧ (block Codec.reset (arg1 0)).args.a0 = some 0 := by decide +kernel
theorem witness_RingSetResult : (block codecT (arg2 64 1)).running ∧ (block codecT (arg2 64 1)).codec.wf = true ∧
    (block codecT (arg2 64 1)).args.a0 = some 64 ∧ (block codecT (arg2 64 1)).args.a1 = some 1 ∧
    (codecT.ring .clock).wrap ≠ 0 ∧ (block Codec.reset (arg2 0 1)).running ∧ Codec.reset.wf = true ∧
    (Codec.reset.ring .clock).wrap = 0 := by decide +kernel
theorem witness_RingIterResult : (block codecT (arg1 65)).running ∧ (block codecT (arg1 65)).args.a0 = some 65 ∧
    Readable (codecT.ring .bits) ∧ Readable (Codec.reset.ring .clock) ∧ (block Codec.reset (arg1 0)).args.a0 = some 0 ∧
    (block Codec.reset (arg1 1)).running ∧ (1 : U64) ≠ 0 ∧ (Codec.reset.ring .bits).wrap = 0 ∧
    (Codec.reset.ring .bits).wrapValue = none :=
  ⟨by decide +kernel, rfl, .inl (by decide +kernel), .inr (by decide), rfl, by decide +kernel, by decide, rfl, rfl⟩
theorem witness_RingIterRevResult : (block codecT).running ∧ (block codecT).codec.wf = true := by decide +kernel
theorem witness_RingReadResult : (block codecT (arg1 0)).running ∧ (block codecT (arg1 9)).args.a0 = some 9 ∧
    (codecT.ring .bits).wrap ≠ 0 ∧ (codecT.ring .bits).cursor < (codecT.ring .bits).wrap ∧
    (Codec.reset.ring .bits).wrap = 0 ∧
    ((block { codecT with bits := { codecT.bits with cursor := 64 } } (arg1 1)).codec.ring .bits).cursor = 64 := by decide +kernel

/-! ### Witnesses: codec -/

theorem witness_CodecNewResult :
    (block Codec.reset (arg1 0) (some (.bits trackT)) (some (.bits trackT))).running ∧
    (block Codec.reset (arg1 65) (some (.bits trackT)) (some (.bits trackT))).args.a0 = some 65 ∧
    (block Codec.reset (arg1 65) (some (.bits trackT)) (some (.bits trackT))).ib0 = some (.bits trackT) ∧
    (block Codec.reset (arg1 65) (some (.bits trackT)) (some (.bits trackT))).ib1 = some (.bits trackT) ∧
    (bitsOf 63 0).length ≠ trackT.length ∧
    (block Codec.reset (arg1 40) (some (.bits trackT)) (some (.bits (bitsOf 63 0)))).ib1 = some (.bits (bitsOf 63 0)) := by
  decide +kernel
theorem witness_EmptyCodecNewIsReset : (block codecT {} (some (.bits []))).running ∧
    (block codecT {} (some (.bits []))).ib0 = some (.bits []) ∧
    (block codecT (arg1 0) (some (.bits trackT))).ib0 = some (.bits trackT) ∧
    (block codecT (arg1 0) (some (.bits trackT))).args.a0 = some 0 := by decide +kernel
theorem witness_CodecConfigurationCommands : (block codecT (arg1 65) (some (.bits trackT))).running ∧
    (block codecT (arg1 65) (some (.bits trackT))).ib0 = some (.bits trackT) ∧
    trackT.length = (block codecT).codec.bits.bits.length ∧
    (block codecT {} (some (.bits []))).ib0 = some (.bits []) ∧ ([] : List Bit).length ≠ codecT.bits.bits.length ∧
    (block codecT (arg1 65)).args.a0 = some 65 := by decide +kernel
theorem witness_EmptyCodecEndsInvalidInput :
    [Instr.readRawU8, .readRawU32, .readRawBuf, .readDecodedU8, .readDecodedU32, .streamRead, .seek .fromStart, .writeRawBuf,
      .writeEncodedBuf .data].all (fun i => testsEmptyCodec i && (block Codec.reset (arg2 0 1) (some (.bytes [0]))).ready i) = true ∧
    (block Codec.reset (arg2 0 1) (some (.bytes [0]))).running ∧
    (block Codec.reset (arg2 0 1) (some (.bytes [0]))).codec.bits.wrap = 0 := by decide +kernel

/-- Two positions, one of them weak. -/
def weakPair : Codec := Codec.build [true, true] (some [false, true])

theorem weakPair_readable : TrackReadable weakPair := ⟨by decide, fun _ => .inl (by decide)⟩
theorem witness_WeakPositionsDrawAfresh : TrackReadable weakPair ∧ drawsAt weakPair 1 = true ∧ drawsAt weakPair 2 = false :=
  ⟨weakPair_readable, by decide, by decide⟩

/-- The track with substitution disabled. -/
def plainT : Codec := { codecT with weakEnabled := false }

theorem codecT_readable : TrackReadable codecT := ⟨by decide +kernel, fun _ => .inl (by decide +kernel)⟩
theorem plainT_readable : TrackReadable plainT := ⟨by decide +kernel, fun h => absurd h (by decide)⟩
theorem witness_RawReadResults : (block plainT (arg2 0xFFFFFFFFFFFFFFF8 1)).running ∧
    (block plainT (arg2 0xFFFFFFFFFFFFFFF8 1)).args.a0 = some 0xFFFFFFFFFFFFFFF8 ∧ TrackReadable plainT ∧ TrackReadable codecT ∧
    (0xFFFFFFFFFFFFFFF8#64).toNat + 7 < 2 ^ 64 ∧ (0xFFFFFFFFFFFFFFE0#64).toNat + 31 < 2 ^ 64 ∧
    (block plainT (arg2 0xFFFFFFFFFFFFFFF8 1)).args.a1 = some 1 ∧ (0xFFFFFFFFFFFFFFF8#64).toNat + 8 * (1#64).toNat ≤ 2 ^ 64 ∧
    plainT.weakEnabled = false :=
  ⟨by decide +kernel, rfl, plainT_readable, codecT_readable, by decide, by decide, rfl, by decide, rfl⟩
theorem witness_IndexPastTopRaisesOverflow :
    (block codecT (arg2 0xFFFFFFFFFFFFFFF9 1) (some (.bytes [0]))).running ∧ codecT.bits.wrap ≠ 0 ∧
    2 ^ 64 ≤ (0xFFFFFFFFFFFFFFF9#64).toNat + 7 ∧ 2 ^ 64 ≤ (0xFFFFFFFFFFFFFFE1#64).toNat + 31 ∧
    2 ^ 64 < (0xFFFFFFFFFFFFFFF9#64).toNat + 8 * (1#64).toNat ∧ 2 ^ 64 ≤ (0xFFFFFFFFFFFFFFF0#64).toNat + 16 ∧
    2 ^ 64 ≤ (0xFFFFFFFFFFFFFFC0#64).toNat + 64 ∧
    (block codecT (arg2 0xFFFFFFFFFFFFFFF9 1) (some (.bytes [0]))).ib0 = some (.bytes [0]) ∧
    2 ^ 64 < (0xFFFFFFFFFFFFFFF9#64).toNat + 8 * [0#8].length ∧ 2 ^ 64 < (0xFFFFFFFFFFFFFFF1#64).toNat + 16 * [0#8].length := by
  decide +kernel
theorem witness_DecodedReadResults : (block plainT (arg1 0xFFFFFFFFFFFFFFEF)).running ∧ TrackReadable plainT ∧
    Readable plainT.clock ∧ (0xFFFFFFFFFFFFFFEF#64).toNat + 16 < 2 ^ 64 ∧ (0xFFFFFFFFFFFFFFBF#64).toNat + 64 < 2 ^ 64 :=
  ⟨by decide +kernel, plainT_readable, .inr (by decide), by decide, by decide⟩

/-- The byte 0x4E, encoded, loaded, with the clock at the even positions. -/
def encodedCodec (m : Option (List Bit)) (we : Bit) : Codec :=
  { Codec.build (mfmEncode (bytesToBits [0x4E]) false .data) m with
    weakEnabled := we
    clock := { (Codec.build (mfmEncode (bytesToBits [0x4E]) false .data) m).clock with
      bits := (List.range (16 * [0x4E#8].length)).map (fun i => i % 2 == 0) } }

theorem witness_DecodeOfEncodedBytes : (block (encodedCodec none false) (arg1 0)).running ∧ 0 < [0x4E#8].length ∧
    16 * [0x4E#8].length < 2 ^ 64 ∧ (block (encodedCodec none false) (arg1 0)).args.a0 = some (u64 (16 * 0)) ∧
    (List.replicate 16 false).length = 16 * [0x4E#8].length ∧
    (encodedCodec (some (List.replicate 16 false)) true).weak.bits = List.replicate (16 * [0x4E#8].length) false := by
  decide +kernel

/-- The cursor before byte `k` of a stream read of the track from 0. -/
def streamCursor (k : Nat) : Nat := (16 * k) % 64

theorem witness_StreamReadResult :
    ((block codecT (arg1 4)).running ∧ TrackReadable codecT ∧ Readable codecT.clock ∧
      streamCursor 0 = codecT.bitCursor.toNat ∧
      (∀ k, k < 4 → streamCursor (k + 1) = (nudged codecT (streamCursor k) + 16) % codecT.bits.wrap) ∧
      (∀ k, k < 4 → nudged codecT (streamCursor k) + 15 < 2 ^ 64)) ∧
    (2 ^ 64 ≤ nudged { codecT with bitCursor := 0xFFFFFFFFFFFFFFF1 } 0xFFFFFFFFFFFFFFF1 + 15 ∧
      nudged { codecT with bitCursor := 0xFFFFFFFFFFFFFFF0 } 0xFFFFFFFFFFFFFFF0 + 15 < 2 ^ 64) :=
  ⟨⟨by decide +kernel, codecT_readable, .inr (by decide), by decide, by decide +kernel, by decide +kernel⟩,
    by decide +kernel⟩
theorem witness_SeekResult : (block codecT (arg1 0xFFFFFFFFFFFFFFFF)).running ∧ codecT.bits.wrap ≠ 0 ∧
    ((0 : Nat) : Int) = (1#64).toNat + (0xFFFFFFFFFFFFFFFF#64).toInt ∧
    ((0xFFFFFFFFFFFFFFFF : Nat) : Int) = (0xFFFFFFFFFFFFFFFF#64).toNat + (0#64).toInt ∧
    (((0#64).toNat : Nat) : Int) + (0xFFFFFFFFFFFFFFFF#64).toInt < 0 ∧
    (2 ^ 64 : Int) ≤ ((0xFFFFFFFFFFFFFFFF#64).toNat : Int) + (1#64).toInt ∧ (64 : Int) + (0xFFFFFFFFFFFFFFBF#64).toInt < 0 := by
  decide +kernel
theorem witness_SeekResult_empty : (block Codec.reset (arg1 0)).running ∧ (block Codec.reset (arg1 0)).args.a0 = some 0 ∧
    Codec.reset.bits.wrap = 0 := by decide +kernel

/-- The track with one ring that cannot be read. -/
def unreadableT (sel : RingSel) : Codec := codecT.setRing sel (Ring.empty none)

theorem witness_UnreadableRingRaisesRingEmpty : (block (unreadableT .weak) (arg2 0xFFFFFFFFFFFFFFF8 1)).running ∧
    (block (unreadableT .weak) (arg2 0xFFFFFFFFFFFFFFF8 1)).args = arg2 0xFFFFFFFFFFFFFFF8 1 ∧
    (unreadableT .weak).bits.wrap ≠ 0 ∧ (unreadableT .clock).bits.wrap ≠ 0 ∧ (unreadableT .weak).weakEnabled = true ∧
    ¬ Readable (unreadableT .weak).weak ∧ ¬ Readable (unreadableT .clock).clock ∧
    (unreadableT .clock).bitCursor.toNat + 15 < 2 ^ 64 ∧
    2 ^ 64 ≤ ({ unreadableT .clock with bitCursor := 0xFFFFFFFFFFFFFFF1 } : Codec).bitCursor.toNat + 15 :=
  ⟨by decide +kernel, rfl, by decide +kernel, by decide +kernel, by decide +kernel, fun h => h.elim (by decide) (by decide),
    fun h => h.elim (by decide) (by decide), by decide, by decide⟩
/-- The stream clause for an unreadable `WEAK`: four bytes from 0, and the last cursor below and the first above the overflow. -/
theorem witness_UnreadableRingRaisesRingEmpty_stream :
    ((block (unreadableT .weak) (arg1 4)).running ∧ Readable (unreadableT .weak).clock ∧
      (4 : U64) ≠ 0 ∧ streamCursor 0 = (unreadableT .weak).bitCursor.toNat ∧
      (∀ k, k < 4 → streamCursor (k + 1) =
        (nudged (unreadableT .weak) (streamCursor k) + 16) % (unreadableT .weak).bits.wrap) ∧
      (∀ k, k < 4 → nudged (unreadableT .weak) (streamCursor k) + 15 < 2 ^ 64)) ∧
    (nudged { unreadableT .weak with bitCursor := 0xFFFFFFFFFFFFFFF0 } 0xFFFFFFFFFFFFFFF0 + 15 < 2 ^ 64 ∧
      2 ^ 64 ≤ nudged { unreadableT .weak with bitCursor := 0xFFFFFFFFFFFFFFF1 } 0xFFFFFFFFFFFFFFF1 + 15) :=
  ⟨⟨by decide +kernel, .inr (by decide), by decide, by decide, by decide +kernel, by decide +kernel⟩,
    by decide +kernel⟩
theorem witness_WriteRawResult : (block codecT (arg1 0xFFFFFFFFFFFFFFF8) (some (.bytes [1]))).running ∧ codecT.wf = true ∧
    (block codecT (arg1 0xFFFFFFFFFFFFFFF8) (some (.bytes [1]))).ib0 = some (.bytes [1]) ∧ codecT.bits.wrap ≠ 0 ∧
    (0xFFFFFFFFFFFFFFF8#64).toNat + 8 * [1#8].length ≤ 2 ^ 64 := by decide +kernel
theorem witness_WriteEncodedResult : (block codecT (arg1 0xFFFFFFFFFFFFFFF0) (some (.bytes [1]))).running ∧ codecT.wf = true ∧
    codecT.bits.wrap ≠ 0 ∧ (0xFFFFFFFFFFFFFFF0#64).toNat + 16 * [1#8].length ≤ 2 ^ 64 ∧
    (∃ b, codecT.bits.get ((0xFFFFFFFFFFFFFFF0#64).toNat - 1) = .ok b) ∧ (∃ b, codecT.bits.get (codecT.bits.wrap - 1) = .ok b) :=
  ⟨by decide +kernel, by decide +kernel, by decide +kernel, by decide, ⟨true, by decide +kernel⟩, ⟨false, by decide +kernel⟩⟩
theorem witness_MapExports : (block codecT).running := by decide +kernel
theorem witness_DataRangeCommands : (block codecT {} (some (.ranges [(7, 3)]))).running ∧
    (∃ r ∈ [(7#64, 3#64)], r.2.toNat < r.1.toNat) ∧ (∀ r ∈ [(5#64, 5#64), (0, 64)], r.1.toNat ≤ r.2.toNat) ∧
    (block codecT (arg1 5)).args.a0 = some 5 ∧
    (∃ r ∈ [(5#64, 6#64)], r.1.toNat ≤ (5#64).toNat ∧ (5#64).toNat < r.2.toNat) ∧
    (∀ r ∈ [(4#64, 5#64)], ¬ (r.1.toNat ≤ (5#64).toNat ∧ (5#64).toNat < r.2.toNat)) :=
  ⟨by decide +kernel, ⟨_, .head _, by decide⟩, by simp, rfl, ⟨_, .head _, by decide⟩, by simp⟩
theorem witness_RegisterMap : (block codecT (arg1 0x19)).running ∧ (block codecT (arg1 0x19)).args.a0 = some 0x19 ∧
    (block codecT (arg1 6)).args.a0 = some 6 ∧ (block codecT (arg1 7)).args.a0 = some 7 ∧
    (block codecT (arg1 0x1A)).args.a0 = some 0x1A ∧ 0x19 < (0x1A#64).toNat := by decide +kernel

/-! ### Witnesses: analysis -/

theorem witness_DataEncodingIsClockLegal : (block codecT (arg1 1) (some (.bits [true, false]))).running ∧
    (block codecT (arg1 1) (some (.bits [true, false]))).args.a0 = some 1 ∧
    (block codecT (arg1 1) (some (.bits [true, false]))).ib0 = some (.bits [true, false]) := by decide +kernel
theorem witness_AddressMarkClearsOneClock : (block codecT (arg1 0) (some (.bits [false]))).running ∧
    (block codecT (arg1 0) (some (.bits [false]))).args.a0 = some 0 ∧
    (block codecT (arg1 0) (some (.bits [false]))).ib0 = some (.bits [false]) := by decide +kernel

/-- A track one bit longer than the marker register. -/
def trackM65 : Codec := Codec.build (trackT ++ [true]) none

theorem witness_FindMarkerFindsLeftmost :
    (block trackM65 ⟨some 0xAAAAAAAA44A95554, some 0xFFFFFFFFFFFFFFFF, some 0, some 65⟩).running ∧
    (65 : Nat) = min (65#64).toNat trackM65.bits.wrap ∧ (0#64).toNat + 64 < 65 ∧
    MarkerAt trackM65.bits 0xAAAAAAAA44A95554 0xFFFFFFFFFFFFFFFF 0 ∧
    (∀ o, (1#64).toNat ≤ o → o + 64 < 65 → ¬ MarkerAt trackM65.bits 0xAAAAAAAA44A95554 0xFFFFFFFFFFFFFFFF o) :=
  ⟨by decide +kernel, by decide +kernel, by decide, by show (_ : U64) = _; decide +kernel, fun o h1 h2 => by
    have : (1#64).toNat = 1 := rfl
    omega⟩

/-- A track that is the sync pattern and nothing else. -/
def syncCodec : Codec := Codec.build (bitsOf 32 0xAAAAAAAA) none

theorem witness_FindSyncFindsLeftmost : (block syncCodec (arg1 0)).running ∧ 0 + 32 ≤ syncCodec.bits.wrap ∧
    SyncAt syncCodec.bits 0 ∧ (∀ o, (1#64).toNat ≤ o → o + 32 ≤ syncCodec.bits.wrap → ¬ SyncAt syncCodec.bits o) :=
  ⟨by decide +kernel, by decide +kernel, by show ∀ k, k < 32 → _; decide +kernel, fun o h1 h2 => by
    have : (1#64).toNat = 1 := rfl
    have : syncCodec.bits.wrap = 32 := by decide +kernel
    omega⟩
theorem witness_MasksMarkLongZeroRuns : (block codecT (arg1 0)).running ∧ (block codecT (arg1 0)).codec.wf = true ∧
    (block codecT (arg1 0)).args.a0 = some 0 := by decide +kernel

/-- A track with one zero run, of two bits from 1. -/
def oneRun : Codec := codecOf 4 0b1001

theorem oneRun_only (b e : Nat) (he : e ≤ oneRun.bits.wrap)
    (h : ∀ j, b ≤ j → j < e → oneRun.bits.stored j = false) (hl : (1#64).toNat < e - b) :
    b = 1 ∧ e = 1 + (1#64).toNat + 1 := by
  have hw : oneRun.bits.wrap = 4 := by decide
  have h0 : oneRun.bits.stored 0 = true := by decide
  have h3 : oneRun.bits.stored 3 = true := by decide
  have h1 : (1#64).toNat = 1 := rfl
  rcases Nat.eq_zero_or_pos b with rfl | hb
  · exact absurd (h 0 (by omega) (by omega)) (by simp [h0])
  · rcases Nat.lt_or_ge 3 e with h4 | h4
    · exact absurd (h 3 (by omega) h4) (by simp [h3])
    · omega
theorem witness_WeakMaskIsExactForOneRun : (block oneRun (arg1 1)).running ∧ oneRun.wf = true ∧
    (block oneRun (arg1 1)).args.a0 = some 1 ∧ 1 + (1#64).toNat + 1 ≤ oneRun.bits.wrap ∧
    (∀ j, 1 ≤ j → j < 1 + (1#64).toNat + 1 → oneRun.bits.stored j = false) ∧
    (∀ b e, b < e → e ≤ oneRun.bits.wrap → (∀ j, b ≤ j → j < e → oneRun.bits.stored j = false) →
      (1#64).toNat < e - b → b = 1 ∧ e = 1 + (1#64).toNat + 1) ∧
    (after (exec (.createWeakMask true) (block oneRun (arg1 1)))).isSome = true :=
  ⟨by decide, by decide, rfl, by decide, fun j h1 h2 => by
    have : (1#64).toNat = 1 := rfl
    obtain rfl | rfl : j = 1 ∨ j = 2 := by omega
    all_goals decide, fun b e _ he h hl => oneRun_only b e he h hl, by decide +kernel⟩

/-! ### Witnesses: PLL and revolutions -/

/-- Operands of a configuration. -/
def configArgs (rate ma kp density : U64) : Args := ⟨some rate, some ma, some kp, some density⟩

theorem witness_PllConfigAndReset :
    (block Codec.reset (configArgs F64.one 0 0 0)).running ∧
    (block Codec.reset (configArgs F64.one 0 0 0)).args = ⟨some F64.one, some 0, some 0, some 0⟩ ∧
    validCentre (F64.div F64.one F64.one) 0 = true ∧ F64.finite 0 = true ∧
    validCentre (F64.div F64.one F64.one) F64.one = false := by decide +kernel

/-- The largest finite value. -/
def hugeF64 : F64 := 0x7FEFFFFFFFFFFFFF

/-- A NaN. -/
def someNaN : F64 := 0x7FF8000000000000

/-- Every FM period is a positive finite value, which is a valid clamp centre when `max_adjust` is 0. -/
theorem fm_centre_valid : validCentre (F64.mul F64.one Config.fmProfile.periodMult) 0 = true := by
  have hpm : Config.fmProfile.periodMult = F64.ofSignMag false (1 + Config.fmPeriodMultIndex % 0x7FEFFFFFFFFFFFFF) := rfl
  have hlt : Config.fmPeriodMultIndex % 0x7FEFFFFFFFFFFFFF < 0x7FEFFFFFFFFFFFFF := Nat.mod_lt _ (by decide)
  generalize Config.fmPeriodMultIndex % 0x7FEFFFFFFFFFFFFF = k at hpm hlt
  have hm : F64.mag Config.fmProfile.periodMult = 1 + k := by rw [hpm, F64.mag_ofSignMag _ (by omega)]
  have hf : F64.finite Config.fmProfile.periodMult = true :=
    F64.finite_iff.mpr (by rw [hm]; show _ < 0x7FF0000000000000; omega)
  have hs : F64.ord Config.fmProfile.periodMult = 1 + k := by
    rw [hpm, F64.ord_ofSignMag _ (by omega)]; simp
  have hp : F64.lt (F64.zero false) Config.fmProfile.periodMult = true :=
    F64.lt_iff.mpr ⟨by decide, F64.not_isNaN_of_finite hf, by rw [hs, F64.ord_zero]; omega⟩
  have e1 : F64.sub F64.one 0 = F64.one := by decide +kernel
  have e2 : F64.add F64.one 0 = F64.one := by decide +kernel
  rw [F64.one_mul hf]
  refine validCentre_iff.mpr ⟨hf, hp, by decide, by decide, by decide, ?_, ?_⟩
  · rw [clampLo, e1, F64.mul_one hf]; exact hp
  · rw [clampHi, e2, F64.mul_one hf]; exact hf

/-- No centre is valid when `max_adjust` is 1. -/
theorem no_centre_valid (c : F64) : validCentre c F64.one = false := by
  have : F64.lt F64.one F64.one = false := by decide
  simp [validCentre, this]

/-- A run on a NaN period ends in a fault at the first delta. -/
theorem nan_run_faults (u : Pll) (dp v : F64) (prof : Config.Profile) (p0 : F64) (h : F64.isNaN p0 = true) :
    pllRun u [v] p0 dp prof = .error .invalidFluxDelta := by
  have ht : F64.isNaN (PllRun.start p0).time = true := by
    have hd : F64.isNaN (F64.div p0 F64.two) = true := by simp [F64.div, h, F64.nanOf_isNaN]
    show F64.isNaN (F64.neg _) = true
    unfold F64.neg F64.isNaN at *
    rw [F64.mag_ofSignMag _ (F64.mag_lt _)]; exact hd
  have hl : tickLoop (PllRun.start p0).period (PllRun.start p0).acc (F64.add (PllRun.start p0).last v) tickFuel
      (PllRun.start p0).time 0 = some ((PllRun.start p0).time, 0) := by
    have : F64.lt (F64.add (PllRun.start p0).time (PllRun.start p0).acc) (F64.add (PllRun.start p0).last v) = false := by
      simp [F64.lt, F64.add_nan_left ht]
    show tickLoop _ _ _ (0xFFFFFFFFFFFFFFFF + 1) _ _ = _
    rw [tickLoop, this]; rfl
  have hf : F64.finite (F64.add (PllRun.start p0).time (PllRun.start p0).acc) = false := by
    by_contra hc
    have := F64.not_isNaN_of_finite (by simpa using hc)
    rw [F64.add_nan_left ht] at this; cases this
  have : pllDelta (clampLo dp u.maxAdjust) (clampHi dp u.maxAdjust) u.kp prof (PllRun.start p0) v
      = .error .invalidFluxDelta := by
    unfold pllDelta
    split
    · rw [hl]; simp [hf]
    · rfl
  simp [pllRun, pllDeltas, this]

theorem mul_nan (b : F64) : F64.isNaN (F64.mul someNaN b) = true := by
  have : F64.isNaN someNaN = true := by decide
  simp [F64.mul, this, F64.nanOf_isNaN]

/-- The outer hypotheses, one bad delta, a hint that is refused and one that is taken, both profiles with a run that ends and one that faults, an FM centre that is valid and one that is not. -/
theorem witness_PllDecodeResult :
    ((block Codec.reset (arg1 F64.one) (some (.f64s [F64.one]))).running ∧
      (block Codec.reset (arg1 F64.one) (some (.f64s [F64.one]))).ib0 = some (.f64s [F64.one]) ∧
      (block Codec.reset (arg1 F64.one) (some (.f64s [F64.one]))).args.a0 = some F64.one) ∧
    (∃ v ∈ [someNaN], badDelta v = true) ∧ (∀ v ∈ [F64.one], badDelta v = false) ∧
    validCentre 0 unitOne.maxAdjust = false ∧ validCentre F64.one unitOne.maxAdjust = true ∧
    (∃ r, pllRun unitOne [] F64.one F64.one ⟨F64.one, 2, 5⟩ = .ok r) ∧
    pllRun unitOne [hugeF64] someNaN F64.one ⟨F64.one, 2, 5⟩ = .error .invalidFluxDelta ∧
    validCentre (F64.mul F64.one Config.fmProfile.periodMult) F64.one = false ∧
    validCentre (F64.mul F64.one Config.fmProfile.periodMult) unitOne.maxAdjust = true ∧
    (∃ r, pllRun unitOne [] (F64.mul F64.one Config.fmProfile.periodMult)
      (F64.mul F64.one Config.fmProfile.periodMult) Config.fmProfile = .ok r) ∧
    pllRun unitOne [F64.one] (F64.mul someNaN Config.fmProfile.periodMult)
      (F64.mul F64.one Config.fmProfile.periodMult) Config.fmProfile = .error .invalidFluxDelta :=
  ⟨⟨by decide +kernel, rfl, rfl⟩, ⟨_, .head _, by decide⟩, by intro v hv; rw [List.mem_singleton.mp hv]; decide, by decide,
    by decide +kernel, ⟨_, rfl⟩, nan_run_faults _ _ _ _ _ (by decide), no_centre_valid _, fm_centre_valid, ⟨_, rfl⟩,
    nan_run_faults _ _ _ _ _ (mul_nan _)⟩
theorem witness_PllDecodeOfZeroDeltasCompletes :
    (block Codec.reset {} (some (.f64s [0, 0x8000000000000000]))).running ∧
    (∀ v ∈ [0#64, 0x8000000000000000], F64.mag v = 0) := ⟨by decide +kernel, by simp [F64.mag]⟩

/-- The profile of MFM, on a run that starts with period 1: deltas of 0.25, 1 and 5 take 1, 2 and 6 ticks. -/
def firstDelta (v : F64) : Except FaultCode PllRun := pllDelta F64.one F64.one 0 ⟨F64.one, 2, 5⟩ (PllRun.start F64.one) v

/-- The largest finite value, and half of the last place of 1. -/
def f64Max : F64 := 0x7FEFFFFFFFFFFFFF
def halfUlp : F64 := 0x3CA0000000000000

/-- A decode whose clock, at 2^54 with period 1, is stuck before a transition at 2^55. -/
def stuckRun : PllRun := { PllRun.start F64.one with time := 0x4350000000000000 }
/-- A decode whose clock and phase add up past the largest finite value. -/
def overRun : PllRun := { PllRun.start F64.one with time := f64Max, acc := f64Max }

theorem witness_PllLoopAndEmissionLaw : (2 : Nat) ≤ 5 ∧
    (∃ r, firstDelta 0x3FD0000000000000 = .ok r ∧ r.tooFast = 1) ∧
    (∃ r, firstDelta F64.one = .ok r ∧ r.out = [false, true]) ∧
    (∃ r, firstDelta 0x4014000000000000 = .ok r ∧ r.tooSlow = 1) ∧
    (∃ r, pllRun unitOne [F64.one] F64.one F64.one ⟨F64.one, 2, 5⟩ = .ok r) := by
  have key : ∀ (x : Except FaultCode PllRun) (p : PllRun → Bool),
      (match x with | .ok r => p r | .error _ => false) = true → ∃ r, x = .ok r ∧ p r = true := by
    intro x p h
    cases x with
    | ok r => exact ⟨r, rfl, h⟩
    | error c => cases h
  obtain ⟨r1, a1, b1⟩ := key (firstDelta 0x3FD0000000000000) (fun r => r.tooFast == 1) (by decide +kernel)
  obtain ⟨r2, a2, b2⟩ := key (firstDelta F64.one) (fun r => r.out == [false, true]) (by decide +kernel)
  obtain ⟨r3, a3, b3⟩ := key (firstDelta 0x4014000000000000) (fun r => r.tooSlow == 1) (by decide +kernel)
  obtain ⟨r4, a4, -⟩ := key (pllRun unitOne [F64.one] F64.one F64.one ⟨F64.one, 2, 5⟩) (fun _ => true) (by decide +kernel)
  exact ⟨by decide, ⟨r1, a1, by simpa using b1⟩, ⟨r2, a2, by simpa using b2⟩, ⟨r3, a3, by simpa using b3⟩, ⟨r4, a4⟩⟩
/-- The loop's cases: a `nxt` that is not finite; two ticks to a transition at 1, and the values after them; a clock that sticks; a run whose clock ends past the binary64 range. -/
theorem witness_PllLoopAndEmissionLaw_loop :
    (F64.finite (F64.add f64Max f64Max) = false ∧ F64.finite (F64.add (PllRun.start F64.one).last F64.one) = true) ∧
    ClockReaches (PllRun.start F64.one) F64.one 2 ∧
    (∃ err r', AfterDelta F64.one F64.one 0 ⟨F64.one, 2, 5⟩ (PllRun.start F64.one) F64.one 2 err r' ∧
      F64.finite r'.time = true ∧ F64.finite err = true ∧ F64.finite r'.acc = true ∧
      F64.finite r'.period = true ∧ F64.lt 0 r'.period = true) ∧
    ClockSticks stuckRun 0x4360000000000000 0 ∧
    (ClockReaches overRun F64.one 0 ∧ F64.finite (F64.add (clockAt overRun 0) overRun.acc) = false) := by
  refine ⟨by decide +kernel, ⟨fun j hj => ?_, by decide +kernel⟩,
    ⟨phaseError (PllRun.start F64.one) F64.one 2, afterTicks F64.one F64.one 0 ⟨F64.one, 2, 5⟩ (PllRun.start F64.one) F64.one
        (clockAt (PllRun.start F64.one) 2) 2,
      ⟨by decide +kernel, ?_, by decide +kernel, by decide +kernel, by decide +kernel, by decide +kernel⟩, by decide +kernel, by decide +kernel, by decide +kernel,
      by decide +kernel, by decide +kernel⟩,
    ⟨fun j hj => absurd hj (Nat.not_lt_zero j), by decide +kernel, by decide +kernel⟩,
    ⟨fun j hj => absurd hj (Nat.not_lt_zero j), by decide +kernel⟩, by decide +kernel⟩
  · obtain rfl | rfl : j = 0 ∨ j = 1 := by omega
    · decide +kernel
    · decide +kernel
  · rw [if_neg (by decide), if_pos (by decide)]; exact ⟨by decide +kernel, by decide +kernel, by decide +kernel⟩
theorem witness_TickLoopIsNeverCut : tickFuel ≤ tickFuel + 1 := by omega
/-- An ordinary pair of operands; an exact zero sum; a tie between 1 and the value after it, which 1, the even one, wins; and an overflow. -/
theorem witness_ArithmeticAndOrder :
    (F64.finite F64.one = true ∧ F64.finite halfUlp = true ∧ F64.val halfUlp ≠ 0 ∧
      F64.val F64.one + F64.val (F64.neg F64.one) = 0) ∧
    (F64.finite (F64.add F64.one halfUlp) = true ∧ F64.finite 0x3FF0000000000001 = true ∧
      F64.val 0x3FF0000000000001 ≠ F64.val (F64.add F64.one halfUlp) ∧
      (F64.val 0x3FF0000000000001 * 1 - (F64.val F64.one + F64.val halfUlp)).natAbs =
        (F64.val (F64.add F64.one halfUlp) * 1 - (F64.val F64.one + F64.val halfUlp)).natAbs) ∧
    (F64.finite f64Max = true ∧ F64.finite (F64.add f64Max f64Max) = false ∧
      F64.finite (F64.div f64Max halfUlp) = false) ∧
    (F64.isNaN someNaN = true ∧ F64.isNaN F64.one = false ∧ F64.isNaN (F64.inf true) = false) := by decide +kernel
theorem witness_RevNormalizeResult : (block Codec.reset {} (some (.f64s [0x8000000000000000]))).running ∧
    F64.finite someNaN = false ∧ (F64.sign 0x8000000000000001 = true ∧ F64.mag 0x8000000000000001 ≠ 0) ∧
    (∀ v ∈ [0x8000000000000000#64, 1], F64.finite v = true ∧ (F64.sign v = true → F64.mag v = 0)) :=
  ⟨by decide +kernel, by decide, by decide, fun v hv => by
    rcases List.mem_cons.mp hv with rfl | hv
    · decide
    · rw [List.mem_singleton.mp hv]; decide⟩
theorem witness_AlignmentMovesTheBoundary :
    (block Codec.reset {} (some (.f64s [1, 2, 3])) (some (.f64s [4]))).running ∧
    (block Codec.reset {} (some (.f64s [1, 2, 3])) (some (.f64s [4]))).ib1 = some (.f64s [4]) ∧
    normalizeDeltas [someNaN] = .error .invalidFluxDelta ∧ normalizeDeltas [1, 2, 3] = .ok [1, 2, 3] ∧
    normalizeDeltas [4] = .ok [4] := ⟨by decide +kernel, rfl, rfl, rfl, rfl⟩

/-- The outer hypotheses, then each case of the statement. The two classifiers and the FM profile are OPEN (log 9), so that which of the two cases of the decode a run meets is not known, but it meets one; and whether an FM run that follows an MFM run can fault depends on the profile. -/
theorem witness_RevDecodeDirectResult :
    ((block Codec.reset (arg1 F64.one) (some (.f64s []))).running ∧
      (block Codec.reset (arg1 F64.one) (some (.f64s []))).args.a0 = some F64.one) ∧
    (∃ v ∈ [someNaN], badDelta v = true) ∧ (∀ v ∈ ([] : List F64), badDelta v = false) ∧
    pllRun unitOne [] F64.one F64.one ⟨F64.one, 2, 5⟩ = .ok (PllRun.start F64.one) ∧
    pllRun unitOne [F64.one] someNaN someNaN ⟨F64.one, 2, 5⟩ = .error .invalidFluxDelta ∧
    ((Config.hasMarkers (PllRun.start F64.one).out = true ∨ Config.fmSuggested [] F64.one = false) ∨
      (Config.hasMarkers (PllRun.start F64.one).out = false ∧ Config.fmSuggested [] F64.one = true)) ∧
    validCentre (F64.mul F64.one Config.fmProfile.periodMult) F64.one = false ∧
    validCentre (F64.mul F64.one Config.fmProfile.periodMult) unitOne.maxAdjust = true ∧
    (∃ r, pllRun unitOne [] (F64.mul F64.one Config.fmProfile.periodMult)
      (F64.mul F64.one Config.fmProfile.periodMult) Config.fmProfile = .ok r) := by
  refine ⟨⟨by decide +kernel, rfl⟩, ⟨_, .head _, by decide⟩, by simp, rfl, nan_run_faults _ _ _ _ _ (by decide), ?_,
    no_centre_valid _, fm_centre_valid, ⟨_, rfl⟩⟩
  cases Config.hasMarkers (PllRun.start F64.one).out <;> cases Config.fmSuggested [] F64.one <;> simp

end Sys2Proof.Tests
end

section
/-! SUPPORT. The two units share no state (00_scope.md R3): a command commutes with the replacement of the unit it does not work on. -/

namespace Sys2Proof.Machine

/-! ### Replacing a part of the state under an outcome -/

/-- `f` on the state of an ending that carries one. -/
def Ending.mapState (f : State → State) : Ending → Ending
  | .ok s r => .ok (f s) r
  | .none => .none
  | .invalidInput => .invalidInput
  | .fault c => .fault c

/-- `f` on the next state of an outcome that has one. -/
def mapNext (f : State → State) : Host.Outcome State Fault Refusal → Host.Outcome State Fault Refusal
  | .next s => .next (f s)
  | .fault e => .fault e
  | .refused r => .refused r

/-- `f` replaces a part of the state that the end of a command neither reads nor writes. -/
structure KeepsCompletion (f : State → State) : Prop where
  faulted : ∀ s, (f s).faulted = s.faulted
  complete : ∀ s code r, (f s).complete code r = f (s.complete code r)
  raise : ∀ s c, (f s).raise c = f (s.raise c)

/-- The state with another PLL unit. -/
def State.withPll (s : State) (u : Pll) : State := { s with pll := u }

/-- The state with another codec unit and another count of draws. -/
def State.withCodec (s : State) (c : Codec) (d : Nat) : State := { s with codec := c, draws := d }

@[simp] theorem State.withPll_codec (s : State) (u : Pll) : (s.withPll u).codec = s.codec := rfl

theorem keepsCompletion_withPll (u : Pll) : KeepsCompletion (·.withPll u) :=
  ⟨fun _ => rfl, fun _ _ _ => rfl, fun _ _ => rfl⟩

theorem keepsCompletion_withCodec (c : Codec) (d : Nat) : KeepsCompletion (·.withCodec c d) :=
  ⟨fun _ => rfl, fun _ _ _ => rfl, fun _ _ => rfl⟩

section
variable {f : State → State}

theorem conclude_mapState (hf : KeepsCompletion f) (s : State) (e : Ending) :
    conclude (f s) (e.mapState f) = f (conclude s e) := by
  cases e with
  | ok s' r => exact hf.complete s' codeOk r
  | none => exact hf.complete s codeNone {}
  | invalidInput => exact hf.complete s codeInvalidInput {}
  | fault c => exact hf.raise s c

/-- A command whose body commutes with `f` commutes with `f`. -/
theorem command_mapNext (hf : KeepsCompletion f) {s : State} {body body' : Except Refusal Ending}
    (h : body' = body.map (Ending.mapState f)) : command (f s) body' = mapNext f (command s body) := by
  subst h
  unfold command
  rw [hf.faulted]
  cases s.faulted with
  | true => rfl
  | false =>
    cases body with
    | error r => rfl
    | ok e => exact congrArg Host.Outcome.next (conclude_mapState hf s e)

/-! Each way a body is put together commutes with `f` when its parts do. -/

theorem ok_mapState {e e' : Ending} (h : e' = e.mapState f) :
    (.ok e' : Except Refusal Ending) = (Except.ok e).map (Ending.mapState f) := congrArg Except.ok h

theorem bind_mapState {α : Type} {x : Except Refusal α} {k k' : α → Except Refusal Ending}
    (h : ∀ a, k' a = (k a).map (Ending.mapState f)) : (x >>= k') = (x >>= k).map (Ending.mapState f) := by
  cases x with
  | error r => rfl
  | ok a => exact h a

theorem orFault_mapState {α : Type} {x : Except FaultCode α} {k k' : α → Ending}
    (h : ∀ a, k' a = (k a).mapState f) : orFault x k' = (orFault x k).mapState f := by
  cases x with
  | error c => rfl
  | ok a => exact h a

theorem ite_mapState {p : Prop} [Decidable p] {e e' d d' : Ending} (he : e' = e.mapState f)
    (hd : d' = d.mapState f) : (if p then e' else d') = (if p then e else d).mapState f := by
  rw [he, hd, apply_ite (Ending.mapState f)]

theorem accessChecks_mapState {c : Codec} {past : Nat} {k k' : Ending} (h : k' = k.mapState f) :
    accessChecks c past k' = (accessChecks c past k).mapState f :=
  ite_mapState rfl (ite_mapState rfl h)

end

/-! ### The commands -/

theorem command_withPll {s : State} {u : Pll} {body body' : Except Refusal Ending}
    (h : body' = body.map (Ending.mapState (·.withPll u))) :
    command (s.withPll u) body' = mapNext (·.withPll u) (command s body) :=
  command_mapNext (keepsCompletion_withPll u) h

theorem command_withCodec {s : State} {c : Codec} {d : Nat} {body body' : Except Refusal Ending}
    (h : body' = body.map (Ending.mapState (·.withCodec c d))) :
    command (s.withCodec c d) body' = mapNext (·.withCodec c d) (command s body) :=
  command_mapNext (keepsCompletion_withCodec c d) h

theorem decodedRead_withPll (s : State) (u : Pll) (off w : Nat) :
    decodedRead (s.withPll u) off w = (decodedRead s off w).mapState (·.withPll u) :=
  accessChecks_mapState (orFault_mapState fun _ => orFault_mapState fun _ => rfl)

/-- A codec command neither reads nor writes the PLL unit. -/
theorem exec_withPll {i : Instr} (h : Claims.codecCommand i = true) (s : State) (u : Pll) :
    exec i (s.withPll u) = mapNext (·.withPll u) (exec i s) := by
  cases i with
  | ringLen | getClockMap | getErrorMap | getWeakData | createErrorMap =>
    refine command_withPll (ok_mapState ?_)
    rfl
  | ringSetWrap | ringSetWrapValue | setTrackLen | setWeakEnabled | isData | createWeakMask =>
    exact command_withPll (bind_mapState fun _ => rfl)
  | encodeMfm => exact command_withPll (bind_mapState fun _ => bind_mapState fun _ => rfl)
  | ringGet | ringIter =>
    exact command_withPll (bind_mapState fun _ => ok_mapState (orFault_mapState fun _ => rfl))
  | ringSet =>
    exact command_withPll (bind_mapState fun _ => bind_mapState fun _ =>
      ok_mapState (orFault_mapState fun _ => rfl))
  | ringIterRev =>
    refine command_withPll (ok_mapState ?_)
    exact orFault_mapState fun _ => rfl
  | ringRead =>
    exact command_withPll (bind_mapState fun _ =>
      ok_mapState (ite_mapState rfl (orFault_mapState fun _ => rfl)))
  | codecNew =>
    exact command_withPll (bind_mapState fun _ => bind_mapState fun _ => bind_mapState fun _ =>
      ok_mapState (ite_mapState rfl rfl))
  | setClockMap | setDataRanges =>
    exact command_withPll (bind_mapState fun _ => ok_mapState (ite_mapState rfl rfl))
  | seek =>
    exact command_withPll (bind_mapState fun _ => ok_mapState (ite_mapState rfl (ite_mapState rfl rfl)))
  | readRawU8 | readRawU32 =>
    exact command_withPll (bind_mapState fun _ =>
      ok_mapState (accessChecks_mapState (orFault_mapState fun _ => rfl)))
  | readRawBuf | writeRawBuf =>
    exact command_withPll (bind_mapState fun _ => bind_mapState fun _ =>
      ok_mapState (accessChecks_mapState (orFault_mapState fun _ => rfl)))
  | writeEncodedBuf =>
    exact command_withPll (bind_mapState fun _ => bind_mapState fun _ =>
      ok_mapState (accessChecks_mapState (orFault_mapState fun _ => orFault_mapState fun _ => rfl)))
  | readDecodedU8 => exact command_withPll (bind_mapState fun _ => ok_mapState (decodedRead_withPll s u _ 8))
  | readDecodedU32 => exact command_withPll (bind_mapState fun _ => ok_mapState (decodedRead_withPll s u _ 32))
  | streamRead =>
    exact command_withPll (bind_mapState fun _ =>
      ok_mapState (ite_mapState rfl (orFault_mapState fun _ => orFault_mapState fun _ => rfl)))
  | findMarker =>
    refine command_withPll (bind_mapState fun mb => bind_mapState fun mask => bind_mapState fun start =>
      bind_mapState fun limit => ok_mapState ?_)
    rw [State.withPll_codec]
    cases markerScan s.codec.bits mb mask start limit <;> rfl
  | findSync =>
    refine command_withPll (bind_mapState fun start => ok_mapState ?_)
    rw [State.withPll_codec]
    cases syncScan s.codec.bits start <;> rfl
  | pllConfig | pllReset | pllDecode | revNormalize | revAlignPair | revDecodeDirect | regRead => cases h

/-- A PLL or revolution command neither reads nor writes the codec unit, and takes no draw. -/
theorem exec_withCodec {i : Instr} (h : Claims.pllCommand i = true) (s : State) (c : Codec) (d : Nat) :
    exec i (s.withCodec c d) = mapNext (·.withCodec c d) (exec i s) := by
  cases i with
  | pllReset =>
    refine command_withCodec (ok_mapState ?_)
    rfl
  | pllConfig =>
    exact command_withCodec (bind_mapState fun _ => bind_mapState fun _ => bind_mapState fun _ =>
      bind_mapState fun _ => ok_mapState (ite_mapState rfl rfl))
  | pllDecode =>
    exact command_withCodec (bind_mapState fun _ => bind_mapState fun _ =>
      ok_mapState (orFault_mapState fun _ => ite_mapState rfl (orFault_mapState fun _ => rfl)))
  | revNormalize =>
    exact command_withCodec (bind_mapState fun _ => ok_mapState (orFault_mapState fun _ => rfl))
  | revAlignPair | revDecodeDirect =>
    exact command_withCodec (bind_mapState fun _ => bind_mapState fun _ =>
      ok_mapState (orFault_mapState fun _ => orFault_mapState fun _ => rfl))
  | _ => cases h

/-- Settles O19: each command commutes with the replacement of the other unit. -/
theorem unitsShareNoState : Obligations.UnitsShareNoState := by
  refine ⟨fun i s t u hi ht => ?_, fun i s t c d hi ht => ?_⟩
  · exact (exec_withPll hi s u).trans (congrArg (mapNext _) ht)
  · exact (exec_withCodec hi s c d).trans (congrArg (mapNext _) ht)

end Sys2Proof.Machine
end

section
/-! SUPPORT. binary64 (00_scope.md R14): the fields of a pattern, the order of the values, and one rounding lemma from which each operation's is read off. -/

namespace Sys2Proof.Machine

/-! ### The fields of a pattern -/

theorem F64.mag_div_binade (a : F64) : F64.mag a / f64Binade = (a.extractLsb' 52 11).toNat := by
  rw [BitVec.extractLsb'_toNat, Nat.shiftRight_eq_div_pow]
  unfold F64.mag f64Binade
  omega

theorem F64.mag_mod_binade (a : F64) : F64.mag a % f64Binade = (a.extractLsb' 0 52).toNat := by
  rw [BitVec.extractLsb'_toNat, Nat.shiftRight_eq_div_pow]
  unfold F64.mag f64Binade
  omega

/-- A magnitude pattern below infinity's is one whose exponent field is not all ones. -/
theorem F64.finite_iff_exponent (a : F64) : F64.finite a = true ↔ (a.extractLsb' 52 11).toNat ≠ 2047 := by
  rw [F64.finite_iff, ← F64.mag_div_binade]
  have := F64.mag_lt a
  unfold f64InfMag f64Binade
  omega

theorem F64.isNaN_iff_fields (a : F64) : F64.isNaN a = true ↔
    (a.extractLsb' 52 11).toNat = 2047 ∧ (a.extractLsb' 0 52).toNat ≠ 0 := by
  rw [F64.isNaN, decide_eq_true_iff, ← F64.mag_div_binade, ← F64.mag_mod_binade]
  have := F64.mag_lt a
  unfold f64InfMag f64Binade
  omega

theorem F64.val_eq_fields (a : F64) : F64.val a = (if a.getLsbD 63 then -1 else 1) *
    (if (a.extractLsb' 52 11).toNat = 0 then ((a.extractLsb' 0 52).toNat : Int)
      else (2 ^ 52 + ((a.extractLsb' 0 52).toNat : Int)) * 2 ^ ((a.extractLsb' 52 11).toNat - 1)) := by
  have hunits : (f64Units (F64.mag a) : Int) = if (a.extractLsb' 52 11).toNat = 0
      then ((a.extractLsb' 0 52).toNat : Int)
      else (2 ^ 52 + ((a.extractLsb' 0 52).toNat : Int)) * 2 ^ ((a.extractLsb' 52 11).toNat - 1) := by
    rw [← F64.mag_div_binade, ← F64.mag_mod_binade]
    have hpos : 0 < f64Binade := by decide
    rcases Nat.lt_or_ge (F64.mag a) f64Binade with h | h
    · rw [f64Units_subnormal h, Nat.div_eq_of_lt h, Nat.mod_eq_of_lt h, if_pos rfl]
    · have he : F64.mag a / f64Binade ≠ 0 := (Nat.div_pos h hpos).ne'
      rw [f64Units, if_neg (by omega), if_neg he, f64Binade_eq]
      push_cast
      rfl
  rw [← hunits, F64.val, F64.sign]
  cases a.getLsbD 63 <;> simp

/-- The last bit of a pattern is the parity of its magnitude. -/
theorem F64.getLsbD_zero_eq (a : F64) : a.getLsbD 0 = decide (F64.mag a % 2 = 1) := by
  rw [BitVec.getLsbD, Nat.testBit_zero]
  unfold F64.mag
  congr 2
  omega

/-! ### The sign of a value -/

theorem F64.val_of_neg {a : F64} (h : F64.sign a = true) : F64.val a = -(f64Units (F64.mag a) : Int) := by
  rw [F64.val, h, if_pos rfl]

theorem F64.val_of_pos {a : F64} (h : F64.sign a = false) : F64.val a = f64Units (F64.mag a) := by
  rw [F64.val, h, if_neg Bool.false_ne_true]

/-- The value of a pattern is its units or their negation. -/
theorem F64.val_cases (a : F64) :
    F64.val a = f64Units (F64.mag a) ∨ F64.val a = -(f64Units (F64.mag a) : Int) := by
  unfold F64.val
  split
  · exact .inr rfl
  · exact .inl rfl

theorem F64.mag_ne_zero_of_val {a : F64} (h : F64.val a ≠ 0) : F64.mag a ≠ 0 := by
  intro h0
  have := F64.natAbs_val a
  rw [h0, f64Units_zero] at this
  omega

/-! ### The order -/

theorem F64.lt_iff_val {a b : F64} (ha : F64.finite a = true) (hb : F64.finite b = true) :
    F64.lt a b = true ↔ F64.val a < F64.val b := by
  have h := F64.ord_le_iff hb ha
  simp only [F64.lt_iff, F64.not_isNaN_of_finite ha, F64.not_isNaN_of_finite hb, true_and]
  omega

theorem F64.le_iff_val {a b : F64} (ha : F64.finite a = true) (hb : F64.finite b = true) :
    F64.le a b = true ↔ F64.val a ≤ F64.val b := by
  simp only [F64.le_iff, F64.not_isNaN_of_finite ha, F64.not_isNaN_of_finite hb, true_and, F64.ord_le_iff ha hb]

theorem F64.eq_iff_val {a b : F64} (ha : F64.finite a = true) (hb : F64.finite b = true) :
    F64.eq a b = true ↔ F64.val a = F64.val b := by
  have h1 := F64.ord_le_iff ha hb
  have h2 := F64.ord_le_iff hb ha
  simp only [F64.eq_iff, F64.not_isNaN_of_finite ha, F64.not_isNaN_of_finite hb, true_and]
  omega

/-- Every comparison with a NaN is false. -/
theorem F64.compare_nan {a b : F64} (h : F64.isNaN a = true ∨ F64.isNaN b = true) :
    F64.lt a b = false ∧ F64.le a b = false ∧ F64.eq a b = false := by
  rcases h with h | h <;> simp [F64.lt, F64.le, F64.eq, h]

/-- Without a NaN the three comparisons are those of one linear order. -/
theorem F64.compare_total {a b : F64} (ha : F64.isNaN a = false) (hb : F64.isNaN b = false) :
    F64.le a b = !F64.lt b a ∧ F64.eq a b = (F64.le a b && F64.le b a) ∧ F64.eq a a = true := by
  simp only [F64.lt, F64.le, F64.eq, ha, hb, Bool.not_false, Bool.true_and, decide_true, and_true]
  refine ⟨?_, ?_⟩
  · rw [← decide_not, decide_eq_decide]
    omega
  · rw [← Bool.decide_and, decide_eq_decide]
    omega

theorem F64.isNaN_inf (neg : Bool) : F64.isNaN (F64.inf neg) = false := by cases neg <;> decide

theorem F64.ord_inf (neg : Bool) : F64.ord (F64.inf neg) = if neg then -(f64InfMag : Int) else f64InfMag :=
  F64.ord_ofSignMag neg (by decide)

/-- A finite value lies strictly between the infinities. -/
theorem F64.between_inf {a : F64} (h : F64.finite a = true) :
    F64.lt (F64.inf true) a = true ∧ F64.lt a (F64.inf false) = true := by
  have hm := F64.finite_iff.mp h
  have hord : -(f64InfMag : Int) < F64.ord a ∧ F64.ord a < f64InfMag := by
    unfold F64.ord
    split <;> omega
  rw [F64.lt_iff, F64.lt_iff, F64.ord_inf, F64.ord_inf]
  have hn := F64.not_isNaN_of_finite h
  exact ⟨⟨F64.isNaN_inf _, hn, hord.1⟩, hn, F64.isNaN_inf _, hord.2⟩

/-! ### The exact operations -/

theorem F64.val_abs (a : F64) : F64.val (F64.abs a) = |F64.val a| := by
  rw [F64.abs, F64.val_ofSignMag false (F64.mag_lt a), if_neg Bool.false_ne_true, Int.abs_eq_natAbs,
    F64.natAbs_val]

theorem f64Val_max {a b : F64} (ha : F64.finite a = true) (hb : F64.finite b = true) :
    F64.val (F64.max a b) = max (F64.val a) (F64.val b) := by
  have h := F64.lt_iff_val ha hb
  rw [F64.max, F64.not_isNaN_of_finite ha, F64.not_isNaN_of_finite hb, if_neg Bool.false_ne_true,
    if_neg Bool.false_ne_true]
  simp only [h]
  split <;> omega

theorem f64Val_min {a b : F64} (ha : F64.finite a = true) (hb : F64.finite b = true) :
    F64.val (F64.min a b) = min (F64.val a) (F64.val b) := by
  have h := F64.lt_iff_val hb ha
  rw [F64.min, F64.not_isNaN_of_finite ha, F64.not_isNaN_of_finite hb, if_neg Bool.false_ne_true,
    if_neg Bool.false_ne_true]
  simp only [h]
  split <;> omega

/-- The remainder is exact: it is a finite value's, so that rounding keeps it. -/
theorem F64.fmod_exact {a b : F64} (ha : F64.finite a = true) (hb : F64.finite b = true)
    (h0 : F64.val b ≠ 0) :
    F64.finite (F64.fmod a b) = true ∧ F64.val (F64.fmod a b) = (F64.val a).tmod (F64.val b) ∧
      F64.sign (F64.fmod a b) = F64.sign a := by
  have hb0 := F64.mag_ne_zero_of_val h0
  obtain ⟨m, hm, hu⟩ := f64Units_mod (F64.finite_iff.mp ha) (F64.finite_iff.mp hb)
    (f64Units_pos (Nat.pos_of_ne_zero hb0) (F64.finite_iff.mp hb))
  have hlt : m < 0x8000000000000000 := hm.trans (by decide)
  have hr : F64.fmod a b = F64.ofSignMag (F64.sign a) m := by
    rw [F64.fmod_of_finite ha hb hb0, ← hu]
    congr 1
    simpa using f64Round_units Nat.one_pos hm
  have hmod : (F64.val a).tmod (F64.val b) =
      if F64.sign a then -((f64Units (F64.mag a) % f64Units (F64.mag b) : Nat) : Int)
      else (f64Units (F64.mag a) % f64Units (F64.mag b) : Nat) := by
    unfold F64.val
    cases F64.sign a <;> cases F64.sign b <;> simp [Int.neg_tmod, Int.tmod_neg, Int.tmod_eq_emod_of_nonneg]
  rw [hr, F64.finite_ofSignMag _ hlt, F64.val_ofSignMag _ hlt, F64.sign_ofSignMag _ hlt, hmod, hu]
  exact ⟨decide_eq_true hm, rfl, rfl⟩

/-! ### The rounded operations -/

/-- The distance of a value to the exact one is that of the magnitudes, when `neg` is the sign of the exact value. -/
theorem abs_signed_sub (neg : Bool) {num den : Int} (hd : den ≠ 0) (hneg : num * den < 0 → neg = true)
    (hpos : 0 < num * den → neg = false) (r : Int) :
    |(if neg then -r else r) * den - num| = |r * den.natAbs - num.natAbs| := by
  rw [abs_eq_abs]
  cases neg with
  | false =>
    have hsign : 0 ≤ num * den := not_lt.mp fun h => Bool.false_ne_true (hneg h)
    rcases lt_or_gt_of_ne hd with h | h
    · rw [Int.ofNat_natAbs_of_nonpos h.le, Int.ofNat_natAbs_of_nonpos (by nlinarith),
        if_neg Bool.false_ne_true]
      exact .inr (by ring)
    · rw [Int.natAbs_of_nonneg h.le, Int.natAbs_of_nonneg (by nlinarith), if_neg Bool.false_ne_true]
      exact .inl rfl
  | true =>
    have hsign : num * den ≤ 0 := not_lt.mp fun h => Bool.false_ne_true (hpos h).symm
    rcases lt_or_gt_of_ne hd with h | h
    · rw [Int.ofNat_natAbs_of_nonpos h.le, Int.natAbs_of_nonneg (by nlinarith), if_pos rfl]
      exact .inl (by ring)
    · rw [Int.natAbs_of_nonneg h.le, Int.ofNat_natAbs_of_nonpos (by nlinarith), if_pos rfl]
      exact .inr (by ring)

/-- A value is its signed units against either sign, taken as the sign of the exact value. -/
theorem F64.val_eq_signed (neg : Bool) (c : F64) :
    ∃ r : Int, F64.val c = (if neg then -r else r) ∧
      (r = f64Units (F64.mag c) ∨ r = -(f64Units (F64.mag c) : Int)) := by
  rcases F64.val_cases c with h | h
  · cases neg
    · exact ⟨_, h, .inl rfl⟩
    · exact ⟨_, by simpa using h, .inr rfl⟩
  · cases neg
    · exact ⟨_, h, .inr rfl⟩
    · exact ⟨_, by simpa using h, .inl rfl⟩

/-- A value of the wrong sign is no nearer than its mirror image. -/
theorem abs_sub_le_abs_neg_sub (u d n : Nat) : |(u * d : Int) - n| ≤ |-(u : Int) * d - n| := by
  have h : (0 : Int) ≤ u * d := by positivity
  have hn : (0 : Int) ≤ n := by positivity
  rw [neg_mul, ← neg_add', abs_neg, abs_of_nonneg (add_nonneg h hn), abs_le]
  constructor <;> linarith

/-- Only a rounded zero is as near as its mirror image. -/
theorem eq_zero_of_mirror_tie {n d : Nat} (hd : 0 < d)
    (h : |-(f64Units (f64Round n d) : Int) * d - n| = |(f64Units (f64Round n d) : Int) * d - n|) :
    f64Units (f64Round n d) = 0 := by
  rcases abs_eq_abs.mp h with h | h
  · have : (f64Units (f64Round n d) : Int) * d = 0 := by linarith
    have hz := mul_eq_zero.mp this
    omega
  · have : n = 0 := by
      have : (n : Int) = 0 := by linarith
      omega
    rw [this, f64Round_zero, f64Units_zero]

theorem f64Bound_cast (n d : Nat) :
    ((n : Int) < (2 ^ 54 - 1) * 2 ^ 2044 * d) ↔ n < (2 ^ 54 - 1) * 2 ^ 2044 * d := by
  have h : ((2 ^ 54 - 1 : Nat) : Int) = 2 ^ 54 - 1 := by norm_num
  rw [← h]
  norm_cast

/-- The one rounding: the sign of the exact value on the rounded quotient of the magnitudes. -/
theorem roundedFrom_ofSignMag {num den : Int} {neg : Bool} (hd : den ≠ 0)
    (hneg : num * den < 0 → neg = true) (hpos : 0 < num * den → neg = false) :
    Claims.RoundedFrom (F64.ofSignMag neg (f64Round num.natAbs den.natAbs)) num den := by
  have hdn : 0 < den.natAbs := Int.natAbs_pos.mpr hd
  have hlt := f64Round_lt num.natAbs den.natAbs
  have dist := abs_signed_sub neg hd hneg hpos
  have hfin : F64.finite (F64.ofSignMag neg (f64Round num.natAbs den.natAbs)) = true ↔
      f64Round num.natAbs den.natAbs < f64InfMag := by rw [F64.finite_ofSignMag _ hlt, decide_eq_true_iff]
  refine ⟨?_, fun hf c hc => ?_, fun hf => ?_⟩
  · rw [hfin, f64Round_lt_iff hdn, Int.abs_eq_natAbs, Int.abs_eq_natAbs, f64Bound_cast]
  · rw [hfin] at hf
    have near := f64Round_nearest hdn hf (F64.mag c)
    have mirror := abs_sub_le_abs_neg_sub (f64Units (F64.mag c)) den.natAbs num.natAbs
    obtain ⟨r, hr, hcases⟩ := F64.val_eq_signed neg c
    rw [F64.val_ofSignMag _ hlt, F64.getLsbD_zero_eq, F64.mag_ofSignMag _ hlt, hr, dist, dist]
    rcases hcases with rfl | rfl
    · refine ⟨near, fun hne htie => ?_⟩
      have := f64Round_tie_even hdn hf (fun h => hne (by rw [h])) htie
      simp [this]
    · refine ⟨near.trans mirror, fun hne htie => ?_⟩
      have htie' := le_antisymm (mirror.trans htie.le) near
      by_cases hu : f64Units (F64.mag c) = f64Units (f64Round num.natAbs den.natAbs)
      · have h0 := eq_zero_of_mirror_tie hdn (hu ▸ htie)
        exact absurd (by rw [hu, h0]; simp) hne
      · have := f64Round_tie_even hdn hf hu htie'
        simp [this]
  · have hinf : f64Round num.natAbs den.natAbs = f64InfMag :=
      le_antisymm (f64Round_le _ _) (not_lt.mp (hfin.not.mp (by simp [hf])))
    have h0 : num * den ≠ 0 := by
      refine mul_ne_zero (fun h => ?_) hd
      rw [h, Int.natAbs_zero, f64Round_zero] at hinf
      exact absurd hinf (by decide)
    rw [hinf, F64.inf]
    congr 1
    rcases lt_or_gt_of_ne h0 with h | h
    · rw [hneg h, decide_eq_true h]
    · rw [hpos h, decide_eq_false (by omega)]

theorem f64One_pos : 0 < f64One := by
  unfold f64One
  positivity

theorem F64.val_mul_val (a b : F64) : F64.val a * F64.val b =
    if F64.sign a != F64.sign b then -(f64Units (F64.mag a) * f64Units (F64.mag b) : Int)
    else f64Units (F64.mag a) * f64Units (F64.mag b) := by
  unfold F64.val
  cases F64.sign a <;> cases F64.sign b <;> simp

theorem F64.sign_of_mul_neg {a b : F64} (h : F64.val a * F64.val b < 0) :
    (F64.sign a != F64.sign b) = true := by
  by_contra hc
  rw [F64.val_mul_val, if_neg hc] at h
  exact absurd h (not_lt.mpr (by positivity))

theorem F64.sign_of_mul_pos {a b : F64} (h : 0 < F64.val a * F64.val b) :
    (F64.sign a != F64.sign b) = false := by
  by_contra hc
  rw [F64.val_mul_val, if_pos (by simpa using hc)] at h
  exact absurd h (not_lt.mpr (neg_nonpos.mpr (by positivity)))

theorem roundedFrom_ofUnits (z : Int) (zeroNeg : Bool) : Claims.RoundedFrom (F64.ofUnits z zeroNeg) z 1 := by
  unfold F64.ofUnits
  split
  · next h =>
    subst h
    have := roundedFrom_ofSignMag (num := 0) (den := 1) (neg := zeroNeg) (by decide) (by simp) (by simp)
    rwa [Int.natAbs_zero, f64Round_zero] at this
  · exact roundedFrom_ofSignMag (den := 1) (by decide) (by simp) (by simp; omega)

theorem F64.sign_ofUnits_zero (zeroNeg : Bool) : F64.sign (F64.ofUnits 0 zeroNeg) = zeroNeg :=
  F64.sign_ofSignMag zeroNeg (by decide)

theorem F64.add_rounded {a b : F64} (ha : F64.finite a = true) (hb : F64.finite b = true) :
    Claims.RoundedFrom (F64.add a b) (F64.val a + F64.val b) 1 ∧
      (F64.val a + F64.val b = 0 → F64.sign (F64.add a b) = (F64.sign a && F64.sign b)) := by
  rw [F64.add_of_finite ha hb]
  refine ⟨roundedFrom_ofUnits _ _, fun h => ?_⟩
  rw [h, F64.sign_ofUnits_zero]

theorem F64.sub_rounded {a b : F64} (ha : F64.finite a = true) (hb : F64.finite b = true) :
    Claims.RoundedFrom (F64.sub a b) (F64.val a - F64.val b) 1 := by
  have h := (F64.add_rounded ha ((F64.finite_neg b).trans hb)).1
  rwa [F64.val_neg, ← sub_eq_add_neg] at h

theorem F64.mul_rounded {a b : F64} (ha : F64.finite a = true) (hb : F64.finite b = true) :
    Claims.RoundedFrom (F64.mul a b) (F64.val a * F64.val b) f64One ∧
      F64.sign (F64.mul a b) = (F64.sign a != F64.sign b) := by
  have hone : (0 : Int) < f64One := Int.natCast_pos.mpr f64One_pos
  rw [F64.mul_of_finite ha hb]
  refine ⟨?_, F64.sign_ofSignMag _ (f64Round_lt _ _)⟩
  have h := roundedFrom_ofSignMag (num := F64.val a * F64.val b) hone.ne'
    (fun h => F64.sign_of_mul_neg (neg_of_mul_neg_left h hone.le))
    (fun h => F64.sign_of_mul_pos (pos_of_mul_pos_left h hone.le))
  rwa [Int.natAbs_mul, F64.natAbs_val, F64.natAbs_val, Int.natAbs_natCast] at h

theorem F64.div_rounded {a b : F64} (ha : F64.finite a = true) (hb : F64.finite b = true)
    (h0 : F64.val b ≠ 0) :
    Claims.RoundedFrom (F64.div a b) (F64.val a * f64One) (F64.val b) ∧
      F64.sign (F64.div a b) = (F64.sign a != F64.sign b) := by
  have hone : (0 : Int) < f64One := Int.natCast_pos.mpr f64One_pos
  rw [F64.div_of_finite ha hb (F64.mag_ne_zero_of_val h0)]
  refine ⟨?_, F64.sign_ofSignMag _ (f64Round_lt _ _)⟩
  have hcomm := mul_right_comm (F64.val a) f64One (F64.val b)
  have h := roundedFrom_ofSignMag (num := F64.val a * f64One) h0
    (fun h => F64.sign_of_mul_neg (neg_of_mul_neg_left (hcomm ▸ h) hone.le))
    (fun h => F64.sign_of_mul_pos (pos_of_mul_pos_left (hcomm ▸ h) hone.le))
  rwa [Int.natAbs_mul, F64.natAbs_val, F64.natAbs_val, Int.natAbs_natCast] at h

theorem F64.ofNat_rounded (n : Nat) : Claims.RoundedFrom (F64.ofNat n) (n * f64One) 1 := by
  have hnum : (0 : Int) ≤ (n * f64One : Nat) := Int.natCast_nonneg _
  have h := roundedFrom_ofSignMag (num := (n * f64One : Nat)) (den := 1) (neg := false) (by decide)
    (fun h => by omega) (fun _ => rfl)
  rwa [Int.natAbs_natCast, Nat.cast_mul] at h

/-- Settles O57: the fields, the order, and one rounding lemma for every operation that rounds. -/
theorem arithmeticAndOrder : Obligations.ArithmeticAndOrder := by
  refine ⟨?_, fun a b ha hb => ⟨F64.lt_iff_val ha hb, F64.le_iff_val ha hb, F64.eq_iff_val ha hb⟩,
    fun a b => F64.compare_nan, fun a b => F64.compare_total, fun a => F64.between_inf, by decide,
    fun a b ha hb => ⟨F64.add_rounded ha hb, F64.sub_rounded ha hb, F64.mul_rounded ha hb,
      fun h0 => ⟨F64.div_rounded ha hb h0, F64.fmod_exact ha hb h0⟩,
      F64.val_abs a, f64Val_max ha hb, f64Val_min ha hb⟩, F64.ofNat_rounded⟩
  rintro a e f rfl rfl
  exact ⟨F64.finite_iff_exponent a, F64.isNaN_iff_fields a, fun _ => F64.val_eq_fields a⟩

end Sys2Proof.Machine
end

section
/-! SUPPORT. What a command and a host event can leave, said once: a command writes one of the two units and STATUS, and each write keeps that unit's invariant (10_state.md R31 to R50). -/

namespace Sys2Proof.Machine

/-! ### The state an ending carries -/

/-- `P` holds of the state an ending carries, when it carries one. -/
def Ending.Carries (P : State → Prop) (e : Ending) : Prop := ∀ s r, e = .ok s r → P s

/-- `P` holds of the state a body's ending carries, when the body is not refused. -/
def BodyCarries (P : State → Prop) (body : Except Refusal Ending) : Prop :=
  ∀ e, body = .ok e → e.Carries P

section
variable {P : State → Prop}

theorem carries_ok {s : State} {r : Results} (h : P s) : (Ending.ok s r).Carries P := by
  rintro _ _ ⟨⟩
  exact h

theorem carries_none : Ending.none.Carries P := fun _ _ h => Ending.noConfusion h

theorem carries_invalidInput : Ending.invalidInput.Carries P := fun _ _ h => Ending.noConfusion h

theorem carries_fault (c : FaultCode) : (Ending.fault c).Carries P := fun _ _ h => Ending.noConfusion h

theorem carries_ite {p : Prop} [Decidable p] {e e' : Ending} (h : p → e.Carries P)
    (h' : ¬ p → e'.Carries P) : (if p then e else e').Carries P := by
  split
  · next hp => exact h hp
  · next hp => exact h' hp

theorem carries_orFault {α : Type} {x : Except FaultCode α} {k : α → Ending}
    (h : ∀ a, x = .ok a → (k a).Carries P) : (orFault x k).Carries P := by
  cases x with
  | error c => exact carries_fault c
  | ok a => exact h a rfl

theorem carries_accessChecks {c : Codec} {past : Nat} {k : Ending} (h : k.Carries P) :
    (accessChecks c past k).Carries P :=
  carries_ite (fun _ => carries_invalidInput) fun _ => carries_ite (fun _ => carries_fault _) fun _ => h

theorem bodyCarries_ok {e : Ending} (h : e.Carries P) : BodyCarries P (.ok e) := by
  rintro _ ⟨⟩
  exact h

theorem bodyCarries_bind {α : Type} {x : Except Refusal α} {k : α → Except Refusal Ending}
    (h : ∀ a, BodyCarries P (k a)) : BodyCarries P (x >>= k) := by
  cases x with
  | error r => exact fun _ h => nomatch (h : Except.error r = _)
  | ok a => exact h a

end

/-! ### The STATUS invariant (10_state.md R50) -/

theorem statusWf_iff {st : BitVec 32} : statusWf st = true ↔
    st.extractLsb' 9 7 = 0#7 ∧ st.extractLsb' 24 8 = 0#8 ∧
    if statusFaulted st then faultByte (statusFaultCode st) = true ∧ statusCode st = statusFaultCode st
    else statusFaultCode st = 0#8 ∧ plainCode (statusCode st) = true := by
  cases h : statusFaulted st <;> simp [statusWf, h, and_assoc]

theorem faultByte_byte (c : FaultCode) : faultByte c.byte = true := by cases c <;> rfl

/-- A completion that is no fault keeps STATUS well-formed on a running block. -/
theorem statusWf_setStatusCode {st : BitVec 32} (hr : statusFaulted st = false)
    (h : statusWf st = true) {code : BitVec 8} (hc : plainCode code = true) :
    statusWf (setStatusCode st code) = true := by
  obtain ⟨hlo, hhi, hcode⟩ := statusWf_iff.mp h
  simp only [hr] at hcode
  exact statusWf_iff.mpr ⟨by rw [extractLsb'_9_setStatusCode, hlo], by rw [extractLsb'_24_setStatusCode, hhi],
    by simpa [hr, hc] using hcode.1⟩

/-- The first fault keeps STATUS well-formed. -/
theorem statusWf_faultStatus {st : BitVec 32} (hr : statusFaulted st = false)
    (h : statusWf st = true) (c : FaultCode) : statusWf (faultStatus st c) = true := by
  obtain ⟨hlo, hhi, -⟩ := statusWf_iff.mp h
  exact statusWf_iff.mpr ⟨by rw [extractLsb'_9_faultStatus hr, hlo], by rw [extractLsb'_24_faultStatus hr, hhi],
    by simp [statusFaultCode_faultStatus hr, faultByte_byte]⟩

theorem State.wf_iff {s : State} : s.wf = true ↔ s.codec.wf = true ∧ statusWf s.status = true := by
  simp [State.wf]

/-! ### The PLL invariant (10_state.md R42, 44_pll.md R262, R267) -/

theorem Pll.ok_iff {u : Pll} : u.ok = true ↔ validCentre u.defaultPeriod u.maxAdjust = true ∧
    F64.le (clampLo u.defaultPeriod u.maxAdjust) u.period = true ∧
    F64.le u.period (clampHi u.defaultPeriod u.maxAdjust) = true := by
  simp [Pll.ok, and_assoc]

/-- A unit whose period is its valid clamp centre is within its clamp. -/
theorem Pll.ok_of_centre {u : Pll} (h : validCentre u.defaultPeriod u.maxAdjust = true)
    (hp : u.period = u.defaultPeriod) : u.ok = true :=
  Pll.ok_iff.mpr ⟨h, by simpa only [hp] using validCentre_clamp_order h⟩

/-- A decode that starts within the clamp ends within it. -/
theorem pllRun_period_bounds {u : Pll} {d : List F64} {p dp : F64} {prof : Config.Profile} {r : PllRun}
    (hlo : F64.le (clampLo dp u.maxAdjust) p = true) (hhi : F64.le p (clampHi dp u.maxAdjust) = true)
    (h : pllRun u d p dp prof = .ok r) :
    F64.le (clampLo dp u.maxAdjust) r.period = true ∧ F64.le r.period (clampHi dp u.maxAdjust) = true := by
  refine pllDeltas_induction (P := fun q => F64.le (clampLo dp u.maxAdjust) q.period = true ∧
    F64.le q.period (clampHi dp u.maxAdjust) = true) ?_ ⟨hlo, hhi⟩ h
  intro q q' v _ hq
  obtain ⟨time, ticks, -, -, -, -, rfl⟩ := pllDelta_ok hq
  exact clampPeriod_bounds (F64.le_of_le_of_le hlo hhi) _

theorem Pll.ok_withCounts {u : Pll} (h : u.ok = true) (r : PllRun) : (u.withCounts r).ok = true := h

/-- A hint that is not refused leaves the unit within its clamp (44_pll.md R266). -/
theorem Pll.ok_hinted {u : Pll} (h : u.ok = true) {hint : Option F64} (hb : badHint u hint = false) :
    (u.hinted hint).ok = true := by
  cases hint with
  | none => exact h
  | some c => exact Pll.ok_of_centre (by simpa [badHint, Pll.hinted] using hb) rfl

/-- A decode keeps the unit within its clamp. -/
theorem Pll.ok_decode {u u' : Pll} {e : PllEnc} {d : List F64} {r : PllRun} (h : u.ok = true)
    (hd : u.decode e d = .ok (u', r)) : u'.ok = true := by
  cases e with
  | mfm =>
    simp only [Pll.decode] at hd
    split at hd
    · cases hd
    · next q hq =>
      cases hd
      obtain ⟨hc, hlo, hhi⟩ := Pll.ok_iff.mp h
      exact Pll.ok_iff.mpr ⟨hc, pllRun_period_bounds hlo hhi hq⟩
  | fm =>
    simp only [Pll.decode] at hd
    split at hd
    · split at hd
      · cases hd
      · cases hd; exact Pll.ok_withCounts h _
    · cases hd

/-! ### What a command writes -/

/-- What a command that completes `OK` writes: the codec unit with the draws, or the PLL unit, and never both; the unit's invariant is kept. -/
inductive UnitWrite (s : State) : State → Prop where
  | codec (c : Codec) (d : Nat) (h : s.codec.wf = true → c.wf = true) : UnitWrite s (s.withCodec c d)
  | pll (u : Pll) (h : s.pll.ok = true → u.ok = true) : UnitWrite s (s.withPll u)

/-- Writing what is there already. -/
theorem UnitWrite.refl (s : State) : UnitWrite s s := .codec s.codec s.draws id

theorem UnitWrite.draws (s : State) (d : Nat) : UnitWrite s (s.withDraws d) := .codec s.codec d id

/-- A ring of the codec's storage length may be written. -/
theorem UnitWrite.ring {s : State} (sel : RingSel) {r : Ring}
    (h : (s.codec.ring sel).wf s.codec.len = true → r.wf s.codec.len = true) :
    UnitWrite s (s.withRing sel r) :=
  .codec _ s.draws fun hc => Codec.wf_setRing hc sel (h (Codec.wf_ring hc sel))

/-- What a command issued in `s` leaves: a unit's write, and STATUS and the results as the completion or the fault gives them. -/
def CommandLeaves (s t : State) : Prop :=
  ∃ s' st r, UnitWrite s s' ∧ t = { s' with status := st, results := r } ∧
    (statusWf s.status = true → statusWf st = true)

theorem CommandLeaves.refl (s : State) : CommandLeaves s s := ⟨s, s.status, s.results, .refl s, rfl, id⟩

theorem CommandLeaves.results (s : State) (r : Results) : CommandLeaves s { s with results := r } :=
  ⟨s, s.status, r, .refl s, rfl, id⟩

theorem CommandLeaves.raise {s : State} (h : s.running) (c : FaultCode) : CommandLeaves s (s.raise c) :=
  ⟨s, _, _, .refl s, rfl, fun hw => statusWf_faultStatus h hw c⟩

/-- A unit's write leaves STATUS to the completion. -/
theorem CommandLeaves.complete {s s' : State} (h : s.running) (hs : UnitWrite s s') {code : BitVec 8}
    (hc : plainCode code = true) (r : Results) : CommandLeaves s (s'.complete code r) := by
  have hst : s'.status = s.status := by cases hs <;> rfl
  exact ⟨s', _, r, hs, rfl, fun hw => by rw [hst]; exact statusWf_setStatusCode h hw hc⟩

theorem conclude_leaves {s : State} (h : s.running) {e : Ending} (he : e.Carries (UnitWrite s)) :
    CommandLeaves s (conclude s e) := by
  cases e with
  | ok s' r => exact .complete h (he s' r rfl) rfl r
  | none => exact .complete h (.refl s) rfl {}
  | invalidInput => exact .complete h (.refl s) rfl {}
  | fault c => exact .raise h c

theorem command_leaves {s t : State} {body : Except Refusal Ending} (h : command s body = .next t)
    (hb : BodyCarries (UnitWrite s) body) : CommandLeaves s t := by
  rcases command_next h with ⟨-, rfl⟩ | ⟨hr, e, he, rfl⟩
  · exact .refl _
  · exact conclude_leaves hr (hb e he)

/-- A command that reads no operand. -/
theorem command_ok_leaves {s t : State} {e : Ending} (h : command s (.ok e) = .next t)
    (he : e.Carries (UnitWrite s)) : CommandLeaves s t := command_leaves h (bodyCarries_ok he)

/-! ### The commands -/

/-- Construction from a truncated track and its mask, of the track's length, truncated with it (42_codec_access.md R160). -/
theorem Codec.wf_build_take {bits : List Bit} {mask : Option (List Bit)}
    (h : badMask mask bits.length = false) (n : Nat) :
    (Codec.build (bits.take n) (mask.map (List.take n))).wf = true := by
  refine Codec.wf_build _ fun l hl => ?_
  obtain ⟨m, rfl, rfl⟩ := Option.map_eq_some_iff.mp hl
  have hm : m.length = bits.length := by simpa [badMask] using h
  simp [hm]

/-- Ordered ranges, and those of them inside the wrap, may be written (10_state.md R39). -/
theorem UnitWrite.ranges {s : State} {rs : List (U64 × U64)} (h : ¬ rs.any badRange = true) :
    UnitWrite s { s with codec := { s.codec with
      dataRanges := rs, dataRangesFiltered := rs.filter (rangeInside s.codec.bits.wrap) } } := by
  refine .codec _ s.draws fun hc => ?_
  obtain ⟨hb, hcl, he, hw, -, -, -⟩ := Codec.wf_iff.mp hc
  exact Codec.wf_iff.mpr ⟨hb, hcl, he, hw, wf_ranges (by simpa using h) _⟩

/-- A decoded read takes draws and writes nothing else. -/
theorem decodedRead_carries (s : State) (off w : Nat) : (decodedRead s off w).Carries (UnitWrite s) :=
  carries_accessChecks (carries_orFault fun _ _ => carries_orFault fun ⟨_, d⟩ _ => carries_ok (.draws s d))

/-- Everything a command can do, when it answers a next state. -/
theorem exec_leaves {i : Instr} {s t : State} (h : exec i s = .next t) : CommandLeaves s t := by
  cases i with
  | ringLen | getClockMap | getErrorMap | getWeakData =>
    exact command_ok_leaves h (carries_ok (.refl s))
  | isData => exact command_leaves h (bodyCarries_bind fun _ => bodyCarries_ok (carries_ok (.refl s)))
  | encodeMfm =>
    exact command_leaves h (bodyCarries_bind fun _ => bodyCarries_bind fun _ =>
      bodyCarries_ok (carries_ok (.refl s)))
  | ringIterRev =>
    exact command_ok_leaves h (carries_orFault fun _ _ => carries_ok (.refl s))
  | ringGet | ringIter | revNormalize =>
    exact command_leaves h (bodyCarries_bind fun _ => bodyCarries_ok
      (carries_orFault fun _ _ => carries_ok (.refl s)))
  | revAlignPair =>
    exact command_leaves h (bodyCarries_bind fun _ => bodyCarries_bind fun _ => bodyCarries_ok
      (carries_orFault fun _ _ => carries_orFault fun _ _ => carries_ok (.refl s)))
  | findMarker =>
    refine command_leaves h (bodyCarries_bind fun _ => bodyCarries_bind fun _ => bodyCarries_bind fun _ =>
      bodyCarries_bind fun _ => bodyCarries_ok ?_)
    split
    · exact carries_none
    · exact carries_ok (.refl s)
  | findSync =>
    refine command_leaves h (bodyCarries_bind fun _ => bodyCarries_ok ?_)
    split
    · exact carries_none
    · exact carries_ok (.refl s)
  | readRawU8 | readRawU32 =>
    exact command_leaves h (bodyCarries_bind fun _ => bodyCarries_ok (carries_accessChecks
      (carries_orFault fun ⟨_, d⟩ _ => carries_ok (.draws s d))))
  | readRawBuf =>
    exact command_leaves h (bodyCarries_bind fun _ => bodyCarries_bind fun _ => bodyCarries_ok
      (carries_accessChecks (carries_orFault fun ⟨_, d⟩ _ => carries_ok (.draws s d))))
  | readDecodedU8 | readDecodedU32 =>
    exact command_leaves h (bodyCarries_bind fun _ => bodyCarries_ok (decodedRead_carries s _ _))
  | streamRead =>
    exact command_leaves h (bodyCarries_bind fun _ => bodyCarries_ok (carries_ite
      (fun _ => carries_invalidInput) fun _ => carries_orFault fun _ _ => carries_orFault fun ⟨_, d⟩ _ =>
        carries_ok (.codec _ d id)))
  | ringSetWrap sel =>
    exact command_leaves h (bodyCarries_bind fun len => bodyCarries_ok
      (carries_ok (.ring sel fun hr => Ring.wf_setWrap hr len)))
  | ringSetWrapValue sel =>
    exact command_leaves h (bodyCarries_bind fun v => bodyCarries_ok
      (carries_ok (.ring sel fun hr => Ring.wf_setWrapValue hr v)))
  | ringSet sel =>
    exact command_leaves h (bodyCarries_bind fun _ => bodyCarries_bind fun _ => bodyCarries_ok
      (carries_orFault fun _ hset => carries_ok (.ring sel fun hr => Ring.wf_set hr hset)))
  | ringRead sel =>
    exact command_leaves h (bodyCarries_bind fun _ => bodyCarries_ok (carries_ite
      (fun _ => carries_invalidInput) fun _ => carries_orFault fun _ _ => carries_ok (.ring sel id)))
  | codecNew =>
    exact command_leaves h (bodyCarries_bind fun _ => bodyCarries_bind fun _ => bodyCarries_bind fun _ =>
      bodyCarries_ok (carries_ite (fun _ => carries_fault _) fun hm =>
        carries_ok (.codec _ s.draws fun _ => Codec.wf_build_take (Bool.eq_false_iff.mpr hm) _)))
  | setClockMap =>
    exact command_leaves h (bodyCarries_bind fun c => bodyCarries_ok (carries_ite (fun _ => carries_fault _)
      fun hl => carries_ok (.ring .clock fun hr =>
        Ring.wf_iff.mpr ⟨not_not.mp hl, (Ring.wf_iff.mp hr).2⟩)))
  | setTrackLen =>
    exact command_leaves h (bodyCarries_bind fun len => bodyCarries_ok
      (carries_ok (.codec _ s.draws fun hc => Codec.wf_setTrackLen hc len)))
  | setWeakEnabled =>
    exact command_leaves h (bodyCarries_bind fun _ => bodyCarries_ok (carries_ok (.codec _ s.draws id)))
  | seek =>
    exact command_leaves h (bodyCarries_bind fun _ => bodyCarries_ok (carries_ite
      (fun _ => carries_invalidInput) fun _ => carries_ite (fun _ => carries_invalidInput) fun _ =>
        carries_ok (.codec _ s.draws id)))
  | writeRawBuf =>
    exact command_leaves h (bodyCarries_bind fun _ => bodyCarries_bind fun _ => bodyCarries_ok
      (carries_accessChecks (carries_orFault fun _ hset =>
        carries_ok (.ring .bits fun hr => Ring.wf_setMany hr hset))))
  | writeEncodedBuf =>
    exact command_leaves h (bodyCarries_bind fun _ => bodyCarries_bind fun _ => bodyCarries_ok
      (carries_accessChecks (carries_orFault fun _ _ => carries_orFault fun _ hset =>
        carries_ok (.ring .bits fun hr => Ring.wf_setMany hr hset))))
  | setDataRanges =>
    exact command_leaves h (bodyCarries_bind fun _ => bodyCarries_ok (carries_ite (fun _ => carries_fault _)
      fun hr => carries_ok (.ranges hr)))
  | createWeakMask =>
    exact command_leaves h (bodyCarries_bind fun _ => bodyCarries_ok (carries_ok
      (.codec _ s.draws fun hc => Codec.wf_setRing hc .weak (wf_maskRing (Codec.wf_ring hc .bits) _))))
  | createErrorMap =>
    exact command_ok_leaves h (carries_ok
      (.codec _ s.draws fun hc => Codec.wf_setRing hc .error (wf_maskRing (Codec.wf_ring hc .bits) _)))
  | pllConfig =>
    refine command_leaves h (bodyCarries_bind fun _ => bodyCarries_bind fun _ => bodyCarries_bind fun _ =>
      bodyCarries_bind fun _ => bodyCarries_ok (carries_ite (fun _ => carries_fault _) fun hv =>
        carries_ok (.pll _ fun _ => Pll.ok_of_centre ?_ rfl)))
    simp only [Bool.or_eq_true, not_or, Bool.not_eq_true', Bool.not_eq_false] at hv
    exact hv.1.1
  | pllReset =>
    exact command_ok_leaves h (carries_ok
      (.pll _ fun hu => Pll.ok_of_centre (Pll.ok_iff.mp hu).1 rfl))
  | pllDecode =>
    exact command_leaves h (bodyCarries_bind fun _ => bodyCarries_bind fun _ => bodyCarries_ok
      (carries_orFault fun _ _ => carries_ite (fun _ => carries_fault _) fun hb =>
        carries_orFault fun _ hd => carries_ok
          (.pll _ fun hu => Pll.ok_decode (Pll.ok_hinted hu (Bool.eq_false_iff.mpr hb)) hd)))
  | revDecodeDirect =>
    exact command_leaves h (bodyCarries_bind fun _ => bodyCarries_bind fun _ => bodyCarries_ok
      (carries_orFault fun _ _ => carries_orFault fun ⟨r, _⟩ _ => carries_ok
        (.pll _ fun hu => Pll.ok_withCounts hu r)))
  | regRead =>
    cases hf : s.faulted with
    | true =>
      rw [exec_regRead_halted hf] at h
      cases h
      rcases regReadHalted_eq s with he | ⟨v, he⟩ <;> rw [he]
      · exact .refl s
      · exact .results s _
    | false =>
      rw [exec_regRead_running hf] at h
      refine command_leaves h (bodyCarries_bind fun _ => bodyCarries_ok ?_)
      split
      · exact carries_fault _
      · exact carries_ok (.refl s)

/-! ### The host events -/

/-- An idle block keeps all state (60_exceptions.md R329). -/
theorem step_idle {s : State} (h : s.pending = []) : step s = .next s := by
  simp [step, State.nextEvent, h]

/-- A step is the next host event's, on the state with that event taken. -/
theorem step_event {s : State} {e : HostEvent} {rest : List HostEvent} (h : s.pending = e :: rest) :
    step s = hostEvent e { s with pending := rest } := by
  simp [step, State.nextEvent, h]

/-- Everything the issue of a word can do, when it answers a next state. -/
theorem issue_leaves {w : CmdWord} {s t : State} (h : issue w s = .next t) : CommandLeaves s t := by
  unfold issue at h
  split at h
  · exact exec_leaves h
  · cases h
    unfold State.illegalWord
    split
    · exact .refl s
    · next hf => exact .raise (Bool.eq_false_iff.mpr hf) _

/-- A host read changes nothing when it is not refused (10_state.md R49). -/
theorem hostReadResult_next {y : ResReg} {s t : State} (h : hostReadResult y s = .next t) : t = s := by
  unfold hostReadResult at h
  split at h <;> cases h
  rfl

theorem hostReadOut_next {o : OutBuf} {s t : State} (h : hostReadOut o s = .next t) : t = s := by
  unfold hostReadOut at h
  split at h <;> cases h
  rfl

/-- Every host event but reset writes operands alone, or is a command's. -/
theorem hostEvent_leaves {e : HostEvent} {s t : State} (he : e ≠ .reset) (h : hostEvent e s = .next t) :
    (t.codec = s.codec ∧ t.pll = s.pll ∧ t.status = s.status) ∨ CommandLeaves s t := by
  cases e with
  | writeArg a v => cases h; exact .inl ⟨rfl, rfl, rfl⟩
  | writeBuf b v => cases h; exact .inl (by simp)
  | command w => exact .inr (issue_leaves h)
  | readResult y => cases hostReadResult_next h; exact .inl ⟨rfl, rfl, rfl⟩
  | readOut o => cases hostReadOut_next h; exact .inl ⟨rfl, rfl, rfl⟩
  | reset => exact absurd rfl he

/-! ### What every command keeps -/

theorem CommandLeaves.wf {s t : State} (h : CommandLeaves s t) (hs : s.wf = true) : t.wf = true := by
  obtain ⟨s', st, r, hw, rfl, hst⟩ := h
  obtain ⟨hc, hs⟩ := State.wf_iff.mp hs
  refine State.wf_iff.mpr ⟨?_, hst hs⟩
  cases hw with
  | codec c d hk => exact hk hc
  | pll u hk => exact hc

theorem CommandLeaves.pll_ok {s t : State} (h : CommandLeaves s t) (hs : s.pll.ok = true) :
    t.pll.ok = true := by
  obtain ⟨s', st, r, hw, rfl, -⟩ := h
  cases hw with
  | codec c d hk => exact hs
  | pll u hk => exact hk hs

theorem CommandLeaves.inputs {s t : State} (h : CommandLeaves s t) :
    t.args = s.args ∧ t.ib0 = s.ib0 ∧ t.ib1 = s.ib1 ∧ t.pending = s.pending := by
  obtain ⟨s', st, r, hw, rfl, -⟩ := h
  cases hw <;> exact ⟨rfl, rfl, rfl, rfl⟩

/-! ### Reset -/

theorem State.wf_afterReset (s : State) : s.afterReset.wf = true := by
  refine State.wf_iff.mpr ⟨?_, ?_⟩
  · rw [State.afterReset_codec]; decide
  · rw [State.afterReset_status]; decide

/-! ### The statements -/

/-- Settles O10: the reset event gives the reset state's units, and every other event writes operands or is a command's. -/
theorem stepKeepsWellFormed : Obligations.StepKeepsWellFormed := by
  intro s t hs ht
  cases hp : s.pending with
  | nil => rw [step_idle hp] at ht; cases ht; exact hs
  | cons e rest =>
    rw [step_event hp] at ht
    by_cases he : e = .reset
    · subst he; cases ht; exact State.wf_afterReset _
    · rcases hostEvent_leaves he ht with ⟨hc, -, hst⟩ | hl
      · obtain ⟨hsc, hss⟩ := State.wf_iff.mp hs
        exact State.wf_iff.mpr ⟨by rw [hc]; exact hsc, by rw [hst]; exact hss⟩
      · exact hl.wf hs

/-- Settles O12: the same, without the reset event. -/
theorem stepKeepsPllWithinClamp : Obligations.StepKeepsPllWithinClamp := by
  refine ⟨fun i s t hs ht => (exec_leaves ht).pll_ok hs, fun s t hs hne ht => ?_⟩
  cases hp : s.pending with
  | nil => rw [step_idle hp] at ht; cases ht; exact hs
  | cons e rest =>
    rw [step_event hp] at ht
    have he : e ≠ .reset := by rintro rfl; exact hne rest hp
    rcases hostEvent_leaves he ht with ⟨-, hu, -⟩ | hl
    · rw [hu]; exact hs
    · exact hl.pll_ok hs

/-- Settles O18: what a command leaves differs from the state before it in the units, STATUS and the results alone. -/
theorem commandsKeepTheirInputs : Obligations.CommandsKeepTheirInputs :=
  fun _ _ _ h => (exec_leaves h).inputs

end Sys2Proof.Machine
end

section
/-! SUPPORT. When a command is refused (10_state.md R49): its body is refused exactly when one of the reads of an operand in it is. -/

namespace Sys2Proof.Machine

/-! ### Reads of operands -/

theorem isOk_map {α β : Type} (x : Except Refusal α) (f : α → β) : (x.map f).isOk = x.isOk := by
  cases x <;> rfl

/-- A refusal comes from the first part or, whatever that gave, from the rest. -/
theorem isOk_bind {α β : Type} {x : Except Refusal α} {k : α → Except Refusal β} {b : Bool}
    (h : ∀ a, (k a).isOk = b) : (x >>= k).isOk = (x.isOk && b) := by
  cases x with
  | error r => rfl
  | ok a => exact h a

@[simp] theorem argReady_absent (v : Option U64) : argReady false v = true := rfl

@[simp] theorem bufReady_absent (v : Option Buffer) : bufReady none v = true := rfl

@[simp] theorem State.isOk_arg (s : State) (a : ArgReg) : (s.arg a).isOk = argReady true (s.args.get a) := by
  unfold State.arg
  cases s.args.get a <;> rfl

@[simp] theorem State.isOk_argNat (s : State) (a : ArgReg) :
    (s.argNat a).isOk = argReady true (s.args.get a) := (isOk_map _ _).trans (s.isOk_arg a)

@[simp] theorem State.isOk_argBit (s : State) (a : ArgReg) :
    (s.argBit a).isOk = argReady true (s.args.get a) := (isOk_map _ _).trans (s.isOk_arg a)

@[simp] theorem State.isOk_argNatIf (s : State) (p : Bool) (a : ArgReg) :
    (s.argNatIf p a).isOk = argReady p (s.args.get a) := by
  cases p with
  | false => rfl
  | true => exact (isOk_map _ _).trans (s.isOk_argNat a)

@[simp] theorem State.isOk_argBitIf (s : State) (p : Bool) (a : ArgReg) :
    (s.argBitIf p a).isOk = argReady p (s.args.get a) := by
  cases p with
  | false => rfl
  | true => exact (isOk_map _ _).trans (s.isOk_argBit a)

@[simp] theorem State.isOk_argIf (s : State) (p : Bool) (a : ArgReg) :
    (s.argIf p a).isOk = argReady p (s.args.get a) := by
  cases p with
  | false => rfl
  | true => exact (isOk_map _ _).trans (s.isOk_arg a)

@[simp] theorem State.isOk_bufBits (s : State) (b : InBuf) :
    (s.bufBits b).isOk = bufReady (some .bits) (s.inBuf b) := by
  unfold State.bufBits
  rcases s.inBuf b with - | - | - | - | - <;> rfl

@[simp] theorem State.isOk_bufBytes (s : State) (b : InBuf) :
    (s.bufBytes b).isOk = bufReady (some .bytes) (s.inBuf b) := by
  unfold State.bufBytes
  rcases s.inBuf b with - | - | - | - | - <;> rfl

@[simp] theorem State.isOk_bufRanges (s : State) (b : InBuf) :
    (s.bufRanges b).isOk = bufReady (some .ranges) (s.inBuf b) := by
  unfold State.bufRanges
  rcases s.inBuf b with - | - | - | - | - <;> rfl

@[simp] theorem State.isOk_bufF64s (s : State) (b : InBuf) :
    (s.bufF64s b).isOk = bufReady (some .f64s) (s.inBuf b) := by
  unfold State.bufF64s
  rcases s.inBuf b with - | - | - | - | - <;> rfl

@[simp] theorem State.isOk_bufBitsIf (s : State) (p : Bool) (b : InBuf) :
    (s.bufBitsIf p b).isOk = bufReady (if p then some .bits else none) (s.inBuf b) := by
  cases p with
  | false => rfl
  | true => exact (isOk_map _ _).trans (s.isOk_bufBits b)

/-- The last read of a body decides whether the rest is reached. -/
theorem isOk_bind_ok {α β : Type} (x : Except Refusal α) (k : α → β) :
    (x >>= fun a => Except.ok (k a)).isOk = x.isOk := by
  cases x <;> rfl

/-! ### The refusal -/

/-- A running block refuses a command exactly when its body is refused. -/
theorem refused_iff {s : State} (h : s.running) {body : Except Refusal Ending} {b : Bool}
    (hb : body.isOk = b) : (∃ r, command s body = .refused r) ↔ b = false := by
  subst hb
  cases body with
  | ok e => simp [command_ok h, Except.isOk, Except.toBool]
  | error r => simp [command_error h, Except.isOk, Except.toBool]

/-- A command that reads no operand is never refused. -/
theorem refused_ok_iff {s : State} (h : s.running) {e : Ending} :
    (∃ r, command s (.ok e) = .refused r) ↔ true = false := refused_iff h rfl

/-- A running block refuses a command exactly when an operand of the column "operands in" was not written (30_encoding.md R108, R111). -/
theorem exec_refused_iff {s : State} (h : s.running) (i : Instr) :
    (∃ r, exec i s = .refused r) ↔ s.ready i = false := by
  cases i with
  | ringLen | ringIterRev | getClockMap | getErrorMap | getWeakData | createErrorMap | pllReset =>
    exact refused_ok_iff h
  | ringSetWrap | ringSetWrapValue | ringGet | ringIter | ringRead | setTrackLen | setWeakEnabled
  | readRawU8 | readRawU32 | readDecodedU8 | readDecodedU32 | streamRead | seek | isData | findSync
  | createWeakMask | setClockMap | setDataRanges | revNormalize =>
    refine refused_iff h ((isOk_bind_ok _ _).trans ?_)
    simp [State.ready, needs, Args.get, State.inBuf]
  | ringSet | readRawBuf | writeRawBuf | writeEncodedBuf | encodeMfm | revAlignPair =>
    refine refused_iff h ((isOk_bind fun _ => isOk_bind_ok _ _).trans ?_)
    simp [State.ready, needs, Args.get, State.inBuf]
  | pllDecode | revDecodeDirect =>
    refine refused_iff h ((isOk_bind fun _ => isOk_bind_ok _ _).trans ?_)
    simp [State.ready, needs, Args.get, State.inBuf, Bool.and_comm]
  | codecNew =>
    refine refused_iff h ((isOk_bind fun _ => isOk_bind fun _ => isOk_bind_ok _ _).trans ?_)
    simp [State.ready, needs, Args.get, State.inBuf, Bool.and_left_comm, Bool.and_assoc]
  | findMarker | pllConfig =>
    refine refused_iff h
      ((isOk_bind fun _ => isOk_bind fun _ => isOk_bind fun _ => isOk_bind_ok _ _).trans ?_)
    simp [State.ready, needs, Args.get, Bool.and_assoc]
  | regRead =>
    rw [exec_regRead_running h]
    refine refused_iff h ((isOk_bind_ok _ _).trans ?_)
    simp [State.ready, needs, Args.get]

/-- Settles O14: on a running block by the reads of each command, on a halted one because a command does nothing there. -/
theorem unwrittenOperandRefusesTheRun : Obligations.UnwrittenOperandRefusesTheRun := by
  refine fun i s => ⟨fun h => exec_refused_iff h i, fun h => ?_⟩
  by_cases hi : i = .regRead
  · subst hi
    exact ⟨_, exec_regRead_halted h⟩
  · exact ⟨s, exec_halted h hi⟩

end Sys2Proof.Machine
end

section
/-! SUPPORT. The host's own accesses (10_state.md R46 to R49) and the values after reset (R57 to R60). -/

namespace Sys2Proof.Machine

theorem Args.get_set_same (r : Args) (a : ArgReg) (v : U64) : (r.set a v).get a = some v := by
  cases a <;> rfl

theorem Args.get_set_other (r : Args) {a b : ArgReg} (v : U64) (h : b ≠ a) : (r.set a v).get b = r.get b := by
  cases a <;> cases b <;> trivial

theorem hostReadResult_eq (y : ResReg) (s : State) :
    hostReadResult y s = if s.results.get y = none then .refused (.resultUndefined y) else .next s := by
  unfold hostReadResult
  cases s.results.get y <;> rfl

theorem hostReadOut_eq (o : OutBuf) (s : State) :
    hostReadOut o s = if s.results.out o = none then .refused (.outputUndefined o) else .next s := by
  unfold hostReadOut
  cases s.results.out o <;> rfl

/-- Settles O6: each event by its own equation, on the state with the event taken. -/
theorem hostAccessSteps : Obligations.HostAccessSteps := by
  refine ⟨fun s h => step_idle h, fun s a v rest h => ?_, fun s v rest h => step_event h,
    fun s v rest h => step_event h, fun s y rest h => ?_, fun s o rest h => ?_⟩
  · exact ⟨s.args.set a v, step_event h, Args.get_set_same _ a v, fun b hb => Args.get_set_other _ v hb⟩
  · exact (step_event h).trans (hostReadResult_eq y _)
  · exact (step_event h).trans (hostReadOut_eq o _)

/-- Settles O8: each element of the reset state, read off its definition. -/
theorem resetStateValues : Obligations.ResetStateValues := by
  refine ⟨fun sel => ?_, rfl, rfl, rfl, rfl, rfl, rfl, rfl, rfl, rfl, rfl, rfl, rfl, rfl, rfl,
    fun a => ?_, fun b => ?_, fun y => ?_, fun o => ?_⟩
  · cases sel <;> exact ⟨rfl, rfl, rfl, rfl⟩
  · cases a <;> rfl
  · cases b <;> rfl
  · cases y <;> rfl
  · cases o <;> rfl

/-- Settles O9: the reset state is what the reset event leaves of itself. -/
theorem resetStateIsWellFormed : Obligations.ResetStateIsWellFormed := State.wf_afterReset State.reset

/-- Settles O11: a fresh unit's period is its clamp centre. -/
theorem pllWithinClampAtReset : Obligations.PllWithinClampAtReset :=
  fun _ _ h => ⟨Pll.ok_of_centre h rfl, rfl, rfl, rfl, rfl⟩

end Sys2Proof.Machine
end

section
/-! SUPPORT. Reads: the read rule of a ring (20_memory.md R74, R78), and what a read leaves unchanged (R85). -/

namespace Sys2Proof.Machine

/-- Settles O22: the three branches of the read rule; a folded index is a stored one, below the wrap. -/
theorem ringReadRule : Obligations.RingReadRule := by
  refine fun r i => ⟨Ring.get_below, fun v => Ring.get_wrapValue, fun hi hv hw => ?_, fun hi hv hw => ?_⟩
  · simp [Ring.get, hv, hw]
  · have hfold : r.get i = .ok (r.stored (i % r.wrap)) := Ring.get_fold hi hw hv
    have hbelow : r.get (i % r.wrap) = .ok (r.stored (i % r.wrap)) :=
      Ring.get_below (Nat.mod_lt i (Nat.pos_of_ne_zero hw))
    exact ⟨hfold, hfold.trans hbelow.symm⟩

/-! ### What a read leaves unchanged -/

/-- STATUS and the results apart, a command leaves the units of the state it was issued in, or those its ending carries. -/
theorem command_units {Q : Codec → Pll → Prop} {s t : State} {body : Except Refusal Ending}
    (h : command s body = .next t) (hs : Q s.codec s.pll)
    (hb : BodyCarries (fun s' => Q s'.codec s'.pll) body) : Q t.codec t.pll := by
  rcases command_next h with ⟨-, rfl⟩ | ⟨-, e, he, rfl⟩
  · exact hs
  · cases e with
    | ok s' r => exact hb _ he s' r rfl
    | none | invalidInput | fault => exact hs

/-- The codec and the PLL unit of `s'` are those of `s`. -/
def SameUnits (s s' : State) : Prop := s'.codec = s.codec ∧ s'.pll = s.pll

theorem command_keeps_units {s t : State} {body : Except Refusal Ending} (h : command s body = .next t)
    (hb : BodyCarries (SameUnits s) body) : SameUnits s t :=
  command_units (Q := fun c u => c = s.codec ∧ u = s.pll) h ⟨rfl, rfl⟩ hb

/-- A command that reads no operand. -/
theorem command_ok_keeps_units {s t : State} {e : Ending} (h : command s (.ok e) = .next t)
    (he : e.Carries (SameUnits s)) : SameUnits s t := command_keeps_units h (bodyCarries_ok he)

/-- A decoded read takes draws and writes no unit. -/
theorem decodedRead_keeps_units (s : State) (off w : Nat) :
    (decodedRead s off w).Carries (SameUnits s) :=
  carries_accessChecks (carries_orFault fun _ _ => carries_orFault fun _ _ => carries_ok ⟨rfl, rfl⟩)

/-- `REG_READ` writes no unit, on a halted block either (60_exceptions.md R318). -/
theorem exec_regRead_keeps_units {s t : State} (h : exec .regRead s = .next t) : SameUnits s t := by
  cases hf : s.faulted with
  | true =>
    rw [exec_regRead_halted hf] at h
    cases h
    rcases regReadHalted_eq s with he | ⟨v, he⟩ <;> rw [he] <;> exact ⟨rfl, rfl⟩
  | false =>
    rw [exec_regRead_running hf] at h
    refine command_keeps_units h (bodyCarries_bind fun _ => bodyCarries_ok ?_)
    split
    · exact carries_fault _
    · exact carries_ok ⟨rfl, rfl⟩

/-- A pure read writes no unit: what it completes with carries the codec and the PLL unit it was given. -/
theorem exec_pureRead_keeps_units {i : Instr} {s t : State} (hi : Claims.pureRead i = true)
    (h : exec i s = .next t) : SameUnits s t := by
  cases i with
  | ringLen | getClockMap | getErrorMap | getWeakData =>
    exact command_ok_keeps_units h (carries_ok ⟨rfl, rfl⟩)
  | ringIterRev =>
    exact command_ok_keeps_units h (carries_orFault fun _ _ => carries_ok ⟨rfl, rfl⟩)
  | isData =>
    exact command_keeps_units h (bodyCarries_bind fun _ => bodyCarries_ok (carries_ok ⟨rfl, rfl⟩))
  | encodeMfm =>
    exact command_keeps_units h (bodyCarries_bind fun _ => bodyCarries_bind fun _ =>
      bodyCarries_ok (carries_ok ⟨rfl, rfl⟩))
  | ringGet | ringIter =>
    exact command_keeps_units h (bodyCarries_bind fun _ => bodyCarries_ok
      (carries_orFault fun _ _ => carries_ok ⟨rfl, rfl⟩))
  | readRawU8 | readRawU32 =>
    exact command_keeps_units h (bodyCarries_bind fun _ => bodyCarries_ok (carries_accessChecks
      (carries_orFault fun _ _ => carries_ok ⟨rfl, rfl⟩)))
  | readRawBuf =>
    exact command_keeps_units h (bodyCarries_bind fun _ => bodyCarries_bind fun _ => bodyCarries_ok
      (carries_accessChecks (carries_orFault fun _ _ => carries_ok ⟨rfl, rfl⟩)))
  | readDecodedU8 | readDecodedU32 =>
    exact command_keeps_units h (bodyCarries_bind fun _ => bodyCarries_ok (decodedRead_keeps_units s _ _))
  | findMarker =>
    refine command_keeps_units h (bodyCarries_bind fun _ => bodyCarries_bind fun _ =>
      bodyCarries_bind fun _ => bodyCarries_bind fun _ => bodyCarries_ok ?_)
    split
    · exact carries_none
    · exact carries_ok ⟨rfl, rfl⟩
  | findSync =>
    refine command_keeps_units h (bodyCarries_bind fun _ => bodyCarries_ok ?_)
    split
    · exact carries_none
    · exact carries_ok ⟨rfl, rfl⟩
  | regRead => exact exec_regRead_keeps_units h
  | _ => cases hi

/-- Writing the ring that is there already. -/
@[simp] theorem Codec.setRing_ring (c : Codec) (sel : RingSel) : c.setRing sel (c.ring sel) = c := by
  cases sel <;> rfl

/-- `STREAM_READ` writes the stream cursor and nothing else of the codec (42_codec_access.md R180). -/
theorem exec_streamRead_codec {s t : State} (h : exec .streamRead s = .next t) :
    ∃ o, t.codec = { s.codec with bitCursor := o } :=
  command_units (Q := fun c _ => ∃ o, c = { s.codec with bitCursor := o }) h ⟨s.codec.bitCursor, rfl⟩
    (bodyCarries_bind fun _ => bodyCarries_ok (carries_ite (fun _ => carries_invalidInput) fun _ =>
      carries_orFault fun (_, o) _ => carries_orFault fun _ _ => carries_ok ⟨u64 o, rfl⟩))

/-- `RING_READ` writes its ring's cursor and nothing else of the codec (41_bitring.md R140). -/
theorem exec_ringRead_codec {sel : RingSel} {s t : State} (h : exec (.ringRead sel) s = .next t) :
    ∃ c, t.codec = s.codec.setRing sel { s.codec.ring sel with cursor := c } :=
  command_units (Q := fun k _ => ∃ c, k = s.codec.setRing sel { s.codec.ring sel with cursor := c }) h
    ⟨(s.codec.ring sel).cursor, (s.codec.setRing_ring sel).symm⟩
    (bodyCarries_bind fun _ => bodyCarries_ok (carries_ite (fun _ => carries_invalidInput) fun _ =>
      carries_orFault fun (_, c) _ => carries_ok ⟨c, rfl⟩))

/-- Settles O20: the pure reads by their endings, and the two reads that move a cursor. -/
theorem readsChangeNoRing : Obligations.ReadsChangeNoRing :=
  ⟨fun _ _ _ => exec_pureRead_keeps_units, fun _ _ => exec_streamRead_codec,
    fun _ _ _ => exec_ringRead_codec⟩

end Sys2Proof.Machine
end

section
/-! SUPPORT. The faults of the access commands: an index past the top (20_memory.md R72, 42_codec_access.md R171 to R186) and a ring that cannot be read (20_memory.md R74, R75). -/

namespace Sys2Proof.Machine

/-! ### How a fault ends a command -/

/-- An operand that holds a value goes to the rest of the body. -/
theorem bind_of_ok {α β : Type} {x : Except Refusal α} {a : α} (hx : x = .ok a)
    (k : α → Except Refusal β) : (x >>= k) = k a := by
  rw [hx]
  rfl

/-- A body that ends in a fault takes it. -/
theorem command_fault {s : State} (h : s.running) {body : Except Refusal Ending} {c : FaultCode}
    (hb : body = .ok (.fault c)) : command s body = faultWith s c := by
  rw [hb, command_ok h, conclude_fault]

/-- A fault of a command whose one operand is `A0`. -/
theorem command_a0_fault {s : State} (h : s.running) {v : U64} (ha : s.args.a0 = some v)
    {k : Nat → Ending} {c : FaultCode} (hk : k v.toNat = .fault c) :
    command s (s.argNat .a0 >>= fun i => .ok (k i)) = faultWith s c :=
  command_fault h ((bind_of_ok (State.argNat_ok (a := .a0) ha) _).trans (congrArg Except.ok hk))

/-- A fault of a command whose operands are `A0` and one more. -/
theorem command_a0_fault₂ {α : Type} {s : State} (h : s.running) {v : U64} (ha : s.args.a0 = some v)
    {x : Except Refusal α} {b : α} (hx : x = .ok b) {k : Nat → α → Ending} {c : FaultCode}
    (hk : k v.toNat b = .fault c) :
    command s (s.argNat .a0 >>= fun i => x >>= fun y => .ok (k i y)) = faultWith s c :=
  command_fault h ((bind_of_ok (State.argNat_ok (a := .a0) ha) _).trans
    ((bind_of_ok hx _).trans (congrArg Except.ok hk)))

/-! ### Indices past the top -/

theorem accessChecks_overflow {c : Codec} (hw : c.bits.wrap ≠ 0) {past : Nat} (hp : 2 ^ 64 < past)
    (k : Ending) : accessChecks c past k = .fault .indexOverflow := by
  rcases accessChecks_cases c past k with ⟨h, -⟩ | ⟨-, -, h⟩ | ⟨-, h, -⟩
  · exact absurd h hw
  · exact h
  · omega

theorem accessChecks_pass {c : Codec} (hw : c.bits.wrap ≠ 0) {past : Nat} (hp : past ≤ 2 ^ 64)
    (k : Ending) : accessChecks c past k = k := by
  rcases accessChecks_cases c past k with ⟨h, -⟩ | ⟨-, h, -⟩ | ⟨-, -, h⟩
  · exact absurd h hw
  · omega
  · exact h

/-- Settles O35: each command's check is made on one more than its largest index, before any access. -/
theorem indexPastTopRaisesOverflow : Obligations.IndexPastTopRaisesOverflow := by
  intro s off h ha hw
  refine ⟨fun hp => ?rawU8, fun hp => ?rawU32, fun n hn hp => ?rawBuf, fun hp => ?decodedU8,
    fun hp => ?decodedU32, fun b hb => ⟨fun hp => ?writeRaw, fun v hp => ?writeEncoded⟩⟩
  case rawU8 | rawU32 | decodedU8 | decodedU32 =>
    exact command_a0_fault h ha (accessChecks_overflow hw (by omega) _)
  case rawBuf => exact command_a0_fault₂ h ha (State.argNat_ok (a := .a1) hn) (accessChecks_overflow hw hp _)
  case writeRaw | writeEncoded =>
    exact command_a0_fault₂ h ha (State.bufBytes_ok (b := .ib0) hb) (accessChecks_overflow hw hp _)

/-! ### Rings that cannot be read -/

theorem Ring.get_of_not_readable {r : Ring} (h : ¬ Claims.Readable r) (i : Nat) :
    r.get i = .error .ringEmpty := by
  obtain ⟨hw, hv⟩ : r.wrap = 0 ∧ r.wrapValue = none := by simpa [Claims.Readable] using h
  simp [Ring.get, hw, hv]

/-- While substitution is enabled a read asks the weak mask first (42_codec_access.md R170). -/
theorem Codec.readBits_of_weak_not_readable {c : Codec} (he : c.weakEnabled = true)
    (hr : ¬ Claims.Readable c.weak) {ps : List Nat} (hps : ps ≠ []) (d : Nat) :
    c.readBits ps d = .error .ringEmpty := by
  cases ps with
  | nil => exact absurd rfl hps
  | cons p ps => simp [Codec.readBits, Codec.readBit, he, Ring.get_of_not_readable hr]

theorem Codec.align_of_clock_not_readable {c : Codec} (hr : ¬ Claims.Readable c.clock) (o : Nat) :
    c.align o = .error .ringEmpty := by
  simp [Codec.align, Ring.get_of_not_readable hr]

theorem rawPositions_ne_nil (off : Nat) {n : Nat} (h : n ≠ 0) : rawPositions off n ≠ [] := by
  simpa [rawPositions] using h

theorem dataPositions_ne_nil (p : Nat) {w : Nat} (h : w ≠ 0) : dataPositions p w ≠ [] := by
  simpa [dataPositions] using h

/-- A raw read of some position faults at it, whatever the command makes of the bits. -/
theorem rawRead_weak_not_readable {c : Codec} (hw : c.bits.wrap ≠ 0) (he : c.weakEnabled = true)
    (hr : ¬ Claims.Readable c.weak) {off n : Nat} (hn : n ≠ 0) (hoff : off + n ≤ 2 ^ 64) (d : Nat)
    (k : List Bit × Nat → Ending) :
    accessChecks c (off + n) (orFault (c.readBits (rawPositions off n) d) k) = .fault .ringEmpty := by
  rw [accessChecks_pass hw hoff, Codec.readBits_of_weak_not_readable he hr (rawPositions_ne_nil off hn),
    orFault_error]

/-- A decoded read asks the clock map, then the weak mask while substitution is enabled (42_codec_access.md R174, R175). -/
theorem decodedRead_not_readable {s : State} (hw : s.codec.bits.wrap ≠ 0)
    (hr : ¬ Claims.Readable s.codec.clock ∨ s.codec.weakEnabled = true ∧ ¬ Claims.Readable s.codec.weak)
    {off w : Nat} (hoff : off + 2 * w + 1 ≤ 2 ^ 64) (hn : w ≠ 0) :
    decodedRead s off w = .fault .ringEmpty := by
  refine (accessChecks_pass hw hoff _).trans ?_
  by_cases hc : Claims.Readable s.codec.clock
  · obtain ⟨he, hwk⟩ := hr.resolve_left (not_not_intro hc)
    obtain ⟨p, hp⟩ := Codec.align_of_readable hc off
    simp [hp, Codec.readBits_of_weak_not_readable he hwk (dataPositions_ne_nil p hn)]
  · simp [Codec.align_of_clock_not_readable hc]

/-! ### The starts of a stream read (42_codec_access.md R180; log 11) -/

/-- The alignment is the nudge, on a clock map that can be read. -/
theorem Codec.align_eq_nudged {c : Codec} (hr : Claims.Readable c.clock) (o : Nat) :
    c.align o = .ok (Claims.nudged c o) := by
  obtain ⟨b, hb⟩ := Ring.get_ok hr o
  obtain ⟨b', hb'⟩ := Ring.get_ok hr (o + 1)
  cases b <;> cases b' <;> simp [Codec.align, Claims.nudged, hb, hb']

theorem le_nudged {c : Codec} (hr : Claims.Readable c.clock) (o : Nat) : o ≤ Claims.nudged c o := by
  have h := Codec.align_ok (Codec.align_eq_nudged hr o)
  omega

/-- One byte of a stream read whose last index lies at or below the top. -/
theorem Codec.streamStarts_succ_low {c : Codec} (hr : Claims.Readable c.clock) {n o o' : Nat}
    {ps : List Nat} (hlow : Claims.nudged c o + 15 < 2 ^ 64)
    (hrest : c.streamStarts n ((Claims.nudged c o + 16) % c.bits.wrap) = .ok (ps, o')) :
    c.streamStarts (n + 1) o = .ok (Claims.nudged c o :: ps, o') := by
  have hle := le_nudged hr o
  have hm : Config.maxIndex = 2 ^ 64 - 1 := rfl
  rw [Codec.streamStarts, if_neg (by omega), Codec.align_eq_nudged hr]
  dsimp only
  rw [if_neg (by omega), hrest]

/-- A stream read faults at its first byte or in the rest of its bytes. -/
theorem Codec.streamStarts_succ_overflow {c : Codec} (hr : Claims.Readable c.clock) {n o : Nat}
    (h : 2 ^ 64 ≤ Claims.nudged c o + 15 ∨
      c.streamStarts n ((Claims.nudged c o + 16) % c.bits.wrap) = .error .indexOverflow) :
    c.streamStarts (n + 1) o = .error .indexOverflow := by
  have hm : Config.maxIndex = 2 ^ 64 - 1 := rfl
  rw [Codec.streamStarts, Codec.align_eq_nudged hr]
  dsimp only
  split
  · rfl
  · split
    · rfl
    · rw [h.resolve_left (by omega)]

/-- The cursors `k 0`, `k 1`, ... of the bytes of a stream read of `n` bytes. -/
def StreamCursors (c : Codec) (n : Nat) (k : Nat → Nat) : Prop :=
  ∀ j, j < n → k (j + 1) = (Claims.nudged c (k j) + 16) % c.bits.wrap

theorem StreamCursors.tail {c : Codec} {n : Nat} {k : Nat → Nat} (h : StreamCursors c (n + 1) k) :
    StreamCursors c n (fun j => k (j + 1)) := fun j hj => h (j + 1) (by omega)

/-- The starts are the nudged cursors, when every byte lies at or below the top. -/
theorem Codec.streamStarts_low {c : Codec} (hr : Claims.Readable c.clock) {n : Nat} {k : Nat → Nat}
    (hk : StreamCursors c n k) (hlow : ∀ j, j < n → Claims.nudged c (k j) + 15 < 2 ^ 64) :
    c.streamStarts n (k 0) = .ok ((List.range n).map (fun j => Claims.nudged c (k j)), k n) := by
  induction n generalizing k with
  | zero => rfl
  | succ n ih =>
    have hrest := ih hk.tail fun j hj => hlow (j + 1) (by omega)
    rw [hk 0 (by omega)] at hrest
    rw [Codec.streamStarts_succ_low hr (hlow 0 (by omega)) hrest, List.range_succ_eq_map,
      List.map_cons, List.map_map]
    rfl

/-- One byte past the top is an overflow, whatever the bytes before it. -/
theorem Codec.streamStarts_overflow {c : Codec} (hr : Claims.Readable c.clock) {n : Nat} {k : Nat → Nat}
    (hk : StreamCursors c n k) (hpast : ∃ j, j < n ∧ 2 ^ 64 ≤ Claims.nudged c (k j) + 15) :
    c.streamStarts n (k 0) = .error .indexOverflow := by
  obtain ⟨j, hj, hp⟩ := hpast
  induction n generalizing k j with
  | zero => omega
  | succ n ih =>
    refine Codec.streamStarts_succ_overflow hr ?_
    cases j with
    | zero => exact .inl hp
    | succ j =>
      rw [← hk 0 (by omega)]
      exact .inr (ih hk.tail j (by omega) hp)

/-- The first byte decides, when the clock map cannot be read: its range of indices is checked before the clock is asked. -/
theorem Codec.streamStarts_of_clock_not_readable {c : Codec} (hr : ¬ Claims.Readable c.clock) {n : Nat}
    (hn : n ≠ 0) (o : Nat) :
    c.streamStarts n o = .error (if o + 15 < 2 ^ 64 then .ringEmpty else .indexOverflow) := by
  have hm : Config.maxIndex = 2 ^ 64 - 1 := rfl
  obtain ⟨n, rfl⟩ := Nat.exists_eq_succ_of_ne_zero hn
  rw [Codec.streamStarts, Codec.align_of_clock_not_readable hr]
  by_cases h : o + 15 < 2 ^ 64
  · rw [if_pos h, if_neg (by omega)]
  · rw [if_neg h, if_pos (by omega)]

/-! ### `STREAM_READ` -/

section
variable {s : State} {v : U64} (h : s.running) (ha : s.args.a0 = some v) (hw : s.codec.bits.wrap ≠ 0)
include h ha hw

theorem exec_streamRead_of_starts_error {c : FaultCode}
    (hs : s.codec.streamStarts v.toNat s.codec.bitCursor.toNat = .error c) :
    exec .streamRead s = faultWith s c :=
  command_a0_fault h ha (by rw [if_neg hw, hs, orFault_error])

theorem exec_streamRead_of_weak_not_readable (he : s.codec.weakEnabled = true)
    (hr : ¬ Claims.Readable s.codec.weak) {o : Nat} {ps : List Nat} (hps : ps ≠ [])
    (hs : s.codec.streamStarts v.toNat s.codec.bitCursor.toNat = .ok (ps, o)) :
    exec .streamRead s = faultWith s .ringEmpty := by
  have hpos : ps.flatMap (fun p => dataPositions p 8) ≠ [] := by
    obtain ⟨p, rest, rfl⟩ := List.exists_cons_of_ne_nil hps
    simp [dataPositions_ne_nil]
  refine command_a0_fault h ha ?_
  rw [if_neg hw, hs, orFault_ok]
  dsimp only
  rw [Codec.readBits_of_weak_not_readable he hr hpos, orFault_error]

end

/-- Settles O40: a read of some position asks `WEAK` first, a decoded read `CLOCK` before it, and `STREAM_READ` computes the starts of all its bytes before it reads a data bit. -/
theorem unreadableRingRaisesRingEmpty : Obligations.UnreadableRingRaisesRingEmpty := by
  intro s v h ha hw
  have hpos {n : U64} (hn : n ≠ 0) : n.toNat ≠ 0 := by simpa [BitVec.toNat_eq] using hn
  refine ⟨fun he hr => ?raw, fun hr => ?decoded, fun hr hv => ?streamClock,
    fun hc he hr hv k h0 hk => ⟨fun hlow => ?streamLow, fun hpast => ?streamPast⟩⟩
  case raw =>
    exact ⟨fun hp => command_a0_fault h ha (rawRead_weak_not_readable hw he hr (by omega) (by omega) _ _),
      fun hp => command_a0_fault h ha (rawRead_weak_not_readable hw he hr (by omega) (by omega) _ _),
      fun n hn hn0 hp => command_a0_fault₂ h ha (State.argNat_ok (a := .a1) hn)
        (rawRead_weak_not_readable hw he hr (Nat.mul_ne_zero (by omega) (hpos hn0)) hp _ _)⟩
  case decoded =>
    exact ⟨fun hp => command_a0_fault h ha (decodedRead_not_readable hw hr (by omega) (by omega)),
      fun hp => command_a0_fault h ha (decodedRead_not_readable hw hr (by omega) (by omega))⟩
  case streamClock =>
    have hs := Codec.streamStarts_of_clock_not_readable hr (hpos hv) s.codec.bitCursor.toNat
    exact ⟨fun hp => exec_streamRead_of_starts_error h ha hw (by rw [hs, if_pos hp]),
      fun hp => exec_streamRead_of_starts_error h ha hw (by rw [hs, if_neg (by omega)])⟩
  case streamLow =>
    have hstarts : (List.range v.toNat).map (fun j => Claims.nudged s.codec (k j)) ≠ [] := by
      simpa using hpos hv
    exact exec_streamRead_of_weak_not_readable h ha hw he hr hstarts
      (h0 ▸ Codec.streamStarts_low hc hk hlow)
  case streamPast =>
    exact exec_streamRead_of_starts_error h ha hw (h0 ▸ Codec.streamStarts_overflow hc hk hpast)

end Sys2Proof.Machine
end

section
/-! SUPPORT. The decoder and the encoder are inverse to each other, and the decoder accepts a word exactly when its fields pass the four checks (30_encoding.md R102, R111). -/

namespace Sys2Proof

/-! ### One field -/

/-- `read` reads the legal values of a 4-bit field and no other, and is inverse to `code`. -/
structure FieldReader {α : Type} (legal : BitVec 4 → Prop) (code : α → BitVec 4)
    (read : BitVec 4 → Option α) : Prop where
  isSome_iff : ∀ v, (read v).isSome = true ↔ legal v
  code_eq : ∀ v, ∀ a ∈ read v, code a = v
  read_code : ∀ a, read (code a) = some a

theorem ringOfSel_reader : FieldReader (·.toNat < SelKind.sel.count) RingSel.code ringOfSel :=
  ⟨by decide, by decide, fun a => by cases a <;> rfl⟩

theorem variantOfSel_reader : FieldReader (·.toNat < SelKind.var.count) Variant.code variantOfSel :=
  ⟨by decide, by decide, fun a => by cases a <;> rfl⟩

theorem whenceOfSel_reader : FieldReader (·.toNat < SelKind.whence.count) Whence.code whenceOfSel :=
  ⟨by decide, by decide, fun a => by cases a <;> rfl⟩

theorem wrappingOfSel_reader : FieldReader (·.toNat < SelKind.wrapping.count) boolCode wrappingOfSel :=
  ⟨by decide, by decide, fun a => by cases a <;> rfl⟩

theorem encOfSel_reader : FieldReader (·.toNat < SelKind.enc.count) PllEnc.code encOfSel :=
  ⟨by decide, by decide, fun a => by cases a <;> rfl⟩

theorem unitOfSel_reader : FieldReader (·.toNat < SelKind.none.count) (fun _ => 0) unitOfSel :=
  ⟨by decide, by decide, fun _ => rfl⟩

theorem noFlag_reader : FieldReader (fun f => f &&& ~~~ 0 = 0) (fun _ => 0) noFlag :=
  ⟨by decide, by decide, fun _ => rfl⟩

theorem oneFlag_reader : FieldReader (fun f => f &&& ~~~ 1 = 0) boolCode oneFlag :=
  ⟨by decide, by decide, fun a => by cases a <;> rfl⟩

theorem twoFlags_reader : FieldReader (fun f => f &&& ~~~ 3 = 0) (fun f => flagCode f.1 f.2) twoFlags :=
  ⟨by decide, by decide, fun ⟨a, b⟩ => by cases a <;> cases b <;> rfl⟩

/-! ### One row of the opcode map -/

theorem withFields_eq_ok_iff {α β : Type} {selOf : BitVec 4 → Option α} {flagOf : BitVec 4 → Option β}
    {k : α → β → Instr} {s f : BitVec 4} {i : Instr} :
    withFields selOf flagOf k s f = .ok i ↔ ∃ a b, selOf s = some a ∧ flagOf f = some b ∧ k a b = i := by
  unfold withFields
  cases selOf s with
  | none => simp
  | some a => cases flagOf f <;> simp

/-- `form` reads the `S` and `F` fields of the row `r`: it accepts the legal values, and the command it then gives has these fields. -/
structure FormOfRow (r : OpRow) (form : BitVec 4 → BitVec 4 → Except DecodeError Instr) : Prop where
  accepts_iff : ∀ s f, (∃ i, form s f = .ok i) ↔ s.toNat < r.kind.count ∧ f &&& ~~~ r.flags = 0
  fields_eq : ∀ {s f i}, form s f = .ok i → i.fields = ⟨r.opc, s, f, 0⟩

theorem formOfRow_withFields {α β : Type} {r : OpRow} {sCode : α → BitVec 4} {fCode : β → BitVec 4}
    {selOf : BitVec 4 → Option α} {flagOf : BitVec 4 → Option β} {k : α → β → Instr}
    (hs : FieldReader (·.toNat < r.kind.count) sCode selOf)
    (hf : FieldReader (fun f => f &&& ~~~ r.flags = 0) fCode flagOf)
    (hk : ∀ a b, (k a b).fields = ⟨r.opc, sCode a, fCode b, 0⟩) :
    FormOfRow r (withFields selOf flagOf k) where
  accepts_iff s f := by
    rw [← hs.isSome_iff, ← hf.isSome_iff, Option.isSome_iff_exists, Option.isSome_iff_exists]
    simp only [withFields_eq_ok_iff]
    exact ⟨fun ⟨_, a, b, ha, hb, _⟩ => ⟨⟨a, ha⟩, b, hb⟩, fun ⟨⟨a, ha⟩, b, hb⟩ => ⟨_, a, b, ha, hb, rfl⟩⟩
  fields_eq {s f i} h := by
    obtain ⟨a, b, ha, hb, rfl⟩ := withFields_eq_ok_iff.mp h
    rw [hk, hs.code_eq s a ha, hf.code_eq f b hb]

/-- The decoder reads the opcode of the row `r` as the row says. -/
def RowIsRead (r : OpRow) : Prop := ∃ form, opForm r.opc = some form ∧ FormOfRow r form

theorem RowIsRead.plain {opc : BitVec 8} {i : Instr} (ho : opForm opc = some (plainForm i))
    (hi : i.fields = ⟨opc, 0, 0, 0⟩) : RowIsRead ⟨opc, .none, 0⟩ :=
  ⟨_, ho, formOfRow_withFields unitOfSel_reader noFlag_reader fun _ _ => hi⟩

theorem RowIsRead.ring {opc : BitVec 8} {k : RingSel → Instr} (ho : opForm opc = some (ringForm k))
    (hk : ∀ r, (k r).fields = ⟨opc, r.code, 0, 0⟩) : RowIsRead ⟨opc, .sel, 0⟩ :=
  ⟨_, ho, formOfRow_withFields ringOfSel_reader noFlag_reader fun r _ => hk r⟩

theorem ringRows_isRead : ∀ r ∈ ringRows, RowIsRead r := by
  simp only [ringRows, List.forall_mem_cons]
  exact ⟨.ring rfl fun _ => rfl, .ring rfl fun _ => rfl,
    ⟨_, rfl, formOfRow_withFields ringOfSel_reader oneFlag_reader fun _ _ => rfl⟩,
    .ring rfl fun _ => rfl, .ring rfl fun _ => rfl, .ring rfl fun _ => rfl, .ring rfl fun _ => rfl,
    .ring rfl fun _ => rfl, by simp⟩

theorem codecRows_isRead : ∀ r ∈ codecRows, RowIsRead r := by
  simp only [codecRows, List.forall_mem_cons]
  exact ⟨⟨_, rfl, formOfRow_withFields unitOfSel_reader twoFlags_reader fun _ _ => rfl⟩,
    .plain rfl rfl, .plain rfl rfl, .plain rfl rfl, .plain rfl rfl, .plain rfl rfl, .plain rfl rfl,
    .plain rfl rfl, .plain rfl rfl, .plain rfl rfl,
    ⟨_, rfl, formOfRow_withFields whenceOfSel_reader noFlag_reader fun _ _ => rfl⟩,
    .plain rfl rfl,
    ⟨_, rfl, formOfRow_withFields variantOfSel_reader noFlag_reader fun _ _ => rfl⟩,
    .plain rfl rfl, .plain rfl rfl, .plain rfl rfl, .plain rfl rfl,
    ⟨_, rfl, formOfRow_withFields wrappingOfSel_reader noFlag_reader fun _ _ => rfl⟩, by simp⟩

theorem unitRows_isRead : ∀ r ∈ unitRows, RowIsRead r := by
  simp only [unitRows, List.forall_mem_cons]
  exact ⟨⟨_, rfl, formOfRow_withFields variantOfSel_reader noFlag_reader fun _ _ => rfl⟩,
    ⟨_, rfl, formOfRow_withFields unitOfSel_reader oneFlag_reader fun _ _ => rfl⟩,
    .plain rfl rfl,
    ⟨_, rfl, formOfRow_withFields unitOfSel_reader oneFlag_reader fun _ _ => rfl⟩,
    .plain rfl rfl, .plain rfl rfl, .plain rfl rfl,
    ⟨_, rfl, formOfRow_withFields encOfSel_reader oneFlag_reader fun _ _ => rfl⟩,
    .plain rfl rfl, .plain rfl rfl, .plain rfl rfl, .plain rfl rfl, by simp⟩

theorem opRows_isRead : ∀ r ∈ opRows, RowIsRead r := by
  simp only [opRows, List.forall_mem_append]
  exact ⟨⟨ringRows_isRead, codecRows_isRead⟩, unitRows_isRead⟩

/-! ### Every opcode -/

/-- A row found for an opcode is that opcode's, and the decoder reads it. -/
theorem opForm_of_row {opc : BitVec 8} {r : OpRow} (h : opRow? opc = some r) :
    r.opc = opc ∧ ∃ form, opForm opc = some form ∧ FormOfRow r form := by
  obtain rfl : r.opc = opc := by simpa using List.find?_some h
  exact ⟨rfl, opRows_isRead r (List.mem_of_find?_eq_some h)⟩

/-- The decoder has a form for the opcodes of the map only. -/
theorem opForm_of_no_row {opc : BitVec 8} (h : opRow? opc = none) : opForm opc = none := by
  have hne : ∀ r ∈ opRows, r.opc.toNat ≠ opc.toNat := by simpa [opRow?, BitVec.toNat_inj] using h
  unfold opForm
  split
  case h_39 => rfl
  all_goals next ho => exact absurd hne (by rw [ho]; decide)

theorem decode_eq_ok_iff {w : CmdWord} {i : Instr} :
    decode w = .ok i ↔ (fieldsOf w).zero = 0 ∧
      ∃ form, opForm (fieldsOf w).opc = some form ∧ form (fieldsOf w).sel (fieldsOf w).flags = .ok i := by
  unfold decode
  cases opForm (fieldsOf w).opc with
  | none => simp
  | some form => by_cases hz : (fieldsOf w).zero = 0#16 <;> simp [hz]

/-! ### The four checks -/

/-- The four checks of 30_encoding.md R102 on the fields of an opcode in the map. -/
theorem wellFormed_iff_of_row {c : CmdFields} {r : OpRow} (h : opRow? c.opc = some r) :
    c.wellFormed = true ↔ c.zero = 0 ∧ c.sel.toNat < r.kind.count ∧ c.flags &&& ~~~ r.flags = 0 := by
  simp [CmdFields.wellFormed, CmdFields.known, CmdFields.reservedZero, CmdFields.selectorLegal,
    CmdFields.flagsDefined, h, and_assoc]

theorem not_wellFormed_of_no_row {c : CmdFields} (h : opRow? c.opc = none) : c.wellFormed = false := by
  simp [CmdFields.wellFormed, CmdFields.known, h]

theorem zero_of_wellFormed {c : CmdFields} (h : c.wellFormed = true) : c.zero = 0 := by
  cases hr : opRow? c.opc with
  | none => simp [not_wellFormed_of_no_row hr] at h
  | some r => exact ((wellFormed_iff_of_row hr).mp h).1

/-- The decoder accepts exactly the words that pass the four checks (30_encoding.md R102). -/
theorem exists_decode_eq_ok_iff {w : CmdWord} : (∃ i, decode w = .ok i) ↔ (fieldsOf w).wellFormed = true := by
  simp only [decode_eq_ok_iff]
  cases hr : opRow? (fieldsOf w).opc with
  | none => simp [opForm_of_no_row hr, not_wellFormed_of_no_row hr]
  | some r =>
    obtain ⟨-, form, ho, hform⟩ := opForm_of_row hr
    rw [wellFormed_iff_of_row hr, ← hform.accepts_iff]
    simp [ho]

/-- A word that decodes to a command has that command's fields. -/
theorem fields_of_decode {w : CmdWord} {i : Instr} (h : decode w = .ok i) : i.fields = fieldsOf w := by
  obtain ⟨hz, form, ho, hi⟩ := decode_eq_ok_iff.mp h
  cases hr : opRow? (fieldsOf w).opc with
  | none => simp [opForm_of_no_row hr] at ho
  | some r =>
    obtain ⟨hopc, form', ho', hform⟩ := opForm_of_row hr
    obtain rfl : form' = form := Option.some.inj (ho'.symm.trans ho)
    rw [hform.fields_eq hi, hopc, ← hz]

/-! ### The round trips -/

theorem withFields_code {α β : Type} {legalSel legalFlag : BitVec 4 → Prop} {sCode : α → BitVec 4}
    {fCode : β → BitVec 4} {selOf : BitVec 4 → Option α} {flagOf : BitVec 4 → Option β}
    (hs : FieldReader legalSel sCode selOf) (hf : FieldReader legalFlag fCode flagOf)
    (k : α → β → Instr) (a : α) (b : β) : withFields selOf flagOf k (sCode a) (fCode b) = .ok (k a b) :=
  withFields_eq_ok_iff.mpr ⟨a, b, hs.read_code a, hf.read_code b, rfl⟩

theorem ringForm_code (k : RingSel → Instr) (r : RingSel) : ringForm k r.code 0 = .ok (k r) :=
  withFields_code ringOfSel_reader noFlag_reader _ r ()

/-- Each command's opcode has a form that reads the command's own `S` and `F` fields back (30_encoding.md R111). -/
theorem opForm_fields (i : Instr) :
    ∃ form, opForm i.fields.opc = some form ∧ form i.fields.sel i.fields.flags = .ok i := by
  cases i with
  | ringLen r | ringSetWrap r | ringGet r | ringSet r | ringIter r | ringIterRev r | ringRead r =>
    exact ⟨_, rfl, ringForm_code _ r⟩
  | ringSetWrapValue r p => exact ⟨_, rfl, withFields_code ringOfSel_reader oneFlag_reader _ r p⟩
  | codecNew c m => exact ⟨_, rfl, withFields_code unitOfSel_reader twoFlags_reader _ () (c, m)⟩
  | seek w => exact ⟨_, rfl, withFields_code whenceOfSel_reader noFlag_reader _ w ()⟩
  | writeEncodedBuf v | encodeMfm v => exact ⟨_, rfl, withFields_code variantOfSel_reader noFlag_reader _ v ()⟩
  | isData w => exact ⟨_, rfl, withFields_code wrappingOfSel_reader noFlag_reader _ w ()⟩
  | findMarker b | createWeakMask b => exact ⟨_, rfl, withFields_code unitOfSel_reader oneFlag_reader _ () b⟩
  | pllDecode e h => exact ⟨_, rfl, withFields_code encOfSel_reader oneFlag_reader _ e h⟩
  | _ => exact ⟨_, rfl, rfl⟩

/-- Settles O1: the fields of the word are the command's, and its opcode's form reads them back. -/
theorem decodeOfEncode : Obligations.DecodeOfEncode := by
  intro i hi
  rw [decode_eq_ok_iff, encode, fieldsOf_word]
  exact ⟨zero_of_wellFormed hi, opForm_fields i⟩

/-- Settles O2: the fields of the word are the command's, and a word is the word of its fields. -/
theorem encodeOfDecode : Obligations.EncodeOfDecode := by
  intro w i h
  rw [encode, fields_of_decode h, word_fieldsOf]

/-- Settles O4: the six words are those of their commands; `S = 4` names no ring, and `Z` is not zero. -/
theorem encodingExamples : Obligations.EncodingExamples :=
  ⟨decodeOfEncode (.ringGet .clock) rfl, decodeOfEncode (.findMarker true) rfl,
    decodeOfEncode (.findMarker false) rfl, decodeOfEncode (.seek .fromEnd) rfl,
    decodeOfEncode (.encodeMfm .addressMark) rfl, decodeOfEncode (.codecNew true true) rfl, rfl, rfl⟩

end Sys2Proof
end

section
/-! SUPPORT. The issue of a command word (30_encoding.md R102, 20_memory.md R88, R90). -/

namespace Sys2Proof.Machine

theorem issue_of_decode_ok {w : CmdWord} {i : Instr} (h : decode w = .ok i) (s : State) :
    issue w s = exec i s := by
  simp [issue, h]

theorem issue_of_decode_error {w : CmdWord} {e : DecodeError} (h : decode w = .error e) (s : State) :
    issue w s = .next s.illegalWord := by
  simp [issue, h]

theorem State.illegalWord_running {s : State} (h : s.running) : s.illegalWord = s.raise .illegalCommand := by
  simp [State.illegalWord, h]

/-- Settles O3: the decoder accepts exactly the words that pass the four checks, and the command it gives has that word. -/
theorem wordRunsItsCommandOrIsIllegal : Obligations.WordRunsItsCommandOrIsIllegal := by
  intro w s hs
  cases h : decode w with
  | ok i =>
    rw [if_pos (exists_decode_eq_ok_iff.mp ⟨i, h⟩)]
    exact ⟨i, encodeOfDecode w i h, issue_of_decode_ok h s⟩
  | error e =>
    have hw : ¬ (fieldsOf w).wellFormed = true := by simp [← exists_decode_eq_ok_iff, h]
    rw [if_neg hw, issue_of_decode_error h, State.illegalWord_running hs]

/-- Settles O5: the step is the issue of the word, on the state with that event taken. -/
theorem stepRunsDecodedCommand : Obligations.StepRunsDecodedCommand := fun _ _ _ h =>
  ⟨fun _ hd => (step_event h).trans (issue_of_decode_ok hd _),
    fun _ hd => (step_event h).trans (issue_of_decode_error hd _)⟩

end Sys2Proof.Machine
end

section
/-! SUPPORT. How a command with one operand ends, and the word of a command by its fields (30_encoding.md R101, R105; 60_exceptions.md R310). -/

namespace Sys2Proof.Machine

/-- A command's word carries the command's fields. -/
theorem encodedAs_of_fields {i : Instr} {opc : BitVec 8} {sel flags : BitVec 4}
    (h : i.fields = ⟨opc, sel, flags, 0⟩) : Claims.EncodedAs i opc sel flags := by
  rw [Claims.EncodedAs, encode, fieldsOf_word, h]

/-- On a running block an operand that holds a value goes to the command's meaning. -/
theorem command_of_operand {α : Type} {s : State} (h : s.running) {x : Except Refusal α} {a : α}
    (hx : x = .ok a) (k : α → Ending) :
    command s (x >>= fun y => .ok (k y)) = .next (conclude s (k a)) := by
  rw [bind_of_ok hx, command_ok h]

end Sys2Proof.Machine
end

section
/-! SUPPORT. The bit ring commands, each said once by the ring operation it runs (41_bitring.md R130 to R142). -/

namespace Sys2Proof.Machine

/-! ### The ring operations -/

/-- Reads of the first `n` indices: one each, of a readable ring or of no index at all (41_bitring.md R139). -/
theorem Ring.getMany_of_readable {r : Ring} {n : Nat} (h : n = 0 ∨ Claims.Readable r) (i : Nat) :
    ∃ bs, r.getMany n i = .ok bs := by
  rcases h with rfl | hr
  · exact ⟨[], rfl⟩
  · exact Ring.getMany_ok hr n i

theorem Ring.getMany_of_not_readable {r : Ring} (h : ¬ Claims.Readable r) {n : Nat} (hn : n ≠ 0) (i : Nat) :
    r.getMany n i = .error .ringEmpty := by
  obtain ⟨m, rfl⟩ := Nat.exists_eq_succ_of_ne_zero hn
  simp [Ring.getMany, Ring.get_of_not_readable h]

/-- A cursor inside the wrap goes around the revolution. -/
theorem cursorPos_inside {w c : Nat} (h : c < w) (m : Nat) : cursorPos w c m = (c + m) % w := by
  by_cases hm : m = 0
  · simp [cursorPos, hm, Nat.mod_eq_of_lt h]
  · simp [cursorPos, hm, h]

/-- A cursor left beyond the wrap is used once, and the revolution starts after it (41_bitring.md R140). -/
theorem cursorPos_beyond {w c : Nat} (h : w ≤ c) (m : Nat) :
    cursorPos w c m = if m = 0 then c else (m - 1) % w := by
  simp [cursorPos, Nat.not_lt.mpr h]

/-- The two courses of a cursor read, told apart by the cursor alone (41_bitring.md R140). -/
theorem cursorPos_eq (w c m : Nat) :
    cursorPos w c m = if c < w then (c + m) % w else if m = 0 then c else (m - 1) % w := by
  split
  · next h => exact cursorPos_inside h m
  · next h => exact cursorPos_beyond (Nat.not_lt.mp h) m

/-! ### The commands -/

section
variable {s : State} (h : s.running) (sel : RingSel)
include h

theorem exec_ringLen :
    exec (.ringLen sel) s = okWith s { y0 := some (u64 (s.codec.ring sel).wrap) } :=
  command_ok h _

theorem exec_ringSetWrap {v : U64} (ha : s.args.a0 = some v) :
    exec (.ringSetWrap sel) s = okWith (s.withRing sel ((s.codec.ring sel).setWrap v.toNat)) {} :=
  command_of_operand h (State.argNat_ok (a := .a0) ha) _

/-- The operand of `RING_SET_WRAP_VALUE` is the wrap value it sets, or none to clear it (41_bitring.md R136). -/
theorem exec_ringSetWrapValue {present : Bool} {v : Option Bit} (hv : s.argBitIf present .a0 = .ok v) :
    exec (.ringSetWrapValue sel present) s = okWith (s.withRing sel ((s.codec.ring sel).setWrapValue v)) {} :=
  command_of_operand h hv _

theorem exec_ringGet {v : U64} (ha : s.args.a0 = some v) :
    exec (.ringGet sel) s = .next (conclude s (orFault ((s.codec.ring sel).get v.toNat)
      fun b => .ok s { y0 := some (bitWord b) })) :=
  command_of_operand h (State.argNat_ok (a := .a0) ha) _

theorem exec_ringSet {i b : U64} (ha : s.args.a0 = some i) (hb : s.args.a1 = some b) :
    exec (.ringSet sel) s = .next (conclude s (orFault ((s.codec.ring sel).set i.toNat (b.getLsbD 0))
      fun ring => .ok (s.withRing sel ring) {})) :=
  (congrArg (command s) (bind_of_ok (State.argNat_ok (a := .a0) ha) _)).trans
    (command_of_operand h (State.argBit_ok (a := .a1) hb) _)

theorem exec_ringIter {n : U64} (ha : s.args.a0 = some n) :
    exec (.ringIter sel) s = .next (conclude s (orFault ((s.codec.ring sel).getMany n.toNat 0)
      fun bs => .ok s { ob0 := some (.bits bs) })) :=
  command_of_operand h (State.argNat_ok (a := .a0) ha) _

theorem exec_ringIterRev :
    exec (.ringIterRev sel) s = .next (conclude s (orFault
      ((s.codec.ring sel).getMany (s.codec.ring sel).wrap 0) fun bs => .ok s { ob0 := some (.bits bs) })) :=
  command_ok h _

theorem exec_ringRead_of_no_wrap {n : U64} (ha : s.args.a0 = some n) (hw : (s.codec.ring sel).wrap = 0) :
    exec (.ringRead sel) s = .next (s.complete codeInvalidInput {}) :=
  (command_of_operand h (State.argNat_ok (a := .a0) ha) _).trans (by rw [if_pos hw, conclude_invalidInput])

theorem exec_ringRead_of_wrap {n : U64} (ha : s.args.a0 = some n) (hw : (s.codec.ring sel).wrap ≠ 0)
    {out : List Byte} {c : Nat}
    (ht : (s.codec.ring sel).takeBytes n.toNat (s.codec.ring sel).cursor = .ok (out, c)) :
    exec (.ringRead sel) s = okWith (s.withRing sel { s.codec.ring sel with cursor := c })
      { ob0 := some (.bytes out) } :=
  (command_of_operand h (State.argNat_ok (a := .a0) ha) _).trans
    (by rw [if_neg hw, ht, orFault_ok, conclude_ok])

end

/-! ### The statements -/

/-- Settles O23: the clamp is that of `setWrap`, and the value set is the operand's bit 0. -/
theorem ringLengthAndWrapCommands : Obligations.RingLengthAndWrapCommands := fun sel _ h =>
  ⟨encodedAs_of_fields rfl, encodedAs_of_fields rfl, encodedAs_of_fields rfl, encodedAs_of_fields rfl,
    exec_ringLen h sel, fun _ ha => exec_ringSetWrap h sel ha,
    fun _ ha => exec_ringSetWrapValue h sel (State.argBitIf_ok (a := .a0) ha),
    exec_ringSetWrapValue h sel (State.argBitIf_absent _ _)⟩

/-- Settles O24: `RING_GET` ends as the read rule (O22) says of its index. -/
theorem ringGetResult : Obligations.RingGetResult := by
  refine fun sel s i h ha => ⟨encodedAs_of_fields rfl, ?_⟩
  obtain ⟨hbelow, hvalue, hempty, hfold⟩ := ringReadRule (s.codec.ring sel) i.toNat
  rw [exec_ringGet h sel ha]
  split
  · next hi => rw [hbelow hi, orFault_ok, conclude_ok]
  · next hi =>
    split
    · next v hv => rw [hvalue v (Nat.not_lt.mp hi) hv, orFault_ok, conclude_ok]
    · next hv =>
      split
      · next hw => rw [hempty (Nat.not_lt.mp hi) hv hw, orFault_error, conclude_fault]
      · next hw => rw [(hfold (Nat.not_lt.mp hi) hv hw).1, orFault_ok, conclude_ok]

/-- Settles O25: the folded index is below the wrap, and so in the storage of a well-formed ring. -/
theorem ringSetResult : Obligations.RingSetResult := by
  refine fun sel s i b h hwf ha hb => ⟨encodedAs_of_fields rfl, fun hw => ?empty, fun hw => ?stored⟩
  case empty =>
    have hset : (s.codec.ring sel).set i.toNat (b.getLsbD 0) = .error .ringEmpty := by simp [Ring.set, hw]
    rw [exec_ringSet h sel ha hb, hset, orFault_error, conclude_fault]
  case stored =>
    obtain ⟨hlen, hwrap⟩ := Ring.wf_iff.mp (Codec.wf_ring hwf sel)
    have hfold := Nat.mod_lt i.toNat (Nat.pos_of_ne_zero hw)
    refine ⟨_, ?_, List.length_set, fun j => getD_set _ _ j _ (by omega)⟩
    rw [exec_ringSet h sel ha hb, Ring.set_of_wrap hw, orFault_ok, conclude_ok]

/-- Settles O26: a run of reads from index 0. -/
theorem ringIterResult : Obligations.RingIterResult := by
  refine fun sel s n h ha => ⟨encodedAs_of_fields rfl, fun hr => ?reads, fun hn hw hv => ?empty⟩
  case reads =>
    obtain ⟨bs, hbs⟩ := Ring.getMany_of_readable (hr.imp_left fun hn => congrArg BitVec.toNat hn) 0
    refine ⟨bs, ?_, Ring.getMany_length hbs, fun k hk => ?_⟩
    · rw [exec_ringIter h sel ha, hbs, orFault_ok, conclude_ok]
    · simpa using Ring.getMany_get hbs hk
  case empty =>
    have hr : ¬ Claims.Readable (s.codec.ring sel) := by simp [Claims.Readable, hw, hv]
    have hn' : n.toNat ≠ 0 := by simpa [BitVec.toNat_eq] using hn
    rw [exec_ringIter h sel ha, Ring.getMany_of_not_readable hr hn', orFault_error, conclude_fault]

/-- Settles O27: one revolution never meets the wrap rule, and a well-formed ring stores all its bits. -/
theorem ringIterRevResult : Obligations.RingIterRevResult := by
  intro sel s h hwf
  obtain ⟨hlen, hwrap⟩ := Ring.wf_iff.mp (Codec.wf_ring hwf sel)
  have hin : (s.codec.ring sel).wrap ≤ (s.codec.ring sel).bits.length := hlen ▸ hwrap
  refine ⟨encodedAs_of_fields rfl, ?_, ?_⟩
  · rw [exec_ringIterRev h sel, Ring.getMany_revolution _ hin, orFault_ok, conclude_ok]
  · rw [exec_ringLen h sel, List.length_take_of_le hin]

/-- Settles O28: the reads are those of `cursorPos`, whose two cases are a cursor inside and one beyond the wrap. -/
theorem ringReadResult : Obligations.RingReadResult := by
  rintro sel s n ring h ha rfl
  refine ⟨encodedAs_of_fields rfl, exec_ringRead_of_no_wrap h sel ha, fun hw => ?_⟩
  obtain ⟨out, htake, hlen, hget⟩ := Ring.takeBytes_spec hw n.toNat (s.codec.ring sel).cursor
  have hn : 8 * n.toNat = 0 ↔ n = 0 := by simp [BitVec.toNat_eq]
  refine ⟨out, ?_, hlen, fun m k hm hk => ?_⟩
  · simpa only [cursorPos, hn] using exec_ringRead_of_wrap h sel ha hw htake
  · rw [← cursorPos_eq]
    exact hget m k hm hk

end Sys2Proof.Machine
end

section
/-! SUPPORT. How a command with several operands ends, and an access command that passes its checks (42_codec_access.md R165, 20_memory.md R72). -/

namespace Sys2Proof.Machine

section
variable {α β : Type} {s : State} (h : s.running) {x : Except Refusal α} {a : α} (hx : x = .ok a)
include h hx

/-- A command with one operand completes as its ending says. -/
theorem command_completes {k : α → Ending} {s' : State} {r : Results} (hk : k a = .ok s' r) :
    command s (x >>= fun u => .ok (k u)) = okWith s' r := by
  rw [command_of_operand h hx, hk, conclude_ok]

theorem command_rejects {k : α → Ending} (hk : k a = .invalidInput) :
    command s (x >>= fun u => .ok (k u)) = .next (s.complete codeInvalidInput {}) := by
  rw [command_of_operand h hx, hk, conclude_invalidInput]

/-- A command with two operands completes as its ending says. -/
theorem command_completes₂ {y : Except Refusal β} {b : β} (hy : y = .ok b) {k : α → β → Ending}
    {s' : State} {r : Results} (hk : k a b = .ok s' r) :
    command s (x >>= fun u => y >>= fun v => .ok (k u v)) = okWith s' r := by
  rw [bind_of_ok hx, command_completes h hy hk]

end

/-- An access that passes both checks and whose operation does not fault goes on with what that gives. -/
theorem accessChecks_orFault_ok {α : Type} {c : Codec} {past : Nat} {x : Except FaultCode α} {a : α}
    (hw : c.bits.wrap ≠ 0) (hp : past ≤ 2 ^ 64) (hx : x = .ok a) (k : α → Ending) :
    accessChecks c past (orFault x k) = k a := by
  rw [accessChecks_pass hw hp, hx, orFault_ok]

/-! ### The empty codec (42_codec_access.md R165) -/

/-- The body ends in `e`, unless it is refused. -/
def EndsIn (e : Ending) (body : Except Refusal Ending) : Prop := ∀ e', body = .ok e' → e' = e

theorem endsIn_ok {e e' : Ending} (h : e' = e) : EndsIn e (.ok e') := by
  rintro _ ⟨⟩
  exact h

theorem endsIn_bind {α : Type} {e : Ending} {x : Except Refusal α} {k : α → Except Refusal Ending}
    (h : ∀ a, EndsIn e (k a)) : EndsIn e (x >>= k) := by
  cases x with
  | error r => exact fun _ hx => nomatch (hx : Except.error r = _)
  | ok a => exact h a

theorem accessChecks_of_empty {c : Codec} (hw : c.bits.wrap = 0) (past : Nat) (k : Ending) :
    accessChecks c past k = .invalidInput := if_pos hw

/-- On an empty codec the body of an access command ends `INVALID_INPUT`, unless it is refused. -/
theorem accessBody_of_empty {i : Instr} {s : State} (hi : Claims.testsEmptyCodec i = true)
    (hw : s.codec.bits.wrap = 0) :
    ∃ body, exec i s = command s body ∧ EndsIn .invalidInput body := by
  cases i with
  | readRawU8 | readRawU32 | readDecodedU8 | readDecodedU32 =>
    exact ⟨_, rfl, endsIn_bind fun _ => endsIn_ok (accessChecks_of_empty hw _ _)⟩
  | readRawBuf | writeRawBuf | writeEncodedBuf =>
    exact ⟨_, rfl, endsIn_bind fun _ => endsIn_bind fun _ => endsIn_ok (accessChecks_of_empty hw _ _)⟩
  | streamRead | seek => exact ⟨_, rfl, endsIn_bind fun _ => endsIn_ok (if_pos hw)⟩
  | _ => cases hi

/-- Settles O32: each of the nine tests the wrap first, and a command whose operands are written is not refused. -/
theorem emptyCodecEndsInvalidInput : Obligations.EmptyCodecEndsInvalidInput := by
  intro i s hi h hready hw
  obtain ⟨body, hexec, hends⟩ := accessBody_of_empty hi hw
  cases hb : body with
  | error r =>
    have hrefused : exec i s = .refused r := by rw [hexec, hb, command_error h]
    have hnot := (exec_refused_iff h i).mp ⟨r, hrefused⟩
    rw [hready] at hnot
    cases hnot
  | ok e => rw [hexec, hb, command_ok h, hends e hb, conclude_invalidInput]

end Sys2Proof.Machine
end

section
/-! SUPPORT. The reads of the codec, said once by positions: which draw, which bit, and where they start (42_codec_access.md R170 to R182). -/

namespace Sys2Proof.Machine

/-! ### Runs of reads -/

/-- One read of a track that can be read: a draw at a weak position, the stored bit elsewhere (42_codec_access.md R170). -/
theorem Codec.readBit_of_trackReadable {c : Codec} (ht : Claims.TrackReadable c) (p d : Nat) :
    (Claims.drawsAt c p = true ∧ c.readBit p d = .ok (Config.weakDraw d, d + 1)) ∨
    (Claims.drawsAt c p = false ∧ ∃ b, c.bits.get p = .ok b ∧ c.readBit p d = .ok (b, d)) := by
  obtain ⟨hw, hweak⟩ := ht
  obtain ⟨b, hb⟩ := Ring.get_ok (.inl hw) p
  cases he : c.weakEnabled with
  | false => exact .inr ⟨by simp [Claims.drawsAt, he], b, hb, by simp [Codec.readBit, he, hb, Except.map]⟩
  | true =>
    obtain ⟨v, hv⟩ := Ring.get_ok (hweak he) p
    cases v with
    | true => exact .inl ⟨by simp [Claims.drawsAt, he, hv], by simp [Codec.readBit, he, hv]⟩
    | false =>
      exact .inr ⟨by simp [Claims.drawsAt, he, hv], b, hb, by simp [Codec.readBit, he, hv, hb, Except.map]⟩

theorem Codec.readBits_cons {c : Codec} {p d d' d'' : Nat} {ps : List Nat} {b : Bit} {bs : List Bit}
    (hb : c.readBit p d = .ok (b, d')) (hbs : c.readBits ps d' = .ok (bs, d'')) :
    c.readBits (p :: ps) d = .ok (b :: bs, d'') := by
  simp [Codec.readBits, hb, hbs]

/-- Settles O33: by induction on the positions, the draws before a position being those of the weak ones before it. -/
theorem weakPositionsDrawAfresh : Obligations.WeakPositionsDrawAfresh := by
  intro c ps d ht
  induction ps generalizing d with
  | nil => exact ⟨[], rfl, rfl, fun k hk => absurd hk (Nat.not_lt_zero k)⟩
  | cons p ps ih =>
    rcases Codec.readBit_of_trackReadable ht p d with ⟨hp, hb⟩ | ⟨hp, b, hget, hb⟩
    · obtain ⟨bs, hbs, hlen, hbit⟩ := ih (d + 1)
      refine ⟨Config.weakDraw d :: bs, ?_, by simp [hlen], fun k hk => ?_⟩
      · rw [Codec.readBits_cons hb hbs]
        simp [hp, Nat.add_assoc, Nat.add_comm 1]
      · cases k with
        | zero => simp [hp]
        | succ k => simpa [hp, Nat.add_assoc, Nat.add_comm 1] using hbit k (by simpa using hk)
    · obtain ⟨bs, hbs, hlen, hbit⟩ := ih d
      refine ⟨b :: bs, ?_, by simp [hlen], fun k hk => ?_⟩
      · rw [Codec.readBits_cons hb hbs]
        simp [hp]
      · cases k with
        | zero => simp [hp, hget]
        | succ k => simpa [hp] using hbit k (by simpa using hk)

/-- The reads of `n` positions, and the stored bits they are where no position draws. -/
theorem Codec.readBits_positions {c : Codec} (ht : Claims.TrackReadable c) (pos : Nat → Nat) (n d : Nat) :
    ∃ bs d', c.readBits ((List.range n).map pos) d = .ok (bs, d') ∧ bs.length = n ∧
      ((∀ k, k < n → Claims.drawsAt c (pos k) = false) →
        d' = d ∧ ∀ k, k < n → c.bits.get (pos k) = .ok (bs.getD k false)) := by
  obtain ⟨bs, hbs, hlen, hbit⟩ := weakPositionsDrawAfresh c ((List.range n).map pos) d ht
  have hpos {k : Nat} (hk : k < n) : ((List.range n).map pos).getD k 0 = pos k := by
    simp [List.getD_eq_getElem?_getD, hk]
  refine ⟨bs, _, hbs, by simpa using hlen, fun hno => ⟨?_, fun k hk => ?_⟩⟩
  · simpa using hno
  · have hk' := hbit k (by simpa using hk)
    rwa [hpos hk, hno k hk, if_neg Bool.false_ne_true] at hk'

theorem drawsAt_of_disabled {c : Codec} (h : c.weakEnabled = false) (p : Nat) :
    Claims.drawsAt c p = false := by simp [Claims.drawsAt, h]

/-- The reads of `n` positions, and the stored bits they are with substitution disabled. -/
theorem Codec.readBits_positions_stored {c : Codec} (ht : Claims.TrackReadable c) (pos : Nat → Nat) (n d : Nat) :
    ∃ bs d', c.readBits ((List.range n).map pos) d = .ok (bs, d') ∧ bs.length = n ∧
      (c.weakEnabled = false → d' = d ∧ bs.length = n ∧
        ∀ k, k < n → c.bits.get (pos k) = .ok (bs.getD k false)) := by
  obtain ⟨bs, d', hr, hl, hstored⟩ := Codec.readBits_positions ht pos n d
  refine ⟨bs, d', hr, hl, fun he => ?_⟩
  obtain ⟨hd, hget⟩ := hstored fun _ _ => drawsAt_of_disabled he _
  exact ⟨hd, hl, hget⟩

/-- A position whose bit of the weak mask is 0 draws nothing. -/
theorem drawsAt_of_weak_zero {c : Codec} {p : Nat} (h : c.weak.get p = .ok false) :
    Claims.drawsAt c p = false := by simp [Claims.drawsAt, h]

/-- Eight reads a byte fill `n` bytes. -/
theorem bitsToBytes_spec {bs : List Bit} {n : Nat} (hl : bs.length = 8 * n) :
    (bitsToBytes bs).length = n ∧
      ∀ j k, j < n → k < 8 → ((bitsToBytes bs).getD j 0).getMsbD k = bs.getD (8 * j + k) false := by
  have hlen : (bitsToBytes bs).length = n := by rw [bitsToBytes_length]; omega
  exact ⟨hlen, fun j k hj hk => getMsbD_bitsToBytes bs (by omega) hk⟩

/-! ### The commands -/

section
variable {s : State} (h : s.running) {a : U64} (ha : s.args.a0 = some a) (hw : s.codec.bits.wrap ≠ 0)
  {bs : List Bit} {d : Nat}
include h ha hw

theorem exec_readRawU8 (hp : a.toNat + 8 ≤ 2 ^ 64)
    (hr : s.codec.readBits (rawPositions a.toNat 8) s.draws = .ok (bs, d)) :
    exec .readRawU8 s = okWith (s.withDraws d) { y0 := some (u64 (packMsb bs)) } :=
  command_completes h (State.argNat_ok (a := .a0) ha) (accessChecks_orFault_ok hw hp hr _)

theorem exec_readRawU32 (hp : a.toNat + 32 ≤ 2 ^ 64)
    (hr : s.codec.readBits (rawPositions a.toNat 32) s.draws = .ok (bs, d)) :
    exec .readRawU32 s = okWith (s.withDraws d) { y0 := some (u64 (packMsb bs)) } :=
  command_completes h (State.argNat_ok (a := .a0) ha) (accessChecks_orFault_ok hw hp hr _)

theorem exec_readRawBuf {n : U64} (hn : s.args.a1 = some n) (hp : a.toNat + 8 * n.toNat ≤ 2 ^ 64)
    (hr : s.codec.readBits (rawPositions a.toNat (8 * n.toNat)) s.draws = .ok (bs, d)) :
    exec .readRawBuf s = okWith (s.withDraws d) { ob0 := some (.bytes (bitsToBytes bs)) } :=
  command_completes₂ h (State.argNat_ok (a := .a0) ha) (State.argNat_ok (a := .a1) hn)
    (accessChecks_orFault_ok hw hp hr _)

omit h ha in
/-- A decoded read whose clock can be asked: the data bits of the pairs from the nudged offset, which goes to `Y1`. -/
theorem decodedRead_ok (hc : Claims.Readable s.codec.clock) {off w : Nat} (hp : off + 2 * w + 1 ≤ 2 ^ 64)
    (hr : s.codec.readBits (dataPositions (Claims.nudged s.codec off) w) s.draws = .ok (bs, d)) :
    decodedRead s off w = .ok (s.withDraws d)
      { y0 := some (u64 (packMsb bs)), y1 := some (u64 (Claims.nudged s.codec off)) } := by
  rw [decodedRead, accessChecks_orFault_ok hw hp (Codec.align_eq_nudged hc off), hr, orFault_ok]

theorem exec_readDecodedU8 (hc : Claims.Readable s.codec.clock) (hp : a.toNat + 16 < 2 ^ 64)
    (hr : s.codec.readBits (dataPositions (Claims.nudged s.codec a.toNat) 8) s.draws = .ok (bs, d)) :
    exec .readDecodedU8 s = okWith (s.withDraws d)
      { y0 := some (u64 (packMsb bs)), y1 := some (u64 (Claims.nudged s.codec a.toNat)) } :=
  command_completes h (State.argNat_ok (a := .a0) ha) (decodedRead_ok hw hc (by omega) hr)

theorem exec_readDecodedU32 (hc : Claims.Readable s.codec.clock) (hp : a.toNat + 64 < 2 ^ 64)
    (hr : s.codec.readBits (dataPositions (Claims.nudged s.codec a.toNat) 32) s.draws = .ok (bs, d)) :
    exec .readDecodedU32 s = okWith (s.withDraws d)
      { y0 := some (u64 (packMsb bs)), y1 := some (u64 (Claims.nudged s.codec a.toNat)) } :=
  command_completes h (State.argNat_ok (a := .a0) ha) (decodedRead_ok hw hc (by omega) hr)

theorem exec_streamRead {ps : List Nat} {o : Nat}
    (hs : s.codec.streamStarts a.toNat s.codec.bitCursor.toNat = .ok (ps, o))
    (hr : s.codec.readBits (ps.flatMap (fun p => dataPositions p 8)) s.draws = .ok (bs, d)) :
    exec .streamRead s = okWith ({ s with codec := { s.codec with bitCursor := u64 o } }.withDraws d)
      { ob0 := some (.bytes (bitsToBytes bs)) } :=
  command_completes h (State.argNat_ok (a := .a0) ha) (by rw [if_neg hw, hs, orFault_ok]; dsimp only; rw [hr, orFault_ok])

end

/-! ### The statements -/

/-- Settles O34: the reads of consecutive positions, eight to a byte in a buffer. -/
theorem rawReadResults : Obligations.RawReadResults := by
  intro s off h ha ht
  have hw := ht.1
  have hreads (n : Nat) := Codec.readBits_positions_stored ht (fun k => off.toNat + k) n s.draws
  refine ⟨encodedAs_of_fields rfl, encodedAs_of_fields rfl, encodedAs_of_fields rfl, fun hp => ?u8,
    fun hp => ?u32, fun n hn hp => ?buf⟩
  case u8 =>
    obtain ⟨bs, d, hr, -, hstored⟩ := hreads 8
    exact ⟨bs, d, hr, exec_readRawU8 h ha hw (by omega) hr, hstored⟩
  case u32 =>
    obtain ⟨bs, d, hr, -, hstored⟩ := hreads 32
    exact ⟨bs, d, hr, exec_readRawU32 h ha hw (by omega) hr, hstored⟩
  case buf =>
    obtain ⟨bs, d, hr, hl, hstored⟩ := hreads (8 * n.toNat)
    obtain ⟨hout, hbit⟩ := bitsToBytes_spec hl
    refine ⟨bs, d, bitsToBytes bs, hr, exec_readRawBuf h ha hw hn hp hr, hout, hbit, fun he => ?_⟩
    obtain ⟨hd, -, hget⟩ := hstored he
    exact ⟨hd, hget⟩

/-- Settles O36: the data bits of the pairs from the nudged offset. -/
theorem decodedReadResults : Obligations.DecodedReadResults := by
  intro s off h ha ht hc
  have hw := ht.1
  have hreads (n : Nat) :=
    Codec.readBits_positions_stored ht (fun k => Claims.nudged s.codec off.toNat + 1 + 2 * k) n s.draws
  refine ⟨encodedAs_of_fields rfl, encodedAs_of_fields rfl, fun hp => ?u8, fun hp => ?u32⟩
  case u8 =>
    obtain ⟨bs, d, hr, -, hstored⟩ := hreads 8
    exact ⟨bs, d, hr, exec_readDecodedU8 h ha hw hc hp hr, hstored⟩
  case u32 =>
    obtain ⟨bs, d, hr, -, hstored⟩ := hreads 32
    exact ⟨bs, d, hr, exec_readDecodedU32 h ha hw hc hp hr, hstored⟩

/-- Settles O38: the starts are the nudged cursors, each byte eight data bits from its own. -/
theorem streamReadResult : Obligations.StreamReadResult := by
  intro s n c h ha ht hc h0 hk
  have hw := ht.1
  refine ⟨encodedAs_of_fields rfl, fun hlow => ?low, fun hpast => ?past⟩
  case low =>
    have hstarts := Codec.streamStarts_low hc hk hlow
    rw [h0] at hstarts
    obtain ⟨bs, hr, hl, -⟩ := weakPositionsDrawAfresh s.codec ((List.range n.toNat).flatMap (fun k =>
      (List.range 8).map (fun l => Claims.nudged s.codec (c k) + 1 + 2 * l))) s.draws ht
    obtain ⟨hout, hbit⟩ := bitsToBytes_spec (bs := bs) (n := n.toNat) (by simpa [Nat.mul_comm] using hl)
    refine ⟨bs, _, bitsToBytes bs, hr, exec_streamRead h ha hw hstarts ?_, hout, hbit⟩
    rw [List.flatMap_map]
    exact hr
  case past =>
    exact exec_streamRead_of_starts_error h ha hw (h0 ▸ Codec.streamStarts_overflow hc hk hpast)

/-! ### `SEEK` (42_codec_access.md R182) -/

section
variable {s : State} (h : s.running) {v : U64} (ha : s.args.a0 = some v) (w : Whence)
include h ha

theorem exec_seek_of_empty (hw : s.codec.bits.wrap = 0) :
    exec (.seek w) s = .next (s.complete codeInvalidInput {}) :=
  command_rejects h (State.arg_ok (a := .a0) ha) (if_pos hw)

/-- A target that is an index becomes the stream cursor. -/
theorem exec_seek_inside (hw : s.codec.bits.wrap ≠ 0) {new : Nat} (ht : seekTarget s.codec w v = new)
    (hn : new < 2 ^ 64) :
    exec (.seek w) s =
      okWith { s with codec := { s.codec with bitCursor := u64 new } } { y0 := some (u64 new) } := by
  have hm : Config.maxIndex = 2 ^ 64 - 1 := rfl
  refine command_completes h (State.arg_ok (a := .a0) ha) ?_
  rw [if_neg hw, ht, if_neg (by omega), Int.toNat_natCast]

theorem exec_seek_outside (hw : s.codec.bits.wrap ≠ 0)
    (ht : seekTarget s.codec w v < 0 ∨ 2 ^ 64 ≤ seekTarget s.codec w v) :
    exec (.seek w) s = .next (s.complete codeInvalidInput {}) := by
  have hm : Config.maxIndex = 2 ^ 64 - 1 := rfl
  refine command_rejects h (State.arg_ok (a := .a0) ha) ?_
  rw [if_neg hw, if_pos (by omega)]

end

theorem u64_toNat {w : Nat} (x : BitVec w) : u64 x.toNat = x.setWidth 64 := BitVec.ofNat_toNat 64 x

/-- Settles O39: each origin by its target. -/
theorem seekResult : Obligations.SeekResult := by
  intro s v h ha
  refine ⟨encodedAs_of_fields rfl, encodedAs_of_fields rfl, encodedAs_of_fields rfl,
    fun hw w => exec_seek_of_empty h ha w hw, fun hw => ⟨?start, fun w base horigin => ?signed⟩⟩
  case start =>
    simpa only [u64_toNat, BitVec.setWidth_eq] using exec_seek_inside h ha .fromStart hw rfl v.isLt
  case signed =>
    have htarget : seekTarget s.codec w v = base + v.toInt := by
      rcases horigin with ⟨rfl, rfl⟩ | ⟨rfl, rfl⟩ <;> rfl
    exact ⟨fun new hnew hlt => exec_seek_inside h ha w hw (htarget.trans hnew.symm) hlt,
      fun hout => exec_seek_outside h ha w hw (by rwa [htarget])⟩

/-! ### Decoding of what was encoded (42_codec_access.md R178) -/

/-- The bits of a word, most significant first, pack to the word. -/
theorem packMsb_of_getMsbD {w : Nat} (x : BitVec w) {bs : List Bit} (hl : bs.length = w)
    (hbit : ∀ k, k < w → bs.getD k false = x.getMsbD k) : packMsb bs = x.toNat := by
  refine Nat.eq_of_testBit_eq fun i => ?_
  rcases Nat.lt_or_ge i w with hi | hi
  · have hi' : bs.length - 1 - (w - 1 - i) = i := by omega
    rw [← hi', testBit_packMsb bs (by omega), hbit _ (by omega), hi', BitVec.getMsbD]
    simp only [BitVec.testBit_toNat]
    rw [decide_eq_true (by omega), Bool.true_and]
    congr 1
    omega
  · rw [Nat.testBit_lt_two_pow ((packMsb_lt bs).trans_le (hl ▸ Nat.pow_le_pow_right (by omega) hi)),
      BitVec.testBit_toNat, BitVec.getLsbD_of_ge x i hi]

/-- The data bit of pair `k` of byte `j` of an encoded byte sequence. -/
theorem getD_mfmEncode_bytes (b : List Byte) (prev : Bit) (v : Variant) {j k : Nat} (hj : j < b.length)
    (hk : k < 8) : (mfmEncode (bytesToBits b) prev v).getD (16 * j + 1 + 2 * k) false = (b.getD j 0).getMsbD k := by
  have hpos : 16 * j + 1 + 2 * k = 2 * (8 * j + k) + 1 := by omega
  rw [hpos, mfmEncode, mfmEncodeFrom_data _ _ _ _ _ (by rw [bytesToBits_length]; omega), getD_bytesToBits b hk]

theorem nudged_of_clock {c : Codec} {o : Nat} (h : c.clock.get o = .ok true) : Claims.nudged c o = o := by
  simp [Claims.nudged, h]

/-- A byte of an encoded track is read back at its first position, when the clock map is 1 there and no position of the track draws. -/
theorem exec_readDecodedU8_encoded {s : State} (h : s.running) {b : List Byte} {prev : Bit} {v : Variant}
    (hbits : s.codec.bits = Ring.fromBits (mfmEncode (bytesToBits b) prev v)) {j : Nat} (hj : j < b.length)
    (hsize : 16 * b.length < 2 ^ 64) (hclock : s.codec.clock.get (16 * j) = .ok true)
    (hc : Claims.Readable s.codec.clock) (ht : Claims.TrackReadable s.codec)
    (hdraws : ∀ p, p < 16 * b.length → Claims.drawsAt s.codec p = false)
    (ha : s.args.a0 = some (u64 (16 * j))) :
    exec .readDecodedU8 s = okWith s
      { y0 := some ((b.getD j 0).setWidth 64), y1 := some (u64 (16 * j)) } := by
  have hwrap : s.codec.bits.wrap = 16 * b.length := by
    rw [hbits, Ring.fromBits_wrap, mfmEncode_length, bytesToBits_length]; omega
  have hoff : (u64 (16 * j)).toNat = 16 * j := Nat.mod_eq_of_lt (by omega)
  have hnudged : Claims.nudged s.codec (u64 (16 * j)).toNat = 16 * j := by
    rw [hoff, nudged_of_clock hclock]
  obtain ⟨bs, d, hr, hl, hstored⟩ := Codec.readBits_positions ht (fun k => 16 * j + 1 + 2 * k) 8 s.draws
  obtain ⟨rfl, hget⟩ := hstored fun k hk => hdraws _ (by omega)
  have hbyte : packMsb bs = (b.getD j 0).toNat := by
    refine packMsb_of_getMsbD _ hl fun k hk => ?_
    have hk' := hget k hk
    rw [Ring.get_below (by omega), hbits, Ring.stored, Ring.fromBits_bits,
      getD_mfmEncode_bytes b prev v hj hk] at hk'
    exact (Except.ok.inj hk').symm
  rw [exec_readDecodedU8 h ha ht.1 hc (by omega) (hnudged.symm ▸ hr), hnudged, hbyte, u64_toNat]
  rfl

/-- Settles O37: the clock map is 1 at the byte's first position, and a weak mask that is disabled or zero draws nothing. -/
theorem decodeOfEncodedBytes : Obligations.DecodeOfEncodedBytes := by
  intro s b prev m we j h hj hsize _ hs hweak ha
  have hlen : (mfmEncode (bytesToBits b) prev .data).length = 16 * b.length := by
    rw [mfmEncode_length, bytesToBits_length]; omega
  have hbits : s.codec.bits = Ring.fromBits (mfmEncode (bytesToBits b) prev .data) := by rw [hs]; rfl
  have hwrap : s.codec.bits.wrap ≠ 0 := by rw [hbits, Ring.fromBits_wrap, hlen]; omega
  have hclockWrap : s.codec.clock.wrap = 16 * b.length := by
    rw [hs]; exact (phaseMap_length _ _).trans hlen
  have hclockBits : s.codec.clock.bits = (List.range (16 * b.length)).map (fun i => i % 2 == 0) := by rw [hs]
  have hclock : s.codec.clock.get (16 * j) = .ok true := by
    have hin : 16 * j < 16 * b.length := by omega
    rw [Ring.get_below (hclockWrap ▸ hin), Ring.stored, hclockBits, List.getD_eq_getElem?_getD]
    simp [hin]
    omega
  have hc : Claims.Readable s.codec.clock := .inl (by omega)
  have hweakWrap : s.codec.weak.wrap = s.codec.weak.bits.length := by rw [hs]; rfl
  refine exec_readDecodedU8_encoded h hbits hj hsize hclock hc ?_ ?_ ha
  all_goals rcases hweak with rfl | hz
  · exact ⟨hwrap, fun he => by rw [hs] at he; cases he⟩
  · exact ⟨hwrap, fun _ => .inl (by rw [hweakWrap, hz, List.length_replicate]; omega)⟩
  · exact fun p _ => drawsAt_of_disabled (by rw [hs]) p
  · refine fun p hp => drawsAt_of_weak_zero ?_
    rw [Ring.get_below (by rw [hweakWrap, hz, List.length_replicate]; exact hp), Ring.stored, hz]
    simp [List.getD_eq_getElem?_getD, hp]

end Sys2Proof.Machine
end

section
/-! SUPPORT. Writes of runs of bits, said once by the bits they leave stored, and the two write commands (20_memory.md R76; 42_codec_access.md R185, R186). -/

namespace Sys2Proof.Machine

theorem Ring.setMany_cons {r : Ring} (hw : r.wrap ≠ 0) (b : Bit) (bs : List Bit) (i : Nat) :
    r.setMany (b :: bs) i = Ring.setMany { r with bits := r.bits.set (i % r.wrap) b } bs (i + 1) := by
  rw [Ring.setMany, Ring.set_of_wrap hw]

/-- One write, then a run of writes from the next index. -/
theorem storedInOrder_cons {r r' : Ring} {i : Nat} {b : Bit} {bs : List Bit}
    (hfold : i % r.wrap < r.bits.length)
    (h : Claims.StoredInOrder { r with bits := r.bits.set (i % r.wrap) b } r' (i + 1) bs) :
    Claims.StoredInOrder r r' i (b :: bs) := by
  obtain ⟨hwrap, hvalue, hcursor, hlen, hlast, hkeep⟩ := h
  have hfirst (j : Nat) : Ring.stored { r with bits := r.bits.set (i % r.wrap) b } j =
      if j = i % r.wrap then b else r.stored j := getD_set _ _ _ _ hfold
  have hshift (k : Nat) : i + 1 + k = i + (k + 1) := by omega
  refine ⟨hwrap, hvalue, hcursor, by simpa using hlen, fun j k hk hj hlater => ?_, fun j hmiss => ?_⟩
  · cases k with
    | zero =>
      have hmiss (k : Nat) (hk : k < bs.length) : (i + 1 + k) % r.wrap ≠ j :=
        hshift k ▸ hlater (k + 1) (by omega) (by simpa using hk)
      exact (hkeep j hmiss).trans ((hfirst j).trans (if_pos hj.symm))
    | succ k =>
      exact hlast j k (by simpa using hk) (hshift k ▸ hj) fun k' hk' hlt =>
        hshift k' ▸ hlater (k' + 1) (by omega) (by simpa using hlt)
  · have hmiss' (k : Nat) (hk : k < bs.length) : (i + 1 + k) % r.wrap ≠ j :=
      hshift k ▸ hmiss (k + 1) (by simpa using hk)
    exact (hkeep j hmiss').trans ((hfirst j).trans (if_neg fun hj => hmiss 0 (by simp) hj.symm))

/-- A run of writes leaves, at each folded index it hits, the last bit written there, and keeps every other stored bit (20_memory.md R76). -/
theorem Ring.setMany_storedInOrder {r r' : Ring} {e : List Bit} {i : Nat} (hw : r.wrap ≠ 0)
    (hin : r.wrap ≤ r.bits.length) (h : r.setMany e i = .ok r') : Claims.StoredInOrder r r' i e := by
  induction e generalizing r i with
  | nil => cases h; exact ⟨rfl, rfl, rfl, rfl, fun _ _ hk => absurd hk (Nat.not_lt_zero _), fun _ _ => rfl⟩
  | cons b bs ih =>
    rw [Ring.setMany_cons hw] at h
    have hfold : i % r.wrap < r.bits.length := (Nat.mod_lt i (Nat.pos_of_ne_zero hw)).trans_le hin
    exact storedInOrder_cons hfold (ih hw (by simpa using hin) h)

section
variable {s : State} (h : s.running) {off : U64} {b : List Byte} (ha : s.args.a0 = some off)
  (hb : s.ib0 = some (.bytes b)) (hw : s.codec.bits.wrap ≠ 0) {r : Ring}
include h ha hb hw

theorem exec_writeRawBuf (hp : off.toNat + 8 * b.length ≤ 2 ^ 64)
    (hr : s.codec.bits.setMany (bytesToBits b) off.toNat = .ok r) :
    exec .writeRawBuf s = okWith { s with codec := { s.codec with bits := r } }
      { y0 := some (u64 b.length) } :=
  command_completes₂ h (State.argNat_ok (a := .a0) ha) (State.bufBytes_ok (b := .ib0) hb)
    (accessChecks_orFault_ok hw hp hr _)

theorem exec_writeEncodedBuf {v : Variant} {prev : Bit} (hp : off.toNat + 16 * b.length ≤ 2 ^ 64)
    (hprev : s.codec.bits.get (prevIndex s.codec off.toNat) = .ok prev)
    (hr : s.codec.bits.setMany (mfmEncode (bytesToBits b) prev v) off.toNat = .ok r) :
    exec (.writeEncodedBuf v) s = okWith { s with codec := { s.codec with bits := r } }
      { y0 := some (u64 b.length) } :=
  command_completes₂ h (State.argNat_ok (a := .a0) ha) (State.bufBytes_ok (b := .ib0) hb)
    (by rw [accessChecks_orFault_ok hw hp hprev, hr, orFault_ok])

end

/-- A run of writes to the track of a well-formed codec. -/
theorem setMany_track {c : Codec} (hwf : c.wf = true) (hw : c.bits.wrap ≠ 0) (e : List Bit) (i : Nat) :
    ∃ r, c.bits.setMany e i = .ok r ∧ Claims.StoredInOrder c.bits r i e := by
  obtain ⟨hlen, hwrap⟩ := Ring.wf_iff.mp (Codec.wf_ring hwf .bits)
  obtain ⟨r, hr⟩ := Ring.setMany_of_wrap hw e i
  exact ⟨r, hr, Ring.setMany_storedInOrder hw (hlen.symm ▸ hwrap) hr⟩

/-- Settles O41: a run of writes of the bytes' bits. -/
theorem writeRawResult : Obligations.WriteRawResult := by
  intro s off b h hwf ha hb hw hp
  obtain ⟨r, hr, hstored⟩ := setMany_track hwf hw (bytesToBits b) off.toNat
  exact ⟨encodedAs_of_fields rfl, r, exec_writeRawBuf h ha hb hw hp hr, hstored⟩

/-- The raw bit before a write is at the index before it, and at the last of the revolution before index 0. -/
theorem prevIndex_toNat (c : Codec) (off : U64) :
    prevIndex c off.toNat = if off = 0 then c.bits.wrap - 1 else off.toNat - 1 := by
  by_cases h : off = 0
  · subst h; rfl
  · have hpos : 0 < off.toNat := Nat.pos_of_ne_zero (by simpa [BitVec.toNat_eq] using h)
    rw [prevIndex, if_pos hpos, if_neg h]

/-- Settles O42: a run of writes of the encoding, after the raw bit the statement names. -/
theorem writeEncodedResult : Obligations.WriteEncodedResult := by
  intro s v off b prev h hwf ha hb hw hp hprev
  rw [← prevIndex_toNat] at hprev
  obtain ⟨r, hr, hstored⟩ := setMany_track hwf hw (mfmEncode (bytesToBits b) prev v) off.toNat
  exact ⟨encodedAs_of_fields rfl, r, exec_writeEncodedBuf h ha hb hw hp hprev hr, hstored⟩

end Sys2Proof.Machine
end

section
/-! SUPPORT. Construction and configuration of the codec, its maps and its data ranges (42_codec_access.md R160 to R164, R190 to R196). -/

namespace Sys2Proof.Machine

/-- A command with one operand faults as its ending says. -/
theorem command_faults {α : Type} {s : State} (h : s.running) {x : Except Refusal α} {a : α}
    (hx : x = .ok a) {k : α → Ending} {c : FaultCode} (hk : k a = .fault c) :
    command s (x >>= fun u => .ok (k u)) = faultWith s c := by
  rw [command_of_operand h hx, hk, conclude_fault]

/-! ### Construction (42_codec_access.md R160) -/

/-- An optional register, when it holds what is given. -/
theorem State.argNatIf_of_given {s : State} {a : ArgReg} {v : Option U64}
    (h : ∀ x, v = some x → s.args.get a = some x) : s.argNatIf v.isSome a = .ok (v.map BitVec.toNat) := by
  cases v with
  | none => rfl
  | some x => exact State.argNatIf_ok (h x rfl)

/-- An optional buffer of bits, when it holds what is given. -/
theorem State.bufBitsIf_of_given {s : State} {b : InBuf} {m : Option (List Bit)}
    (h : ∀ l, m = some l → s.inBuf b = some (.bits l)) : s.bufBitsIf m.isSome b = .ok m := by
  cases m with
  | none => rfl
  | some l => exact State.bufBitsIf_ok (h l rfl)

theorem exec_codecNew {s : State} (h : s.running) {x : List Bit} (hx : s.ib0 = some (.bits x))
    {cnt : Option U64} (hcnt : ∀ v, cnt = some v → s.args.a0 = some v) {m : Option (List Bit)}
    (hm : ∀ l, m = some l → s.ib1 = some (.bits l)) :
    exec (.codecNew cnt.isSome m.isSome) s = .next (conclude s
      (if badMask m x.length then .fault .weakMaskLength
      else .ok { s with codec := Codec.build (x.take (truncLength (cnt.map BitVec.toNat) x.length))
                          (m.map (List.take (truncLength (cnt.map BitVec.toNat) x.length))) } {})) := by
  refine (congrArg (command s) (bind_of_ok (State.bufBits_ok (b := .ib0) hx) _)).trans ?_
  rw [bind_of_ok (State.argNatIf_of_given (a := .a0) hcnt),
    command_of_operand h (State.bufBitsIf_of_given (b := .ib1) hm)]

theorem badMask_eq_true_iff {m : Option (List Bit)} {n : Nat} :
    badMask m n = true ↔ ∃ l, m = some l ∧ l.length ≠ n := by
  cases m <;> simp [badMask]

/-- The codec that construction gives, written out, when the mask given has the length of the bits. -/
theorem Codec.build_eq {x : List Bit} {m : Option (List Bit)} (hm : ∀ l, m = some l → l.length = x.length) :
    Codec.build x m =
      { bits := ⟨x, x.length, none, 0⟩
        clock := ⟨phaseMap (syncPhase (syncScan (Ring.fromBits x) 0)) x.length, x.length, some false, 0⟩
        error := ⟨zeroRunMask ⟨x, x.length, none, 0⟩ 3, x.length, none, 0⟩
        weak := ⟨m.getD (zeroRunMask ⟨x, x.length, none, 0⟩ 6), x.length, none, 0⟩
        weakEnabled := true, initialPhase := syncPhase (syncScan (Ring.fromBits x) 0), bitCursor := 0
        dataRanges := [], dataRangesFiltered := [] } := by
  have hmask (thr : Nat) : (zeroRunMask ⟨x, x.length, none, 0⟩ thr).length = x.length :=
    zeroRunMask_length le_rfl thr
  have hweak : (m.getD (zeroRunMask ⟨x, x.length, none, 0⟩ 6)).length = x.length := by
    cases m with
    | none => exact hmask 6
    | some l => exact hm l rfl
  simp [Codec.build, Ring.fromBits, Ring.setWrapValue, Config.errorRun, Config.weakBitRun, phaseMap_length,
    hmask, hweak]

theorem getD_phaseMap (q : Bit) {n i : Nat} (h : i < n) : (phaseMap q n).getD i false = ((i % 2 == 1) == q) := by
  simp [phaseMap, List.getD_eq_getElem?_getD, h]

/-- Settles O29: the codec of `Codec.build_eq`, on the bits and the mask cut to `n`. -/
theorem codecNewResult : Obligations.CodecNewResult := by
  intro s x cnt m n q h hx hcnt hm hn hq
  have htrunc : truncLength (cnt.map BitVec.toNat) x.length = n := by
    rw [hn]
    cases cnt <;> simp [truncLength]
  have hphase : syncPhase (syncScan (Ring.fromBits (x.take n)) 0) = q := hq.symm
  have hlen : (x.take n).length = n := List.length_take_of_le (by rw [← htrunc]; exact min_le_right _ _)
  have hexec := exec_codecNew h hx hcnt hm
  rw [htrunc] at hexec
  refine ⟨encodedAs_of_fields rfl, fun hbad => ?mask, fun hgood => ?built⟩
  case mask => rw [hexec, if_pos (badMask_eq_true_iff.mpr hbad), conclude_fault]
  case built =>
    have hno : ¬ badMask m x.length = true := fun hbad => by
      obtain ⟨l, hl, hne⟩ := badMask_eq_true_iff.mp hbad
      exact hne (hgood l hl)
    have hcut : ∀ l, m.map (List.take n) = some l → l.length = (x.take n).length := by
      cases m with
      | none => exact fun _ hl => nomatch hl
      | some l => rintro _ ⟨⟩; rw [List.length_take, List.length_take, hgood l rfl]
    refine ⟨phaseMap q n, ?_, phaseMap_length q n, fun i => getD_phaseMap q⟩
    rw [hexec, if_neg hno, conclude_ok, Codec.build_eq hcut, hlen, hphase]
    cases m <;> rfl

/-! ### Configuration (42_codec_access.md R162 to R164) -/

/-- Settles O31: the three commands by their endings. -/
theorem codecConfigurationCommands : Obligations.CodecConfigurationCommands := by
  refine fun s h => ⟨encodedAs_of_fields rfl, encodedAs_of_fields rfl, encodedAs_of_fields rfl,
    fun c hc => ?clock, fun len ha => ?trackLen, fun v ha => ?weakEnabled⟩
  case clock =>
    have hx := State.bufBits_ok (b := .ib0) hc
    split
    · next hl => exact command_completes h hx (if_neg (not_not_intro hl))
    · next hl => exact command_faults h hx (if_pos hl)
  case trackLen => exact command_completes h (State.argNat_ok (a := .a0) ha) rfl
  case weakEnabled => exact command_completes h (State.argBit_ok (a := .a0) ha) rfl

/-! ### The maps a host reads out (42_codec_access.md R190 to R192) -/

/-- Settles O43: the stored bits themselves, and the bytes they pack to. -/
theorem mapExports : Obligations.MapExports := fun s h =>
  ⟨encodedAs_of_fields rfl, encodedAs_of_fields rfl, encodedAs_of_fields rfl, command_ok h _, command_ok h _,
    bitsToBytes s.codec.weak.bits, command_ok h _, bitsToBytes_length _, fun _ _ => getMsbD_bitsToBytes _⟩

/-! ### Data ranges (42_codec_access.md R194, R196) -/

theorem any_badRange_iff {rs : List (U64 × U64)} :
    rs.any badRange = true ↔ ∃ r ∈ rs, r.2.toNat < r.1.toNat := by
  simp [List.any_eq_true, badRange]

theorem any_inRange_iff {rs : List (U64 × U64)} {i : U64} :
    rs.any (inRange i) = true ↔ ∃ r ∈ rs, r.1.toNat ≤ i.toNat ∧ i.toNat < r.2.toNat := by
  simp [List.any_eq_true, inRange]

theorem exec_isData {s : State} (h : s.running) {i : U64} (ha : s.args.a0 = some i) (w : Bool) {v : Bit}
    (hv : (s.codec.rangesFor w).any (inRange i) = v) :
    exec (.isData w) s = okWith s { y0 := some (bitWord v) } :=
  command_completes h (State.arg_ok (a := .a0) ha) (by rw [hv])

/-- Settles O44: one range that starts after its end is enough to fault, and one that holds the index to answer 1. -/
theorem dataRangeCommands : Obligations.DataRangeCommands := by
  refine ⟨fun s rs h hrs => ⟨encodedAs_of_fields rfl, fun hbad => ?bad, fun hgood => ?good⟩,
    fun s w i h ha => ⟨encodedAs_of_fields rfl, encodedAs_of_fields rfl, fun hin => ?inside,
      fun hout => ?outside⟩⟩
  case bad =>
    exact command_faults h (State.bufRanges_ok (b := .ib0) hrs) (if_pos (any_badRange_iff.mpr hbad))
  case good =>
    refine command_completes h (State.bufRanges_ok (b := .ib0) hrs) (if_neg fun hbad => ?_)
    obtain ⟨r, hr, hlt⟩ := any_badRange_iff.mp hbad
    exact absurd hlt (Nat.not_lt.mpr (hgood r hr))
  case inside => exact exec_isData h ha w (any_inRange_iff.mpr hin)
  case outside =>
    refine exec_isData h ha w (Bool.eq_false_iff.mpr fun hin => ?_)
    obtain ⟨r, hr, hi⟩ := any_inRange_iff.mp hin
    exact hout r hr hi

end Sys2Proof.Machine
end

section
/-! SUPPORT. The register map (10_state.md R55) as `REG_READ` gives it (42_codec_access.md R199). -/

namespace Sys2Proof.Machine

section
variable {s : State} (h : s.running) {num : U64} (ha : s.args.a0 = some num)
include h ha

theorem exec_regRead_of_register {v : U64} (hv : regValue s num.toNat = some v) :
    exec .regRead s = okWith s { y0 := some v } :=
  (exec_regRead_running h).trans (command_completes h (State.argNat_ok (a := .a0) ha) (by rw [hv]))

theorem exec_regRead_of_reserved (hv : regValue s num.toNat = none) :
    exec .regRead s = faultWith s .illegalCommand :=
  (exec_regRead_running h).trans (command_a0_fault h ha (by rw [hv]))

end

/-- The reserved register numbers (10_state.md R55). -/
theorem regValue_reserved (s : State) {num : Nat} (h : num = 0x0F ∨ 0x19 < num) : regValue s num = none := by
  rcases h with rfl | h
  · rfl
  · unfold regValue
    split
    case h_26 => rfl
    all_goals omega

/-! ### The packed registers -/

theorem wrapBits_present (r : Ring) : (wrapBits r).getLsbD 0 = r.wrapValue.isSome := by
  unfold wrapBits
  rcases r.wrapValue with - | - | - <;> rfl

theorem wrapBits_value (r : Ring) : (wrapBits r).getLsbD 1 = r.wrapValue.getD false := by
  unfold wrapBits
  rcases r.wrapValue with - | - | - <;> rfl

/-- The two bits of a ring stand at twice its selector's code. -/
theorem getLsbD_wrapValuesReg (c : Codec) (sel : RingSel) {k : Nat} (hk : k < 2) :
    (wrapValuesReg c).getLsbD (2 * sel.code.toNat + k) = (wrapBits (c.ring sel)).getLsbD k := by
  obtain rfl | rfl : k = 0 ∨ k = 1 := by omega
  all_goals
    unfold wrapValuesReg
    simp only [BitVec.getLsbD_append]
    cases sel <;> simp [RingSel.code, Codec.ring]

theorem codecCtrlReg_weakEnabled (c : Codec) : (codecCtrlReg c).getLsbD 0 = c.weakEnabled := by
  unfold codecCtrlReg
  rw [BitVec.getLsbD_append]
  simp

theorem codecCtrlReg_initialPhase (c : Codec) : (codecCtrlReg c).getLsbD 1 = c.initialPhase := by
  unfold codecCtrlReg
  rw [BitVec.getLsbD_append]
  simp

/-- Widening to a register keeps a field's bits and pads with 0. -/
theorem getLsbD_setWidth_64 {w : Nat} (hw : w ≤ 64) (x : BitVec w) (k : Nat) :
    (x.setWidth 64).getLsbD k = x.getLsbD k := by
  rw [BitVec.getLsbD_setWidth]
  by_cases hk : k < 64
  · simp [hk]
  · simp [BitVec.getLsbD_of_ge x k (by omega)]

/-- Settles O45: a row of the map each, the two packed registers by their bits. -/
theorem registerMap : Obligations.RegisterMap := by
  refine fun s h => ⟨encodedAs_of_fields rfl, ?rows, fun ha => ?wrapValues, fun ha => ?codecCtrl,
    fun num ha hnum => ?reserved⟩
  case rows =>
    have row {num v : U64} (hv : regValue s num.toNat = some v) :
        s.args.a0 = some num → exec .regRead s = okWith s { y0 := some v } :=
      fun ha => exec_regRead_of_register h ha hv
    simp only [List.forall_mem_cons]
    exact ⟨row rfl, row rfl, row rfl, row rfl, row rfl, row rfl, row rfl, row rfl, row rfl, row rfl, row rfl,
      row rfl, row rfl, row rfl, row rfl, row rfl, row rfl, row rfl, row rfl, row rfl, row rfl, row rfl,
      row rfl, by simp⟩
  case wrapValues =>
    refine ⟨_, exec_regRead_of_register h ha rfl, fun k hk => ?_, fun sel => ?_⟩
    · rw [getLsbD_setWidth_64 (by omega), BitVec.getLsbD_of_ge _ _ hk]
    · rw [getLsbD_setWidth_64 (by omega), getLsbD_setWidth_64 (by omega),
        getLsbD_wrapValuesReg _ _ (by omega : 1 < 2), wrapBits_value]
      exact ⟨(getLsbD_wrapValuesReg _ sel (by omega : 0 < 2)).trans (wrapBits_present _), rfl⟩
  case codecCtrl =>
    refine ⟨_, exec_regRead_of_register h ha rfl, ?_, ?_, fun k hk => ?_⟩
    · rw [getLsbD_setWidth_64 (by omega), codecCtrlReg_weakEnabled]
    · rw [getLsbD_setWidth_64 (by omega), codecCtrlReg_initialPhase]
    · rw [getLsbD_setWidth_64 (by omega), BitVec.getLsbD_of_ge _ _ hk]
  case reserved =>
    exact exec_regRead_of_reserved h ha
      (regValue_reserved s (hnum.imp_left fun hn => by rw [hn]; rfl))

end Sys2Proof.Machine
end

section
/-! SUPPORT. The MFM encoder by its pairs: no two ones in a row, no four zeros in a row, and the clock an address mark clears (43_codec_analysis.md R211 to R213). -/

namespace Sys2Proof.Machine

theorem exec_encodeMfm {s : State} (h : s.running) (v : Variant) {p : U64} (ha : s.args.a0 = some p)
    {d : List Bit} (hd : s.ib0 = some (.bits d)) :
    exec (.encodeMfm v) s = okWith s { ob0 := some (.bits (mfmEncode d (p.getLsbD 0) v)) } :=
  command_completes₂ h (State.argBit_ok (a := .a0) ha) (State.bufBits_ok (b := .ib0) hd) rfl

section
variable (d : List Bit) (prev : Bit)

/-- The data bit of pair `i`. -/
theorem mfmEncode_data (v : Variant) {i : Nat} (h : i < d.length) :
    (mfmEncode d prev v).getD (2 * i + 1) false = d.getD i false :=
  mfmEncodeFrom_data v d prev 0 i h

/-- The clock of pair `i`, after the data bit before it, or `prev` in front of the first pair. -/
theorem mfmEncode_clock {i : Nat} (h : i < d.length) :
    (mfmEncode d prev .data).getD (2 * i) false =
      (!d.getD i false && !(if i = 0 then prev else d.getD (i - 1) false)) :=
  mfmEncodeFrom_clock d prev 0 i h

/-- The clock between two data bits is 1 exactly between two zeros. -/
theorem mfmEncode_clock_between {i : Nat} (h : i + 1 < d.length) :
    (mfmEncode d prev .data).getD (2 * i + 2) false = (!d.getD (i + 1) false && !d.getD i false) :=
  mfmEncode_clock d prev h

/-- Two bits in a row are a clock and a data bit next to it, and a clock next to a 1 is 0 (43_codec_analysis.md R212). -/
theorem mfmEncode_no_two_ones {i : Nat} (h : i + 1 < (mfmEncode d prev .data).length) :
    ¬ ((mfmEncode d prev .data).getD i false = true ∧ (mfmEncode d prev .data).getD (i + 1) false = true) := by
  rw [mfmEncode_length] at h
  rintro ⟨hfirst, hsecond⟩
  obtain ⟨j, rfl | rfl⟩ := Nat.even_or_odd' i
  · rw [mfmEncode_clock d prev (by omega)] at hfirst
    rw [mfmEncode_data d prev _ (by omega)] at hsecond
    rw [hsecond] at hfirst
    cases hfirst
  · rw [mfmEncode_data d prev _ (by omega)] at hfirst
    rw [mfmEncode_clock_between d prev (by omega), hfirst, Bool.not_true, Bool.and_false] at hsecond
    cases hsecond

/-- A clock between two data bits, or one of the two, is 1. -/
theorem mfmEncode_one_around_clock {i : Nat} (h : i + 1 < d.length) :
    ∃ k, k < 3 ∧ (mfmEncode d prev .data).getD (2 * i + 1 + k) false = true := by
  cases hleft : d.getD i false with
  | true => exact ⟨0, by omega, (mfmEncode_data d prev _ (by omega)).trans hleft⟩
  | false =>
    cases hright : d.getD (i + 1) false with
    | true => exact ⟨2, by omega, (mfmEncode_data d prev _ h).trans hright⟩
    | false => exact ⟨1, by omega, by rw [mfmEncode_clock_between d prev h, hleft, hright]; rfl⟩

/-- Four bits in a row hold a clock between two data bits (43_codec_analysis.md R212). -/
theorem mfmEncode_no_four_zeros {i : Nat} (h : i + 3 < (mfmEncode d prev .data).length) :
    ∃ k, k < 4 ∧ (mfmEncode d prev .data).getD (i + k) false = true := by
  rw [mfmEncode_length] at h
  obtain ⟨j, rfl | rfl⟩ := Nat.even_or_odd' i
  · obtain ⟨k, hk, hone⟩ := mfmEncode_one_around_clock d prev (i := j) (by omega)
    exact ⟨1 + k, by omega, by rwa [← Nat.add_assoc]⟩
  · obtain ⟨k, hk, hone⟩ := mfmEncode_one_around_clock d prev (i := j) (by omega)
    exact ⟨k, by omega, hone⟩

end

/-- Settles O46: the pairs of the `Data` encoding, and the two bounds on its runs. -/
theorem dataEncodingIsClockLegal : Obligations.DataEncodingIsClockLegal := fun _ p d h ha hd =>
  ⟨mfmEncode d (p.getLsbD 0) .data, exec_encodeMfm h .data ha hd, mfmEncode_length d _ _,
    fun _ hi => ⟨mfmEncode_data d _ _ hi, mfmEncode_clock d _ hi⟩,
    fun _ => mfmEncode_no_two_ones d _, fun _ => mfmEncode_no_four_zeros d _⟩

/-- Settles O47: a group of eight pairs starts at the first pair, so its fourth clock is raw bit 6 of each 16. -/
theorem addressMarkClearsOneClock : Obligations.AddressMarkClearsOneClock := by
  refine ⟨fun s v p d h ha hd => ⟨encodedAs_of_fields rfl, exec_encodeMfm h v ha hd⟩,
    fun d prev => ⟨?_, fun i => ?_⟩⟩
  · rw [mfmEncode_length, mfmEncode_length]
  · exact mfmEncodeFrom_addressMark d prev 0 (by omega) i

end Sys2Proof.Machine
end

section
/-! SUPPORT. The two searches: the register of a search is the window of stored bits behind it, and the search is the first index at which that window passes the test (43_codec_analysis.md R215, R220). -/

namespace Sys2Proof.Machine

/-! ### Windows and registers -/

/-- The `w` stored bits from `o` as a word, the first the most significant. -/
def Ring.window (r : Ring) (w o : Nat) : BitVec w :=
  BitVec.ofNat w (packMsb ((List.range w).map fun k => r.stored (o + k)))

theorem Ring.packMsb_stored {w : Nat} {r : Ring} {o : Nat} {x : BitVec w}
    (h : ∀ k, k < w → x.getMsbD k = r.stored (o + k)) :
    packMsb ((List.range w).map fun k => r.stored (o + k)) = x.toNat :=
  packMsb_of_getMsbD x (by simp) fun k hk => by rw [h k hk]; simp [List.getD_eq_getElem?_getD, hk]

/-- A word is the window whose bits it has. -/
theorem Ring.window_eq {w : Nat} {r : Ring} {o : Nat} {x : BitVec w}
    (h : ∀ k, k < w → x.getMsbD k = r.stored (o + k)) : r.window w o = x := by
  rw [Ring.window, Ring.packMsb_stored h, BitVec.ofNat_toNat, BitVec.setWidth_eq]

theorem Ring.getMsbD_window (r : Ring) {w k : Nat} (o : Nat) (h : k < w) :
    (r.window w o).getMsbD k = r.stored (o + k) := by
  have hbit := testBit_packMsb ((List.range w).map fun k => r.stored (o + k)) (k := k) (by simpa using h)
  rw [List.length_map, List.length_range] at hbit
  rw [BitVec.getMsbD, Ring.window, BitVec.getLsbD_ofNat, hbit]
  simp [List.getD_eq_getElem?_getD, h]
  omega

/-- The register of a search that started at `start` and now is at `i`: the bit before `i` last, and 0 where no bit was shifted in yet. -/
def SearchReg (r : Ring) (start : Nat) {w : Nat} (reg : BitVec w) (i : Nat) : Prop :=
  ∀ t, t < w → reg.getLsbD t = (decide (start + t < i) && r.stored (i - 1 - t))

section
variable {r : Ring} {start i w : Nat} {reg reg' : BitVec w}

theorem searchReg_start (r : Ring) (start w : Nat) : SearchReg r start (0 : BitVec w) start := by
  simp [SearchReg]

/-- One more stored bit shifted in. -/
theorem SearchReg.shift (h : SearchReg r start reg i) (hi : start ≤ i)
    (hshift : ∀ t, t < w → reg'.getLsbD t = if t = 0 then r.stored i else reg.getLsbD (t - 1)) :
    SearchReg r start reg' (i + 1) := by
  intro t ht
  rw [hshift t ht]
  cases t with
  | zero => simp [Nat.lt_succ_of_le hi]
  | succ t =>
    rw [if_neg t.succ_ne_zero, Nat.add_sub_cancel, h t (by omega)]
    congr 1
    · simp [← Nat.add_assoc]
    · congr 1; omega

/-- A register that has seen enough bits is the window that ends before its index. -/
theorem SearchReg.eq_window (h : SearchReg r start reg i) (hi : start + w ≤ i) : reg = r.window w (i - w) := by
  refine (Ring.window_eq fun k hk => ?_).symm
  rw [BitVec.getMsbD, h _ (by omega)]
  simp only [hk, decide_true, Bool.true_and, show start + (w - 1 - k) < i by omega]
  congr 1
  omega

end

/-! ### The marker search (43_codec_analysis.md R215) -/

theorem markerAt_iff {r : Ring} {mb mask : U64} {o : Nat} :
    Claims.MarkerAt r mb mask o ↔ r.window 64 o &&& mask = mb := Iff.rfl

/-- The scan is at `j`, has read 64 bits, and the last 64 are the marker. -/
def markerTest (r : Ring) (mb mask : U64) (start j : Nat) : Bool :=
  decide (start + 64 ≤ j ∧ r.window 64 (j - 64) &&& mask = mb)

/-- The offset and the last 16 bits of the window that ends before `j`. -/
def markerAnswer (r : Ring) (j : Nat) : Nat × BitVec 16 :=
  (j - 64, (r.window 64 (j - 64)).extractLsb' 0 16)

/-- The scan from `i` answers at the first index that passes. -/
theorem markerScanFrom_eq_find (r : Ring) (mb mask : U64) {start : Nat} (n : Nat) {i : Nat} {reg : U64}
    (hi : start ≤ i) (hreg : SearchReg r start reg i) :
    markerScanFrom r mb mask n i reg (i - start) =
      ((List.range' i n).find? (markerTest r mb mask start)).map (markerAnswer r) := by
  induction n generalizing i reg with
  | zero => rfl
  | succ n ih =>
    have hnext := ih (Nat.le_succ_of_le hi) (hreg.shift hi (shiftIn64_getLsbD reg (r.stored i)))
    rw [Nat.succ_sub hi] at hnext
    rw [markerScanFrom, List.range'_succ, List.find?_cons]
    by_cases hct : start + 64 ≤ i ∧ reg &&& mask = mb
    · have hwindow := hreg.eq_window hct.1
      rw [if_pos ⟨by simp only [Config.markerRegBits]; omega, hct.2⟩,
        show markerTest r mb mask start i = true from decide_eq_true (hwindow ▸ hct)]
      simp [markerAnswer, ← hwindow, Config.markerRegBits]
    · have htest : markerTest r mb mask start i = false :=
        decide_eq_false fun ⟨hlen, hmatch⟩ => hct ⟨hlen, hreg.eq_window hlen ▸ hmatch⟩
      rw [if_neg fun ⟨hlen, hmatch⟩ => hct ⟨by simp only [Config.markerRegBits] at hlen; omega, hmatch⟩, htest]
      exact hnext

theorem markerScan_eq_find (r : Ring) (mb mask : U64) (start : Nat) (limit : Option Nat) :
    markerScan r mb mask start limit =
      ((List.range' start (markerLimit r limit - start)).find? (markerTest r mb mask start)).map
        (markerAnswer r) := by
  rw [markerScan, ← markerScanFrom_eq_find r mb mask _ le_rfl (searchReg_start r start 64), Nat.sub_self]

section
variable {r : Ring} {mb mask : U64} {start : Nat} {limit : Option Nat}

theorem markerScan_of_leftmost {o : Nat} (hstart : start ≤ o) (hlim : o + 64 < markerLimit r limit)
    (hat : Claims.MarkerAt r mb mask o)
    (hleft : ∀ o', start ≤ o' → o' < o → ¬ Claims.MarkerAt r mb mask o') :
    markerScan r mb mask start limit = some (o, (r.window 64 o).extractLsb' 0 16) := by
  have hfind : (List.range' start (markerLimit r limit - start)).find? (markerTest r mb mask start) =
      some (o + 64) := by
    refine List.find?_range'_eq_some.mpr ⟨decide_eq_true ⟨by omega, ?_⟩,
      List.mem_range'_1.mpr (by omega), fun j _ hj => ?_⟩
    · rw [Nat.add_sub_cancel, markerAt_iff.mp hat]
    · rw [Bool.not_eq_true']
      exact decide_eq_false fun ⟨hlen, hmatch⟩ =>
        hleft (j - 64) (by omega) (by omega) (markerAt_iff.mpr hmatch)
  rw [markerScan_eq_find, hfind, Option.map_some, markerAnswer, Nat.add_sub_cancel]

theorem markerScan_eq_none
    (hno : ∀ o, start ≤ o → o + 64 < markerLimit r limit → ¬ Claims.MarkerAt r mb mask o) :
    markerScan r mb mask start limit = none := by
  rw [markerScan_eq_find, Option.map_eq_none_iff, List.find?_range'_eq_none]
  intro j _ hj
  rw [Bool.not_eq_true']
  exact decide_eq_false fun ⟨hlen, hmatch⟩ =>
    hno (j - 64) (by omega) (by omega) (markerAt_iff.mpr hmatch)

end

/-- The last bits of a window are the window that starts later. -/
theorem Ring.packMsb_window_low (r : Ring) (m n o : Nat) :
    packMsb ((List.range n).map fun k => r.stored (o + m + k)) =
      ((r.window (m + n) o).extractLsb' 0 n).toNat := by
  refine Ring.packMsb_stored fun k hk => ?_
  rw [Nat.add_assoc, ← Ring.getMsbD_window r o (by omega : m + k < m + n), BitVec.getMsbD, BitVec.getMsbD,
    BitVec.getLsbD_extractLsb', Nat.zero_add]
  simp only [hk, show n - 1 - k < n by omega, show m + k < m + n by omega, decide_true, Bool.true_and]
  congr 1
  omega

section
variable {s : State} (h : s.running) {mb mask start : U64} {limit : Option U64} (hmb : s.args.a0 = some mb)
  (hmask : s.args.a1 = some mask) (hstart : s.args.a2 = some start)
  (hlimit : ∀ l, limit = some l → s.args.a3 = some l)
include h hmb hmask hstart hlimit

/-- `FIND_MARKER` ends as its scan says (43_codec_analysis.md R216). -/
theorem exec_findMarker :
    exec (.findMarker limit.isSome) s = .next (conclude s
      ((markerScan s.codec.bits mb mask start.toNat (limit.map BitVec.toNat)).elim .none
        fun x => .ok s { y0 := some (u64 x.1), y1 := some (x.2.setWidth 64) })) := by
  refine (congrArg (command s) (bind_of_ok (State.arg_ok (a := .a0) hmb) _)).trans ?_
  rw [bind_of_ok (State.arg_ok (a := .a1) hmask), bind_of_ok (State.argNat_ok (a := .a2) hstart),
    command_of_operand h (State.argNatIf_of_given (a := .a3) hlimit)]
  cases markerScan s.codec.bits mb mask start.toNat (limit.map BitVec.toNat) <;> rfl

end

/-- Settles O48: the scan stops at the window behind its index, so 64 bits after the window's start. -/
theorem findMarkerFindsLeftmost : Obligations.FindMarkerFindsLeftmost := by
  intro s mb mask start limit lim h hmb hmask hstart hlimit hlim
  have hlim' : markerLimit s.codec.bits (limit.map BitVec.toNat) = lim := by
    rw [hlim]; cases limit <;> rfl
  refine ⟨encodedAs_of_fields rfl, fun o hso ho hat hleft => ?found, fun hno => ?absent⟩
  case found =>
    have hid : u64 (packMsb ((List.range 16).map fun k => s.codec.bits.stored (o + 48 + k))) =
        ((s.codec.bits.window 64 o).extractLsb' 0 16).setWidth 64 := by
      rw [Ring.packMsb_window_low _ 48 16, u64, BitVec.ofNat_toNat]
    rw [exec_findMarker h hmb hmask hstart hlimit, markerScan_of_leftmost hso (hlim'.symm ▸ ho) hat hleft,
      Option.elim_some, conclude_ok, hid]
  case absent =>
    rw [exec_findMarker h hmb hmask hstart hlimit, markerScan_eq_none (hlim'.symm ▸ hno), Option.elim_none,
      conclude_none]

/-! ### The sync search (43_codec_analysis.md R220) -/

theorem syncAt_iff {r : Ring} {o : Nat} : Claims.SyncAt r o ↔ r.window 32 o = Config.syncPattern := by
  have hbits : ∀ k, k < 32 → Config.syncPattern.getMsbD k = (k % 2 == 0) := by decide
  constructor
  · exact fun h => Ring.window_eq fun k hk => (hbits k hk).trans (h k hk).symm
  · intro h k hk
    rw [← Ring.getMsbD_window r o hk, h, hbits k hk]

/-- With the bit at `j` the scan has read 32 bits, and the last 32 are the sync pattern. -/
def syncTest (r : Ring) (start j : Nat) : Bool :=
  decide (start + 32 ≤ j + 1 ∧ r.window 32 (j + 1 - 32) = Config.syncPattern)

/-- The sync pattern starts with a 1, so fewer than 32 bits after zeros are not the pattern. -/
theorem SearchReg.eq_syncPattern_iff {r : Ring} {start i : Nat} {acc : BitVec 32} (h : SearchReg r start acc i) :
    acc = Config.syncPattern ↔ start + 32 ≤ i ∧ r.window 32 (i - 32) = Config.syncPattern := by
  constructor
  · rintro rfl
    have htop := h 31 (by omega)
    rw [show Config.syncPattern.getLsbD 31 = true by decide] at htop
    have hlen : start + 32 ≤ i := of_decide_eq_true (Bool.and_eq_true_iff.mp htop.symm).1
    exact ⟨hlen, (h.eq_window hlen).symm⟩
  · exact fun ⟨hlen, hmatch⟩ => (h.eq_window hlen).trans hmatch

/-- The scan from `i` answers at the first index that passes. -/
theorem syncScanFrom_eq_find (r : Ring) {start : Nat} (n : Nat) {i : Nat} {acc : BitVec 32}
    (hi : start ≤ i) (hacc : SearchReg r start acc i) :
    syncScanFrom r n i acc = ((List.range' i n).find? (syncTest r start)).map fun j => j + 1 - 32 := by
  induction n generalizing i acc with
  | zero => rfl
  | succ n ih =>
    have hnext := hacc.shift hi (shiftIn32_getLsbD acc (r.stored i))
    rw [syncScanFrom, List.range'_succ, List.find?_cons]
    by_cases hmatch : shiftIn32 acc (r.stored i) = Config.syncPattern
    · rw [if_pos hmatch, show syncTest r start i = true from decide_eq_true (hnext.eq_syncPattern_iff.mp hmatch)]
      rfl
    · rw [if_neg hmatch,
        show syncTest r start i = false from decide_eq_false (hmatch ∘ hnext.eq_syncPattern_iff.mpr)]
      exact ih (Nat.le_succ_of_le hi) hnext

theorem syncScan_eq_find (r : Ring) (start : Nat) :
    syncScan r start =
      ((List.range' start (r.wrap - start)).find? (syncTest r start)).map fun j => j + 1 - 32 :=
  syncScanFrom_eq_find r _ le_rfl (searchReg_start r start 32)

section
variable {r : Ring} {start : Nat}

theorem syncScan_of_leftmost {o : Nat} (hstart : start ≤ o) (hwrap : o + 32 ≤ r.wrap) (hat : Claims.SyncAt r o)
    (hleft : ∀ o', start ≤ o' → o' < o → ¬ Claims.SyncAt r o') : syncScan r start = some o := by
  have hfind : (List.range' start (r.wrap - start)).find? (syncTest r start) = some (o + 31) := by
    refine List.find?_range'_eq_some.mpr
      ⟨decide_eq_true ⟨by omega, syncAt_iff.mp hat⟩, List.mem_range'_1.mpr (by omega), fun j _ hj => ?_⟩
    rw [Bool.not_eq_true']
    exact decide_eq_false fun ⟨hlen, hmatch⟩ =>
      hleft (j + 1 - 32) (by omega) (by omega) (syncAt_iff.mpr hmatch)
  rw [syncScan_eq_find, hfind, Option.map_some, Nat.add_assoc, Nat.add_sub_cancel]

theorem syncScan_eq_none (hno : ∀ o, start ≤ o → o + 32 ≤ r.wrap → ¬ Claims.SyncAt r o) :
    syncScan r start = none := by
  rw [syncScan_eq_find, Option.map_eq_none_iff, List.find?_range'_eq_none]
  intro j _ hj
  rw [Bool.not_eq_true']
  exact decide_eq_false fun ⟨hlen, hmatch⟩ => hno (j + 1 - 32) (by omega) (by omega) (syncAt_iff.mpr hmatch)

end

/-- `FIND_SYNC` ends as its scan says (43_codec_analysis.md R221). -/
theorem exec_findSync {s : State} (h : s.running) {start : U64} (ha : s.args.a0 = some start) :
    exec .findSync s = .next (conclude s ((syncScan s.codec.bits start.toNat).elim .none
      fun o => .ok s { y0 := some (u64 o), y1 := some (u64 (o % 2)) })) := by
  refine (command_of_operand h (State.argNat_ok (a := .a0) ha) _).trans ?_
  cases syncScan s.codec.bits start.toNat <;> rfl

/-- Settles O49: the bit that completes the pattern at `o` is the one at `o + 31`, inside the revolution. -/
theorem findSyncFindsLeftmost : Obligations.FindSyncFindsLeftmost := by
  refine fun s start h ha => ⟨encodedAs_of_fields rfl, fun o hso ho hat hleft => ?found, fun hno => ?absent⟩
  case found =>
    rw [exec_findSync h ha, syncScan_of_leftmost hso ho hat hleft, Option.elim_some, conclude_ok]
  case absent => rw [exec_findSync h ha, syncScan_eq_none hno, Option.elim_none, conclude_none]

end Sys2Proof.Machine
end

section
/-! SUPPORT. The mask commands by the zero runs of the first revolution (43_codec_analysis.md R225 to R229). -/

namespace Sys2Proof.Machine

/-- The stored bits of the first revolution. -/
theorem Ring.getD_take_wrap (r : Ring) {j : Nat} (h : j < r.wrap) :
    (r.bits.take r.wrap).getD j false = r.stored j := by
  simp [Ring.stored, List.getD_eq_getElem?_getD, h]

/-- A run of zeros in the bits of one revolution is a run of stored zeros below the wrap. -/
theorem zeroRunAt_take_iff {r : Ring} (hw : r.wrap ≤ r.bits.length) (thr k : Nat) :
    ZeroRunAt (r.bits.take r.wrap) thr k ↔ Claims.InLongZeroRun r thr k := by
  have hbits {a b : Nat} (hb : b ≤ r.wrap) :
      (∀ j, a ≤ j → j < b → (r.bits.take r.wrap).getD j false = false) ↔
        ∀ j, a ≤ j → j < b → r.stored j = false :=
    forall₃_congr fun j _ hj => by rw [r.getD_take_wrap (by omega)]
  unfold ZeroRunAt Claims.InLongZeroRun
  rw [List.length_take_of_le hw]
  refine exists₂_congr fun a b => and_congr_right fun _ => and_congr_right fun _ => and_congr_right fun hb =>
    and_congr_right fun _ => hbits hb

/-- The mask marks the positions of the long zero runs, and none beyond the wrap. -/
theorem getD_zeroRunMask_iff {r : Ring} (hw : r.wrap ≤ r.bits.length) (thr k : Nat) :
    (zeroRunMask r thr).getD k false = true ↔ Claims.InLongZeroRun r thr k := by
  have hlen : (zeroRuns thr 0 (r.bits.take r.wrap)).length = r.wrap := by
    rw [zeroRuns_length, List.length_take_of_le hw, Nat.zero_add]
  rcases Nat.lt_or_ge k r.wrap with hk | hk
  · rw [zeroRunMask, List.getD_append _ _ _ _ (hlen.symm ▸ hk), zeroRuns_spec]
    exact zeroRunAt_take_iff hw thr k
  · have hmask : (zeroRunMask r thr).getD k false = false := by
      rw [zeroRunMask, List.getD_append_right _ _ _ _ (hlen.symm ▸ hk), List.getD_eq_getElem?_getD,
        List.getElem?_getD_replicate_default_eq]
    rw [hmask]
    refine iff_of_false Bool.false_ne_true ?_
    rintro ⟨a, b, _, hkb, hb, _⟩
    omega

/-- The ring a mask command installs: its length, its wrap and its ones. -/
theorem maskRing_spec {r : Ring} (hw : r.wrap ≤ r.bits.length) (thr : Nat) :
    ∃ m, maskRing r thr = ⟨m, r.wrap, none, 0⟩ ∧ m.length = r.bits.length ∧
      ∀ k, m.getD k false = true ↔ Claims.InLongZeroRun r thr k :=
  ⟨zeroRunMask r thr, maskRing_eq r hw thr, zeroRunMask_length hw thr, getD_zeroRunMask_iff hw thr⟩

section
variable {s : State} (h : s.running) {m : Ring}
include h

/-- `CREATE_WEAK_MASK` installs the mask of `A0`, or of the default threshold (43_codec_analysis.md R226). -/
theorem exec_createWeakMask {run : Option U64} (ha : ∀ v, run = some v → s.args.a0 = some v)
    (hm : maskRing s.codec.bits ((run.map BitVec.toNat).getD Config.weakBitRun) = m) :
    exec (.createWeakMask run.isSome) s =
      okWith { s with codec := { s.codec with weak := m } } { y0 := some (u64 (m.bits.count true)) } :=
  command_completes h (State.argNatIf_of_given (a := .a0) ha) (by rw [hm]; rfl)

theorem exec_createErrorMap (hm : maskRing s.codec.bits Config.errorRun = m) :
    exec .createErrorMap s =
      okWith { s with codec := { s.codec with error := m } } { y0 := some (u64 (m.bits.count true)) } :=
  (command_ok h _).trans (by rw [hm]; rfl)

end

/-- Settles O50: both commands install the ring of `maskRing_spec`. -/
theorem masksMarkLongZeroRuns : Obligations.MasksMarkLongZeroRuns := by
  intro s h hwf
  obtain ⟨hlen, hwrap⟩ := Ring.wf_iff.mp (Codec.wf_ring hwf .bits)
  have hw : s.codec.bits.wrap ≤ s.codec.bits.bits.length := hlen.symm ▸ hwrap
  refine ⟨encodedAs_of_fields rfl, encodedAs_of_fields rfl, encodedAs_of_fields rfl, fun run ha => ?weak, ?error⟩
  case weak =>
    obtain ⟨m, hm, hlength, hones⟩ := maskRing_spec hw ((run.map BitVec.toNat).getD Config.weakBitRun)
    refine ⟨m, exec_createWeakMask h ha hm, hlength, fun k => ?_⟩
    cases run <;> exact hones k
  case error =>
    obtain ⟨m, hm, hspec⟩ := maskRing_spec hw Config.errorRun
    exact ⟨m, exec_createErrorMap h hm, hspec⟩

/-- With one zero run longer than `thr`, of length `thr + 1` from `a`, the positions in long zero runs are those of that run. -/
theorem inLongZeroRun_iff_of_one_run {r : Ring} {thr a : Nat} (hin : a + thr + 1 ≤ r.wrap)
    (hzero : ∀ j, a ≤ j → j < a + thr + 1 → r.stored j = false)
    (hone : ∀ b e, b < e → e ≤ r.wrap → (∀ j, b ≤ j → j < e → r.stored j = false) →
      thr < e - b → b = a ∧ e = a + thr + 1) (k : Nat) :
    Claims.InLongZeroRun r thr k ↔ a ≤ k ∧ k < a + thr + 1 := by
  constructor
  · rintro ⟨b, e, hbk, hke, he, hlong, hz⟩
    obtain ⟨rfl, rfl⟩ := hone b e (by omega) he hz hlong
    exact ⟨hbk, hke⟩
  · exact fun ⟨hak, hka⟩ => ⟨a, a + thr + 1, hak, hka, hin, by omega, hzero⟩

/-- Settles O51: the mask of O50, on a track whose long zero runs are one. -/
theorem weakMaskIsExactForOneRun : Obligations.WeakMaskIsExactForOneRun := by
  intro s t run a h hwf ha hin hzero hone hexec k
  obtain ⟨_, _, _, hweak, _⟩ := masksMarkLongZeroRuns s h hwf
  obtain ⟨m, hm, _, hones⟩ := hweak (some run) (by rintro _ ⟨⟩; exact ha)
  obtain rfl := Host.Outcome.next.inj (hexec.symm.trans hm)
  exact Bool.eq_iff_iff.mpr ((hones k).trans
    ((inLongZeroRun_iff_of_one_run hin hzero hone k).trans decide_eq_true_iff.symm))

end Sys2Proof.Machine
end

section
/-! SUPPORT. The PLL commands, each said once by the answer it gives: the unit and the decode it ends with, or its fault (44_pll.md R250 to R256, R266, R268). -/

namespace Sys2Proof.Machine

/-! ### Configuration and reset -/

/-- The operands of `PLL_CONFIG` are the four argument registers. -/
theorem exec_pllConfig {s : State} (h : s.running) {rate ma kp density : U64}
    (ha : s.args = ⟨some rate, some ma, some kp, some density⟩) :
    exec .pllConfig s = .next (conclude s
      (if !validCentre (F64.div F64.one rate) ma || !F64.finite kp || !F64.finite density then .fault .badOperand
      else .ok { s with pll := Pll.configured (F64.div F64.one rate) ma kp density } {})) := by
  have hrate : s.arg .a0 = .ok rate := State.arg_ok (by rw [ha]; rfl)
  have hma : s.arg .a1 = .ok ma := State.arg_ok (by rw [ha]; rfl)
  have hkp : s.arg .a2 = .ok kp := State.arg_ok (by rw [ha]; rfl)
  have hdensity : s.arg .a3 = .ok density := State.arg_ok (by rw [ha]; rfl)
  refine (congrArg (command s) (bind_of_ok hrate _)).trans ?_
  rw [bind_of_ok hma, bind_of_ok hkp, command_of_operand h hdensity]

/-- Settles O52: the test of `PLL_CONFIG` is the condition negated, and `PLL_RESET` reads no operand. -/
theorem pllConfigAndReset : Obligations.PllConfigAndReset := by
  refine ⟨fun c ma => validCentre_iff, fun s h => ⟨encodedAs_of_fields rfl, encodedAs_of_fields rfl,
    fun rate ma kp density ha => ?config, command_ok h _⟩⟩
  rw [exec_pllConfig h ha]
  split
  · next hbad =>
    rw [if_neg, conclude_fault]
    rintro ⟨hc, hkp, hd⟩
    simp [hc, hkp, hd] at hbad
  · next hgood =>
    rw [if_pos, conclude_ok]
    · rfl
    · simpa [and_assoc] using hgood

/-! ### The answer of a decode (44_pll.md R266) -/

/-- The unit and the decode `PLL_DECODE` ends with, or its fault, from the PLL registers and the operands alone. -/
def pllDecodeAnswer (u : Pll) (e : PllEnc) (x : List F64) (hint : Option F64) :
    Except FaultCode (Pll × PllRun) :=
  match normalizeDeltas x with
  | .error c => .error c
  | .ok d => if badHint u hint then .error .badOperand else (u.hinted hint).decode e d

/-- The results of `PLL_DECODE`. -/
def pllDecodeResults (a : Pll × PllRun) : Results :=
  { y0 := some a.1.tooFast, y1 := some a.1.tooSlow, y2 := some a.1.bitsOut, ob0 := some (.bits a.2.out) }

/-- The ending of `PLL_DECODE` in the state `s`. -/
def pllDecodeEnding (s : State) (answer : Except FaultCode (Pll × PllRun)) : Ending :=
  orFault answer fun a => .ok { s with pll := a.1 } (pllDecodeResults a)

/-- The body of `PLL_DECODE`: its two operands, then the answer they give. -/
theorem exec_pllDecode_eq (e : PllEnc) (given : Bool) (s : State) :
    exec (.pllDecode e given) s = command s (s.bufF64s .ib0 >>= fun x => s.argIf given .a0 >>= fun hint =>
      .ok (pllDecodeEnding s (pllDecodeAnswer s.pll e x hint))) := by
  refine congrArg (command s) (congrArg (s.bufF64s .ib0 >>= ·) (funext fun x =>
    congrArg (s.argIf given .a0 >>= ·) (funext fun hint => congrArg Except.ok ?_)))
  unfold pllDecodeAnswer
  cases normalizeDeltas x with
  | error c => rfl
  | ok d =>
    show (if badHint s.pll hint then _ else _) = pllDecodeEnding s (if badHint s.pll hint then _ else _)
    split <;> rfl

section
variable {e : PllEnc} {given : Bool} {s : State} (h : s.running) {x : List F64} {hint : Option F64}
  (hx : s.bufF64s .ib0 = .ok x) (hh : s.argIf given .a0 = .ok hint)
include h hx hh

theorem exec_pllDecode_completes {a : Pll × PllRun} (ha : pllDecodeAnswer s.pll e x hint = .ok a) :
    exec (.pllDecode e given) s = okWith { s with pll := a.1 } (pllDecodeResults a) :=
  (exec_pllDecode_eq e given s).trans (command_completes₂ h hx hh (by rw [ha]; rfl))

theorem exec_pllDecode_faults {c : FaultCode} (ha : pllDecodeAnswer s.pll e x hint = .error c) :
    exec (.pllDecode e given) s = faultWith s c := by
  rw [exec_pllDecode_eq, bind_of_ok hx]
  exact command_faults h hh (by rw [ha]; rfl)

end

/-! ### Determinism (44_pll.md R268) -/

/-- An operand of a body that is not refused holds a value. -/
theorem bind_eq_ok {α β : Type} {x : Except Refusal α} {k : α → Except Refusal β} {b : β}
    (h : (x >>= k) = .ok b) : ∃ a, x = .ok a ∧ k a = .ok b := by
  cases x with
  | error r => exact nomatch (h : Except.error r = _)
  | ok a => exact ⟨a, rfl, h⟩

/-- A running block that answers `PLL_DECODE` had both operands. -/
theorem pllDecode_operands {e : PllEnc} {given : Bool} {s t : State} (h : s.running)
    (ht : exec (.pllDecode e given) s = .next t) :
    ∃ x hint, s.bufF64s .ib0 = .ok x ∧ s.argIf given .a0 = .ok hint := by
  rw [exec_pllDecode_eq] at ht
  rcases command_next ht with ⟨hh, -⟩ | ⟨-, _, hbody, -⟩
  · exact absurd (h.symm.trans hh) Bool.false_ne_true
  · obtain ⟨x, hx, hrest⟩ := bind_eq_ok hbody
    obtain ⟨hint, hhint, -⟩ := bind_eq_ok hrest
    exact ⟨x, hint, hx, hhint⟩

/-- Settles O21: both blocks end as the one answer says. -/
theorem pllDecodeDependsOnItsOperandsOnly : Obligations.PllDecodeDependsOnItsOperandsOnly := by
  intro e given s s' t h h' hib ha hpll ht
  obtain ⟨x, hint, hx, hhint⟩ := pllDecode_operands h ht
  have hx' : s'.bufF64s .ib0 = .ok x := by
    rw [← hx]
    simp only [State.bufF64s, State.inBuf, hib]
  have hhint' : s'.argIf given .a0 = .ok hint := by
    rw [← hhint]
    simp only [State.argIf, State.arg, Args.get, ha]
  cases hans : pllDecodeAnswer s.pll e x hint with
  | error c =>
    obtain rfl := Host.Outcome.next.inj (ht.symm.trans (exec_pllDecode_faults h hx hhint hans))
    exact ⟨_, exec_pllDecode_faults h' hx' hhint' (hpll ▸ hans), rfl, hpll.symm, by simp, rfl⟩
  | ok a =>
    obtain rfl := Host.Outcome.next.inj (ht.symm.trans (exec_pllDecode_completes h hx hhint hans))
    exact ⟨_, exec_pllDecode_completes h' hx' hhint' (hpll ▸ hans), rfl, rfl, by simp, rfl⟩

/-! ### The result (44_pll.md R266) -/

/-- An optional register, when it holds what is given. -/
theorem State.argIf_of_given {s : State} {a : ArgReg} {v : Option U64}
    (h : ∀ x, v = some x → s.args.get a = some x) : s.argIf v.isSome a = .ok v := by
  cases v with
  | none => rfl
  | some x => exact State.argIf_ok (h x rfl)

theorem badHint_eq_false_iff {u : Pll} {hint : Option F64} :
    badHint u hint = false ↔ ∀ c, hint = some c → validCentre c u.maxAdjust = true := by
  cases hint <;> simp [badHint]

section
variable {u : Pll} {x : List F64} {hint : Option F64}

theorem pllDecodeAnswer_of_bad_delta (hx : ∃ v ∈ x, badDelta v = true) (e : PllEnc) :
    pllDecodeAnswer u e x hint = .error .invalidFluxDelta := by
  rw [pllDecodeAnswer, normalizeDeltas_of_bad hx]

variable (hx : ∀ v ∈ x, badDelta v = false)
include hx

theorem pllDecodeAnswer_of_bad_hint {c : F64} (hc : validCentre c u.maxAdjust = false) (e : PllEnc) :
    pllDecodeAnswer u e x (some c) = .error .badOperand := by
  rw [pllDecodeAnswer, normalizeDeltas_of_good hx]
  simp [badHint, hc]

variable (hh : ∀ c, hint = some c → validCentre c u.maxAdjust = true)
include hh

theorem pllDecodeAnswer_of_good (e : PllEnc) :
    pllDecodeAnswer u e x hint = (u.hinted hint).decode e (x.filter nonzeroDelta) := by
  rw [pllDecodeAnswer, normalizeDeltas_of_good hx]
  simp [badHint_eq_false_iff.mpr hh]

end

/-- The unit that decodes from the clamp centre `dp` and the starting period `p0`. -/
def Pll.withPeriods (u : Pll) (dp p0 : F64) : Pll := { u with defaultPeriod := dp, period := p0 }

/-- A hint replaces both periods (44_pll.md R266). -/
theorem Pll.hinted_eq (u : Pll) (hint : Option F64) :
    u.hinted hint = u.withPeriods (hint.getD u.defaultPeriod) (hint.getD u.period) := by
  cases hint <;> rfl

section
variable {u : Pll} {dp p0 : F64} {d : List F64}

/-- The loop reads its periods from its own arguments. -/
theorem pllRun_withPeriods : pllRun (u.withPeriods dp p0) = pllRun u := rfl

theorem Pll.decode_mfm {r : PllRun} (h : pllRun u d p0 dp ⟨F64.one, 2, 5⟩ = .ok r) :
    (u.withPeriods dp p0).decode .mfm d = .ok ((u.withPeriods dp r.period).withCounts r, r) := by
  have hrun : pllRun u d (u.withPeriods dp p0).period (u.withPeriods dp p0).defaultPeriod mfmProfile = .ok r := h
  rw [Pll.decode, pllRun_withPeriods, hrun]
  rfl

theorem Pll.decode_mfm_faults {c : FaultCode} (h : pllRun u d p0 dp ⟨F64.one, 2, 5⟩ = .error c) :
    (u.withPeriods dp p0).decode .mfm d = .error .invalidFluxDelta := by
  have hrun : pllRun u d (u.withPeriods dp p0).period (u.withPeriods dp p0).defaultPeriod mfmProfile = .error c := h
  rw [Pll.decode, pllRun_withPeriods, hrun, pllRun_error h]

theorem Pll.decode_fm_of_bad_centre
    (h : validCentre (F64.mul dp Config.fmProfile.periodMult) u.maxAdjust = false) :
    (u.withPeriods dp p0).decode .fm d = .error .badOperand :=
  if_neg (Bool.eq_false_iff.mp h)

section
variable (hc : validCentre (F64.mul dp Config.fmProfile.periodMult) u.maxAdjust = true)
include hc

theorem Pll.decode_fm {r : PllRun}
    (h : pllRun u d (F64.mul p0 Config.fmProfile.periodMult) (F64.mul dp Config.fmProfile.periodMult)
      Config.fmProfile = .ok r) :
    (u.withPeriods dp p0).decode .fm d = .ok ((u.withPeriods dp p0).withCounts r, r) := by
  refine (if_pos hc).trans ?_
  rw [pllRun_withPeriods]
  exact h ▸ rfl

theorem Pll.decode_fm_faults {c : FaultCode}
    (h : pllRun u d (F64.mul p0 Config.fmProfile.periodMult) (F64.mul dp Config.fmProfile.periodMult)
      Config.fmProfile = .error c) :
    (u.withPeriods dp p0).decode .fm d = .error .invalidFluxDelta := by
  obtain rfl := pllRun_error h
  refine (if_pos hc).trans ?_
  rw [pllRun_withPeriods]
  exact h ▸ rfl

end

end

/-- Settles O53: each clause is the answer in its case, the loop's registers being those of the unit that has taken the hint. -/
theorem pllDecodeResult : Obligations.PllDecodeResult := by
  intro s x hint dp p0 h hib hgiven hdp hp0
  have hx := State.bufF64s_ok (b := .ib0) hib
  have hh := State.argIf_of_given (a := .a0) hgiven
  have hu : s.pll.hinted hint = s.pll.withPeriods dp p0 := by
    rw [Pll.hinted_eq, hdp, hp0]
    cases hint <;> rfl
  refine ⟨encodedAs_of_fields (by cases hint <;> rfl), encodedAs_of_fields (by cases hint <;> rfl),
    fun e hbad => exec_pllDecode_faults h hx hh (pllDecodeAnswer_of_bad_delta hbad e),
    fun hgood => ⟨?badHint, fun hvalid => ?_⟩⟩
  case badHint =>
    rintro e c rfl hc
    exact exec_pllDecode_faults h hx hh (pllDecodeAnswer_of_bad_hint hgood hc e)
  have hans (e : PllEnc) := (pllDecodeAnswer_of_good hgood hvalid e).trans
    (congrArg (Pll.decode · e (x.filter nonzeroDelta)) hu)
  refine ⟨fun r hr => ?mfm, fun c hr => ?mfmFault, fun hc => ?fmCentre, fun hc r hr => ?fm,
    fun hc c hr => ?fmFault⟩
  case mfm => exact exec_pllDecode_completes h hx hh ((hans .mfm).trans (Pll.decode_mfm hr))
  case mfmFault => exact exec_pllDecode_faults h hx hh ((hans .mfm).trans (Pll.decode_mfm_faults hr))
  case fmCentre => exact exec_pllDecode_faults h hx hh ((hans .fm).trans (Pll.decode_fm_of_bad_centre hc))
  case fm => exact exec_pllDecode_completes h hx hh ((hans .fm).trans (Pll.decode_fm hc hr))
  case fmFault => exact exec_pllDecode_faults h hx hh ((hans .fm).trans (Pll.decode_fm_faults hc hr))

/-- A delta that is a zero, of either sign, is valid and dropped (44_pll.md R256). -/
theorem zero_delta {v : F64} (h : F64.mag v = 0) : badDelta v = false ∧ nonzeroDelta v = false := by
  have hfinite : F64.finite v = true := F64.finite_iff.mpr (by rw [h]; decide)
  have hord : F64.ord v = 0 := by simp [F64.ord, h]
  have hlt : F64.lt v (F64.zero false) = false := by simp [F64.lt, hord, F64.ord_zero]
  exact ⟨by simp [badDelta, hfinite, hlt], by simp [nonzeroDelta, h]⟩

/-- Settles O54: no delta is left, and the run of none ends as it starts. -/
theorem pllDecodeOfZeroDeltasCompletes : Obligations.PllDecodeOfZeroDeltasCompletes := by
  intro s x h hib hzero
  have hgood : ∀ v ∈ x, badDelta v = false := fun v hv => (zero_delta (hzero v hv)).1
  have hnone : x.filter nonzeroDelta = [] :=
    List.filter_eq_nil_iff.mpr fun v hv => by simp [(zero_delta (hzero v hv)).2]
  have hans : pllDecodeAnswer s.pll .mfm x none = s.pll.decode .mfm [] := by
    rw [pllDecodeAnswer_of_good hgood (by rintro _ ⟨⟩), hnone]
    rfl
  exact exec_pllDecode_completes h (State.bufF64s_ok (b := .ib0) hib) (State.argIf_absent s .a0)
    (hans.trans (Pll.decode_mfm rfl))

end Sys2Proof.Machine
end

section
/-! SUPPORT. The tick loop of a decode: it halts at the tick where the clock reaches the transition or sticks, and it does so before its count is used up (44_pll.md R260, R261). -/

namespace Sys2Proof.Machine

/-! ### How far the clock can still go -/

/-- More ticks of period `p` than the clock can make from `t`: they all move it in the direction of the sign of `p`, as far as the infinity there, or to a NaN. -/
def ticksLeft (p t : F64) : Nat :=
  if F64.isNaN t then 0
  else if F64.sign p then (F64.ord t + f64InfMag).toNat + 1
  else (f64InfMag - F64.ord t).toNat + 1

theorem ticksLeft_lt_tickFuel (p t : F64) : ticksLeft p t < tickFuel := by
  have hinf : f64InfMag = 0x7FF0000000000000 := rfl
  have hfuel : tickFuel = 0x10000000000000000 := rfl
  unfold ticksLeft
  cases ht : F64.isNaN t with
  | true => rw [if_pos rfl, hfuel]; decide
  | false =>
    obtain ⟨hlo, hhi⟩ := F64.ord_bounds ht
    rw [if_neg Bool.false_ne_true]
    split <;> omega

/-- A tick the loop takes leaves the clock with fewer. -/
theorem ticksLeft_add_lt {p acc nxt t : F64} (hgo : F64.lt (F64.add t acc) nxt = true)
    (hmove : F64.eq (F64.add t p) t = false) : ticksLeft p (F64.add t p) < ticksLeft p t := by
  have ht : F64.isNaN t = false := by
    by_contra h
    have := F64.add_nan_left (b := acc) (eq_true_of_ne_false h)
    rw [(F64.lt_iff.mp hgo).1] at this
    cases this
  cases hn : F64.isNaN (F64.add t p) with
  | true =>
    simp only [ticksLeft, hn, ht, if_true, Bool.false_eq_true, if_false]
    split <;> exact Nat.succ_pos _
  | false =>
    have hp : F64.isNaN p = false := by
      by_contra h
      rw [F64.add_nan_right (eq_true_of_ne_false h)] at hn
      cases hn
    have hne : F64.ord (F64.add t p) ≠ F64.ord t := fun h =>
      Bool.false_ne_true (hmove.symm.trans (F64.eq_iff.mpr ⟨hn, ht, h⟩))
    obtain ⟨hup, hdown⟩ := F64.add_moves_towards ht hp hn
    obtain ⟨hlo, hhi⟩ := F64.ord_bounds hn
    obtain ⟨hlo', hhi'⟩ := F64.ord_bounds ht
    simp only [ticksLeft, hn, ht, Bool.false_eq_true, if_false]
    cases hs : F64.sign p with
    | true => have := hdown hs; simp only [if_true]; omega
    | false => have := hup hs; simp only [Bool.false_eq_true, if_false]; omega

/-- A count that exceeds the ticks left decides nothing. -/
theorem tickLoop_of_enough {p acc nxt : F64} {n m : Nat} (hnm : n ≤ m) {t : F64} (ticks : Nat)
    (hn : ticksLeft p t < n) : tickLoop p acc nxt m t ticks = tickLoop p acc nxt n t ticks := by
  induction n generalizing m t ticks with
  | zero => exact absurd hn (Nat.not_lt_zero _)
  | succ n ih =>
    obtain ⟨m, rfl⟩ := Nat.exists_eq_succ_of_ne_zero (Nat.ne_zero_of_lt hnm)
    unfold tickLoop
    split
    · next hgo =>
      split
      · rfl
      · next hmove =>
        have hlt := ticksLeft_add_lt hgo (Bool.eq_false_iff.mpr hmove)
        exact ih (Nat.le_of_succ_le_succ hnm) _ (by omega)
    · rfl

/-- Settles O56: fewer ticks are left than the count, whatever the clock. -/
theorem tickLoopIsNeverCut : Obligations.TickLoopIsNeverCut := fun p _ _ time ticks _ hn =>
  tickLoop_of_enough hn ticks (ticksLeft_lt_tickFuel p time)

/-! ### Where the clock halts (44_pll.md R260 step b, R261) -/

section
variable {r : PllRun} {nxt : F64} {k t u : Nat}

theorem ticks_succ (h : Claims.Ticks r nxt k) (hgo : F64.lt (F64.add (Claims.clockAt r k) r.acc) nxt = true)
    (hmove : F64.eq (Claims.clockAt r (k + 1)) (Claims.clockAt r k) = false) : Claims.Ticks r nxt (k + 1) := by
  intro j hj
  rcases Nat.lt_succ_iff_lt_or_eq.mp hj with hj | rfl
  · exact h j hj
  · exact ⟨hgo, hmove⟩

/-- From the tick `k` on, the loop gives the tick at which the clock reaches the transition, or none when the clock sticks. -/
theorem tickLoop_halts {n : Nat} (hk : Claims.Ticks r nxt k) (hn : ticksLeft r.period (Claims.clockAt r k) < n) :
    (∃ t, Claims.ClockReaches r nxt t ∧
      tickLoop r.period r.acc nxt n (Claims.clockAt r k) k = some (Claims.clockAt r t, t)) ∨
    (∃ t, Claims.ClockSticks r nxt t ∧ tickLoop r.period r.acc nxt n (Claims.clockAt r k) k = none) := by
  induction n generalizing k with
  | zero => exact absurd hn (Nat.not_lt_zero _)
  | succ n ih =>
    unfold tickLoop
    split
    · next hgo =>
      split
      · next hstick => exact .inr ⟨k, ⟨hk, hgo, hstick⟩, rfl⟩
      · next hmove =>
        have hmove := Bool.eq_false_iff.mpr hmove
        have hlt := ticksLeft_add_lt hgo hmove
        exact ih (ticks_succ hk hgo hmove) (Nat.lt_of_lt_of_le hlt (Nat.le_of_lt_succ hn))
    · next hstop => exact .inl ⟨k, ⟨hk, Bool.eq_false_iff.mpr hstop⟩, rfl⟩

theorem ticks_zero : Claims.Ticks r nxt 0 := fun _ hj => absurd hj (Nat.not_lt_zero _)

/-- The clock halts at one tick at most, in one of the two ways. -/
theorem clockReaches_unique (h : Claims.ClockReaches r nxt t) (h' : Claims.ClockReaches r nxt u) : t = u := by
  rcases Nat.lt_trichotomy t u with hlt | heq | hlt
  · exact absurd (h.2.symm.trans (h'.1 t hlt).1) Bool.false_ne_true
  · exact heq
  · exact absurd (h'.2.symm.trans (h.1 u hlt).1) Bool.false_ne_true

theorem not_clockSticks_of_reaches (h : Claims.ClockReaches r nxt t) : ¬ Claims.ClockSticks r nxt u := by
  rintro ⟨hticks, hgo, hstick⟩
  rcases Nat.lt_trichotomy t u with hlt | rfl | hlt
  · exact Bool.false_ne_true (h.2.symm.trans (hticks t hlt).1)
  · exact Bool.false_ne_true (h.2.symm.trans hgo)
  · exact Bool.false_ne_true ((h.1 u hlt).2.symm.trans hstick)

/-- The loop of one delta, by the way the clock halts. -/
theorem tickLoop_cases (r : PllRun) (nxt : F64) :
    (∃ t, Claims.ClockReaches r nxt t ∧
      tickLoop r.period r.acc nxt tickFuel r.time 0 = some (Claims.clockAt r t, t)) ∨
    (∃ t, Claims.ClockSticks r nxt t ∧ tickLoop r.period r.acc nxt tickFuel r.time 0 = none) :=
  tickLoop_halts (k := 0) ticks_zero (ticksLeft_lt_tickFuel _ _)

theorem tickLoop_of_reaches (h : Claims.ClockReaches r nxt t) :
    tickLoop r.period r.acc nxt tickFuel r.time 0 = some (Claims.clockAt r t, t) := by
  rcases tickLoop_cases r nxt with ⟨u, hu, he⟩ | ⟨u, hu, -⟩
  · rw [he, clockReaches_unique hu h]
  · exact absurd hu (not_clockSticks_of_reaches h)

theorem tickLoop_of_sticks (h : Claims.ClockSticks r nxt t) :
    tickLoop r.period r.acc nxt tickFuel r.time 0 = none := by
  rcases tickLoop_cases r nxt with ⟨u, hu, -⟩ | ⟨u, -, he⟩
  · exact absurd h (not_clockSticks_of_reaches hu)
  · exact he

/-- The tick at which the loop ends is the one at which the clock reaches the transition. -/
theorem clockReaches_of_tickLoop {time : F64}
    (h : tickLoop r.period r.acc nxt tickFuel r.time 0 = some (time, t)) :
    Claims.ClockReaches r nxt t ∧ time = Claims.clockAt r t := by
  rcases tickLoop_cases r nxt with ⟨u, hu, he⟩ | ⟨u, -, he⟩
  · obtain ⟨rfl, rfl⟩ := Prod.mk.inj (Option.some.inj (h.symm.trans he))
    exact ⟨hu, rfl⟩
  · exact nomatch h.symm.trans he

end

end Sys2Proof.Machine
end

section
/-! SUPPORT. One delta of a decode by its steps c to h (44_pll.md R260, R262, R265), and a run by its deltas in order (R264). -/

namespace Sys2Proof.Machine

/-! ### Steps c to h -/

section
variable {lo hi kp : F64} {prof : Config.Profile} {r r' : PllRun} {nxt err v : F64} {t : Nat}

/-- Step d: a count of its own before `minTicks` and from `maxTicks` on, a group of bits between them (44_pll.md R263). -/
theorem emission_iff :
    (if t < prof.minTicks then r'.out = r.out ∧ r'.tooFast = r.tooFast + 1 ∧ r'.tooSlow = r.tooSlow
      else if t < prof.maxTicks then
        r'.out = r.out ++ (List.replicate (t - 1) false ++ [true]) ∧
          r'.tooFast = r.tooFast ∧ r'.tooSlow = r.tooSlow
      else r'.out = r.out ∧ r'.tooFast = r.tooFast ∧ r'.tooSlow = r.tooSlow + 1) ↔
    r'.out = (afterTicks lo hi kp prof r nxt v t).out ∧
      r'.tooFast = (afterTicks lo hi kp prof r nxt v t).tooFast ∧
      r'.tooSlow = (afterTicks lo hi kp prof r nxt v t).tooSlow := by
  simp only [afterTicks, emitBits]
  by_cases hfast : t < prof.minTicks
  · simp [hfast, Nat.not_le_of_lt hfast]
  · by_cases hin : t < prof.maxTicks
    · simp [hfast, Nat.le_of_not_lt hfast, hin]
    · simp [hfast, hin]

/-- Steps c to h give one phase error and one decode: the model's. -/
theorem afterDelta_iff : Claims.AfterDelta lo hi kp prof r nxt t err r' ↔
    err = phaseError r nxt t ∧ r' = afterTicks lo hi kp prof r nxt (Claims.clockAt r t) t := by
  constructor
  · rintro ⟨htime, hemit, rfl, hperiod, hacc, hlast⟩
    obtain ⟨hout, hfast, hslow⟩ :=
      (emission_iff (lo := lo) (hi := hi) (kp := kp) (nxt := nxt) (v := Claims.clockAt r t)).mp hemit
    rw [hperiod] at hacc
    refine ⟨rfl, ?_⟩
    calc r' = ⟨r'.period, r'.time, r'.acc, r'.last, r'.out, r'.tooFast, r'.tooSlow⟩ := rfl
      _ = _ := by rw [hperiod, htime, hacc, hlast, hout, hfast, hslow]; rfl
  · rintro ⟨rfl, rfl⟩
    exact ⟨rfl, emission_iff.mpr ⟨rfl, rfl, rfl⟩, rfl, rfl, rfl, rfl⟩

/-! ### One delta -/

theorem pllDelta_of_not_finite (h : F64.finite (F64.add r.last v) = false) :
    pllDelta lo hi kp prof r v = .error .invalidFluxDelta := by
  simp [pllDelta, h]

section
variable (hn : F64.finite (F64.add r.last v) = true)
include hn

theorem pllDelta_of_sticks (h : Claims.ClockSticks r (F64.add r.last v) t) :
    pllDelta lo hi kp prof r v = .error .invalidFluxDelta := by
  rw [pllDelta, if_pos hn, tickLoop_of_sticks h]

/-- A delta whose transition the clock reaches ends as steps c to h say, where they give finite values. -/
theorem pllDelta_of_reaches (h : Claims.ClockReaches r (F64.add r.last v) t)
    (ha : Claims.AfterDelta lo hi kp prof r (F64.add r.last v) t err r') :
    pllDelta lo hi kp prof r v =
      if F64.finite r'.time = true ∧ F64.finite err = true ∧ F64.finite r'.acc = true then .ok r'
      else .error .invalidFluxDelta := by
  obtain ⟨rfl, rfl⟩ := afterDelta_iff.mp ha
  rw [pllDelta, if_pos hn, tickLoop_of_reaches h]
  simp only [Bool.and_eq_true, and_assoc]
  rfl

end

/-- A delta that faults nothing ends as steps c to h say at the tick where the clock reaches its transition. -/
theorem pllDelta_ok_steps (h : pllDelta lo hi kp prof r v = .ok r') :
    ∃ t, Claims.ClockReaches r (F64.add r.last v) t ∧
      tickLoop r.period r.acc (F64.add r.last v) tickFuel r.time 0 = some (Claims.clockAt r t, t) ∧
      r' = afterTicks lo hi kp prof r (F64.add r.last v) (Claims.clockAt r t) t := by
  obtain ⟨time, t, hloop, -, -, -, rfl⟩ := pllDelta_ok h
  obtain ⟨hreach, rfl⟩ := clockReaches_of_tickLoop hloop
  exact ⟨t, hreach, hloop, rfl⟩

end

/-! ### The phase after a delta (44_pll.md R265) -/

theorem F64.finite_abs (a : F64) : F64.finite (F64.abs a) = F64.finite a := by
  rw [F64.abs, F64.finite_ofSignMag _ (F64.mag_lt a)]
  rfl

/-- The remainder of an infinity or a NaN is a NaN. -/
theorem F64.finite_of_finite_fmod {a b : F64} (h : F64.finite (F64.fmod a b) = true) : F64.finite a = true := by
  by_contra ha
  have hnan : F64.fmod a b = F64.nanOf 3 a b := by
    cases hn : F64.isNaN a with
    | true => simp [F64.fmod, hn]
    | false => simp [F64.fmod, F64.isInf_of_not_finite hn ha]
  rw [hnan] at h
  exact absurd ((F64.nanOf_isNaN 3 a b).symm.trans (F64.not_isNaN_of_finite h)) (Bool.noConfusion)

section
variable {a p : F64} (hp : F64.finite p = true) (hpos : F64.lt (F64.zero false) p = true)
include hp hpos

theorem F64.abs_fmod_le (ha : F64.finite a = true) : F64.le (F64.abs (F64.fmod a p)) p = true := by
  have hzero : F64.val (F64.zero false) = 0 := by decide
  have hval : 0 < F64.val p := hzero ▸ (F64.lt_iff_val (by decide) hp).mp hpos
  obtain ⟨hf, hmod, -⟩ := F64.fmod_exact ha hp hval.ne'
  rw [F64.le_iff_val ((F64.finite_abs _).trans hf) hp, F64.val_abs, hmod, Int.abs_eq_natAbs, Int.natAbs_tmod]
  have := Nat.mod_lt (F64.val a).natAbs (Int.natAbs_pos.mpr hval.ne')
  omega

/-- The reduced phase is at most a finite positive period. -/
theorem reducePhase_le (h : F64.finite (reducePhase a p) = true) :
    F64.le (F64.abs (reducePhase a p)) p = true := by
  unfold reducePhase at h ⊢
  split at h
  · next hlt => rw [if_pos hlt]; exact F64.abs_fmod_le hp hpos (F64.finite_of_finite_fmod h)
  · next hle =>
    have habs := F64.not_isNaN_of_finite ((F64.finite_abs a).trans h)
    rw [if_neg hle, (F64.compare_total habs (F64.not_isNaN_of_finite hp)).1, Bool.eq_false_iff.mpr hle]
    rfl

end

/-! ### A run (44_pll.md R264) -/

/-- The last delta of a run is taken on the run before it. -/
theorem pllDeltas_concat (lo hi kp : F64) (prof : Config.Profile) (d : List F64) (v : F64) (r : PllRun) :
    pllDeltas lo hi kp prof (d ++ [v]) r =
      match pllDeltas lo hi kp prof d r with
      | .error c => .error c
      | .ok r' => pllDelta lo hi kp prof r' v := by
  induction d generalizing r with
  | nil =>
    simp only [List.nil_append, pllDeltas]
    cases pllDelta lo hi kp prof r v <;> rfl
  | cons w d ih =>
    simp only [List.cons_append, pllDeltas]
    cases pllDelta lo hi kp prof r w with
    | error c => rfl
    | ok r' => exact ih r'

end Sys2Proof.Machine
end

section
/-! SUPPORT. What a run emits: groups of zeros ended by a one, and a count for every delta that emits nothing (44_pll.md R263). -/

namespace Sys2Proof.Machine

/-! ### Runs of groups -/

section
variable {mn mx n : Nat} {out : List Bit}

theorem emittedGroups_getLast (h : Claims.EmittedGroups mn mx out n) :
    out = [] ∨ out.getLast? = some true := by
  cases h with
  | nil => exact .inl rfl
  | snoc => exact .inr (by simp)

theorem getD_of_getLast? {l : List Bit} {b : Bit} (h : l.getLast? = some b) : l.getD (l.length - 1) false = b := by
  rw [List.getD_eq_getElem?_getD, ← List.getLast?_eq_getElem?, h]
  rfl

/-- Ones lie less than `mx` apart: each group is shorter than `mx` and ends in a one. -/
theorem emittedGroups_dense (hmn : 1 ≤ mn) (hmx : 2 ≤ mx) (h : Claims.EmittedGroups mn mx out n)
    {i : Nat} (hi : i + (mx - 1) ≤ out.length) : ∃ k, i ≤ k ∧ k < i + (mx - 1) ∧ out.getD k false = true := by
  induction h with
  | nil => simp only [List.length_nil] at hi; omega
  | @snoc out total t h hlo hhi ih =>
    have hlen : (out ++ (List.replicate (t - 1) false ++ [true])).length = out.length + t := by simp; omega
    rw [hlen] at hi
    have hkeep {k : Nat} (hk : k < out.length) :
        (out ++ (List.replicate (t - 1) false ++ [true])).getD k false = out.getD k false :=
      List.getD_append _ _ _ _ hk
    by_cases hold : i + (mx - 1) ≤ out.length
    · obtain ⟨k, hik, hki, hone⟩ := ih hold
      exact ⟨k, hik, hki, (hkeep (by omega)).trans hone⟩
    · by_cases hend : i + (mx - 1) = out.length + t
      · refine ⟨out.length + t - 1, by omega, by omega, ?_⟩
        rw [← hlen]
        exact getD_of_getLast? (by simp)
      · have hne : out ≠ [] := by rintro rfl; simp only [List.length_nil] at *; omega
        have hlast := getD_of_getLast? ((emittedGroups_getLast h).resolve_left hne)
        exact ⟨out.length - 1, by omega, by omega, (hkeep (by omega)).trans hlast⟩

end

/-! ### What one delta adds -/

theorem emitBits_cases (prof : Config.Profile) (t : Nat) :
    (prof.minTicks ≤ t ∧ t < prof.maxTicks ∧ emitBits prof t = List.replicate (t - 1) false ++ [true]) ∨
    emitBits prof t = [] := by
  unfold emitBits
  split
  · next h => exact .inl ⟨h.1, h.2, rfl⟩
  · exact .inr rfl

/-- What one delta emits continues a run of groups. -/
theorem emittedGroups_emitBits {prof : Config.Profile} (hmn : 1 ≤ prof.minTicks) {out : List Bit}
    (h : Claims.EmittedGroups prof.minTicks prof.maxTicks out out.length) (t : Nat) :
    Claims.EmittedGroups prof.minTicks prof.maxTicks (out ++ emitBits prof t)
      (out ++ emitBits prof t).length := by
  rcases emitBits_cases prof t with ⟨hlo, hhi, he⟩ | he
  · have hlen : (out ++ (List.replicate (t - 1) false ++ [true])).length = out.length + t := by simp; omega
    rw [he, hlen]
    exact .snoc h hlo hhi
  · simpa [he] using h

/-- The deltas a run has accounted for: those counted and the ones emitted. -/
def PllRun.accounted (r : PllRun) : Nat := r.tooFast + r.tooSlow + r.out.count true

section
variable {lo hi kp : F64} {prof : Config.Profile} {r r' : PllRun}

/-- Every delta is counted or emits one one. -/
theorem afterTicks_accounted (nxt time : F64) (t : Nat) :
    (afterTicks lo hi kp prof r nxt time t).accounted = r.accounted + 1 := by
  unfold PllRun.accounted
  simp only [afterTicks, emitBits, List.count_append]
  by_cases hfast : t < prof.minTicks
  · simp [hfast, Nat.not_le_of_lt hfast]; omega
  · by_cases hin : t < prof.maxTicks
    · simp [hfast, Nat.le_of_not_lt hfast, hin, List.count_replicate]; omega
    · simp [hfast, hin]; omega

theorem pllDeltas_accounted {d : List F64} (h : pllDeltas lo hi kp prof d r = .ok r') :
    r'.accounted = r.accounted + d.length := by
  induction d generalizing r with
  | nil => cases h; rfl
  | cons v d ih =>
    unfold pllDeltas at h
    split at h
    · cases h
    · next r1 hd =>
      obtain ⟨time, t, -, -, -, -, rfl⟩ := pllDelta_ok hd
      rw [ih h, afterTicks_accounted, List.length_cons]
      omega

theorem pllDeltas_emittedGroups (hmn : 1 ≤ prof.minTicks) {d : List F64}
    (hr : Claims.EmittedGroups prof.minTicks prof.maxTicks r.out r.out.length)
    (h : pllDeltas lo hi kp prof d r = .ok r') :
    Claims.EmittedGroups prof.minTicks prof.maxTicks r'.out r'.out.length := by
  refine pllDeltas_induction
    (P := fun q => Claims.EmittedGroups prof.minTicks prof.maxTicks q.out q.out.length) ?_ hr h
  intro q q' v hq hd
  obtain ⟨time, t, -, -, -, -, rfl⟩ := pllDelta_ok hd
  exact emittedGroups_emitBits hmn hq t

end

/-! ### The statement -/

/-- Settles O55: the loop by the way its clock halts, a delta by steps c to h, a run delta by delta, and its output by induction over the deltas. -/
theorem pllLoopAndEmissionLaw : Obligations.PllLoopAndEmissionLaw := by
  refine ⟨?delta, ?deltaOk, fun u p0 dp prof => ⟨rfl, fun d v => pllDeltas_concat _ _ _ _ _ _ _⟩, ?emission⟩
  case delta =>
    rintro lo hi kp prof r v _ rfl
    refine ⟨pllDelta_of_not_finite, fun hn =>
      ⟨?_, fun _ => pllDelta_of_sticks hn, fun _ _ _ => pllDelta_of_reaches hn⟩⟩
    rcases tickLoop_cases r (F64.add r.last v) with ⟨t, ht, -⟩ | ⟨t, ht, -⟩
    · exact ⟨t, .inl ht⟩
    · exact ⟨t, .inr ht⟩
  case deltaOk =>
    intro lo hi kp prof r r' v h
    obtain ⟨t, hreach, hloop, hr'⟩ := pllDelta_ok_steps h
    refine ⟨⟨t, _, hreach, hloop, afterDelta_iff.mpr ⟨rfl, hr'⟩⟩, fun hp hpos => ?_⟩
    obtain ⟨_, _, -, -, -, hacc, -⟩ := pllDelta_ok h
    rw [hr'] at hp hpos hacc ⊢
    exact reducePhase_le hp hpos hacc
  case emission =>
    intro u d p0 dp prof r hmn _ h
    have hgroups := pllDeltas_emittedGroups hmn .nil h
    refine ⟨hgroups, emittedGroups_getLast hgroups, fun hmx i => emittedGroups_dense hmn hmx hgroups, ?_⟩
    exact (pllDeltas_accounted h).trans (Nat.zero_add _)

end Sys2Proof.Machine
end

section
/-! SUPPORT. The revolution commands, each said once by its operands (45_flux_revolution.md R290 to R298). -/

namespace Sys2Proof.Machine

/-- A command with two operands faults as its ending says. -/
theorem command_faults₂ {α β : Type} {s : State} (h : s.running) {x : Except Refusal α} {a : α}
    (hx : x = .ok a) {y : Except Refusal β} {b : β} (hy : y = .ok b) {k : α → β → Ending}
    {c : FaultCode} (hk : k a b = .fault c) :
    command s (x >>= fun u => y >>= fun v => .ok (k u v)) = faultWith s c := by
  rw [bind_of_ok hx, command_faults h hy hk]

/-! ### `REV_NORMALIZE` (45_flux_revolution.md R290) -/

/-- A pattern orders below zero when its sign is set and its magnitude is not 0. -/
theorem F64.lt_zero_iff {v : F64} (h : F64.finite v = true) :
    F64.lt v (F64.zero false) = true ↔ F64.sign v = true ∧ F64.mag v ≠ 0 := by
  have hzero : F64.isNaN (F64.zero false) = false := by decide
  rw [F64.lt_iff, F64.ord_zero, F64.ord]
  cases F64.sign v <;> simp [F64.not_isNaN_of_finite h, hzero, Nat.pos_iff_ne_zero]

/-- The deltas that fault are those that are not finite and those below zero, `-0.0` not among them (44_pll.md R256). -/
theorem badDelta_iff {v : F64} :
    badDelta v = true ↔ F64.finite v = false ∨ F64.sign v = true ∧ F64.mag v ≠ 0 := by
  cases hf : F64.finite v
  · simp [badDelta, hf]
  · rw [badDelta, hf, Bool.not_true, Bool.false_or, F64.lt_zero_iff hf]
    simp

/-- The deltas that do not fault are the finite ones that are zero or not below it. -/
theorem badDelta_eq_false_iff {v : F64} :
    badDelta v = false ↔ F64.finite v = true ∧ (F64.sign v = true → F64.mag v = 0) := by
  rw [← Bool.not_eq_true, badDelta_iff]
  simp

theorem nonzeroDelta_eq : nonzeroDelta = fun v => decide (F64.mag v ≠ 0) := by
  funext v
  rw [nonzeroDelta, bne, decide_not, beq_eq_decide]

/-- Normalisation drops as many deltas as are zero. -/
theorem dropped_length_eq_countP (x : List F64) :
    x.length - (x.filter nonzeroDelta).length = x.countP (fun v => decide (F64.mag v = 0)) := by
  have hsplit := List.length_eq_countP_add_countP nonzeroDelta (l := x)
  have hzeros : x.countP (fun v => decide ¬nonzeroDelta v = true) =
      x.countP (fun v => decide (F64.mag v = 0)) := by simp [nonzeroDelta]
  rw [← List.countP_eq_length_filter]
  omega

/-- Settles O58: `normalize` faults on a bad delta and otherwise filters; the deltas it drops are the zeros. -/
theorem revNormalizeResult : Obligations.RevNormalizeResult := by
  intro s x h hib
  have hx := State.bufF64s_ok (b := .ib0) hib
  refine ⟨encodedAs_of_fields rfl, fun hbad => command_faults h hx ?fault,
    fun hgood => command_completes h hx ?complete⟩
  case fault =>
    rw [normalizeDeltas_of_bad (by simpa only [badDelta_iff] using hbad), orFault_error]
  case complete =>
    rw [normalizeDeltas_of_good (by simpa only [badDelta_eq_false_iff] using hgood), orFault_ok,
      dropped_length_eq_countP, nonzeroDelta_eq]

/-! ### `REV_ALIGN_PAIR` (45_flux_revolution.md R293) -/

/-- Alignment only moves the boundary between the two lists (45_flux_revolution.md R295). -/
theorem alignPair_append (x y : List F64) : (alignPair x y).first ++ (alignPair x y).second = x ++ y := by
  unfold alignPair
  split
  · dsimp only
    rw [← List.append_assoc, List.take_append_drop]
  · split
    · dsimp only
      rw [List.append_assoc, List.take_append_drop]
    · rfl

/-- The boundary moves by one transition, into the longer list. -/
theorem alignPair_first_length (x y : List F64) :
    (alignPair x y).first.length = if x.length = y.length + 2 then x.length - 1
      else if y.length = x.length + 2 then x.length + 1 else x.length := by
  unfold alignPair
  split
  · rw [List.length_take, Nat.min_eq_left (Nat.sub_le _ _)]
  · split
    · next hb => rw [List.length_append, List.length_take, hb, Nat.min_eq_left (by omega)]
    · rfl

theorem alignPair_synthetic (x y : List F64) : bitWord (alignPair x y).synthetic =
    if x.length = y.length + 2 ∨ y.length = x.length + 2 then 1 else 0 := by
  unfold alignPair
  split
  · next ha => rw [if_pos (.inl ha)]; rfl
  · next ha =>
    split
    · next hb => rw [if_pos (.inr hb)]; rfl
    · next hb => rw [if_neg (not_or.mpr ⟨ha, hb⟩)]; rfl

theorem alignPair_toFirst (x y : List F64) :
    bitWord (alignPair x y).toFirst = if y.length = x.length + 2 then 1 else 0 := by
  unfold alignPair
  split
  · next ha => rw [if_neg (by omega)]; rfl
  · split <;> rfl

/-- Settles O59: the two lists are those of `alignPair` on the normalised inputs. -/
theorem alignmentMovesTheBoundary : Obligations.AlignmentMovesTheBoundary := by
  intro s a b x y h hia hib
  have ha := State.bufF64s_ok (b := .ib0) hia
  have hb := State.bufF64s_ok (b := .ib1) hib
  refine ⟨encodedAs_of_fields rfl, fun ⟨c, hc⟩ => command_faults₂ h ha hb ?fault, fun hx hy =>
    ⟨(alignPair x y).first, (alignPair x y).second, command_completes₂ h ha hb ?complete,
      alignPair_append x y, alignPair_first_length x y⟩⟩
  case fault =>
    rcases hc with hc | hc
    · obtain ⟨rfl, -⟩ := normalizeDeltas_error hc
      rw [hc, orFault_error]
    · obtain ⟨rfl, -⟩ := normalizeDeltas_error hc
      rcases orFault_cases (normalizeDeltas a) _ with ⟨c', hc', hend⟩ | ⟨x', -, hend⟩
      · rw [hend, (normalizeDeltas_error hc').1]
      · rw [hend, hc, orFault_error]
  case complete =>
    rw [hx, orFault_ok, hy, orFault_ok, alignPair_synthetic, alignPair_toFirst]

/-! ### Encoding auto-detection (45_flux_revolution.md R297, R298) -/

section
variable {u : Pll} {d : List F64} {time : F64}

theorem fmPass_of_bad_centre
    (h : validCentre (F64.mul u.defaultPeriod Config.fmProfile.periodMult) u.maxAdjust = false) :
    fmPass u d = .error .badOperand :=
  if_neg (Bool.eq_false_iff.mp h)

theorem fmPass_of_valid_centre
    (h : validCentre (F64.mul u.defaultPeriod Config.fmProfile.periodMult) u.maxAdjust = true) :
    fmPass u d = pllRun u d (F64.mul u.defaultPeriod Config.fmProfile.periodMult)
      (F64.mul u.defaultPeriod Config.fmProfile.periodMult) Config.fmProfile :=
  if_pos h

theorem detectEncoding_of_mfm_fault {c : FaultCode}
    (h : pllRun u d u.defaultPeriod u.defaultPeriod mfmProfile = .error c) :
    detectEncoding u d time = .error .invalidFluxDelta := by
  rw [detectEncoding, h, pllRun_error h]

variable {m : PllRun} (hm : pllRun u d u.defaultPeriod u.defaultPeriod mfmProfile = .ok m)
include hm

/-- The MFM decode stands when it holds markers or the classifier does not suggest FM. -/
theorem detectEncoding_keeps_mfm
    (h : Config.hasMarkers m.out = true ∨ Config.fmSuggested d time = false) :
    detectEncoding u d time = .ok (m, false) := by
  rw [detectEncoding, hm]
  exact if_neg (by rcases h with h | h <;> simp [h])

variable (hnone : Config.hasMarkers m.out = false) (hfm : Config.fmSuggested d time = true)
include hnone hfm

theorem detectEncoding_of_fm_fault {c : FaultCode} (h : fmPass u d = .error c) :
    detectEncoding u d time = .error c := by
  rw [detectEncoding, hm]
  refine (if_pos (by simp [hnone, hfm])).trans ?_
  rw [h]

/-- The FM pass decides by its own markers. -/
theorem detectEncoding_of_fm {f : PllRun} (h : fmPass u d = .ok f) :
    detectEncoding u d time = if Config.hasMarkers f.out = true then .ok (f, true) else .ok (m, false) := by
  rw [detectEncoding, hm]
  refine (if_pos (by simp [hnone, hfm])).trans ?_
  rw [h]

end

/-- The results of `REV_DECODE_DIRECT`, for the decode kept and whether it is the FM one. -/
def revDecodeResults (r : PllRun) (fm : Bit) : Results :=
  { y0 := some (if fm then 1 else 0), y1 := some (u64 r.tooFast), y2 := some (u64 r.tooSlow)
    y3 := some (u64 r.out.length), ob0 := some (.bits r.out) }

section
variable {s : State} (h : s.running) {x : List F64} {time : U64} (hx : s.bufF64s .ib0 = .ok x)
  (ht : s.arg .a0 = .ok time)
include h hx ht

theorem exec_revDecodeDirect_of_bad_delta (hbad : ∃ v ∈ x, badDelta v = true) :
    exec .revDecodeDirect s = faultWith s .invalidFluxDelta :=
  command_faults₂ h hx ht (by rw [normalizeDeltas_of_bad hbad, orFault_error])

variable (hgood : ∀ v ∈ x, badDelta v = false)
include hgood

theorem exec_revDecodeDirect_faults {c : FaultCode}
    (ha : detectEncoding s.pll (x.filter nonzeroDelta) time = .error c) :
    exec .revDecodeDirect s = faultWith s c :=
  command_faults₂ h hx ht (by rw [normalizeDeltas_of_good hgood, orFault_ok, ha, orFault_error])

/-- Of the PLL unit only the counts are written. -/
theorem exec_revDecodeDirect_completes {r : PllRun} {fm : Bit}
    (ha : detectEncoding s.pll (x.filter nonzeroDelta) time = .ok (r, fm)) :
    exec .revDecodeDirect s = okWith { s with pll := s.pll.withCounts r } (revDecodeResults r fm) :=
  command_completes₂ h hx ht (by
    rw [normalizeDeltas_of_good hgood, orFault_ok, ha, orFault_ok]
    cases fm <;> rfl)

end

/-- Settles O60: each row of R298 is the answer of `detectEncoding` in its case. -/
theorem revDecodeDirectResult : Obligations.RevDecodeDirectResult := by
  rintro s x _ time _ _ h hib htime rfl rfl rfl
  have hx := State.bufF64s_ok (b := .ib0) hib
  have ht := State.arg_ok (a := .a0) htime
  refine ⟨encodedAs_of_fields rfl, exec_revDecodeDirect_of_bad_delta h hx ht, fun hgood =>
    ⟨fun c hm => ?mfmFault, fun m hm => ⟨fun hkeep => ?mfm, fun hnone hfm =>
      ⟨fun hc => ?fmCentre, fun hc => ⟨fun c hf => ?fmFault, fun f hf => ?fm⟩⟩⟩⟩⟩
  case mfmFault => exact exec_revDecodeDirect_faults h hx ht hgood (detectEncoding_of_mfm_fault hm)
  case mfm => exact exec_revDecodeDirect_completes h hx ht hgood (detectEncoding_keeps_mfm hm hkeep)
  case fmCentre =>
    exact exec_revDecodeDirect_faults h hx ht hgood
      (detectEncoding_of_fm_fault hm hnone hfm (fmPass_of_bad_centre hc))
  case fmFault =>
    obtain rfl := pllRun_error hf
    exact exec_revDecodeDirect_faults h hx ht hgood
      (detectEncoding_of_fm_fault hm hnone hfm ((fmPass_of_valid_centre hc).trans hf))
  case fm =>
    have hans := detectEncoding_of_fm hm hnone hfm ((fmPass_of_valid_centre hc).trans hf)
    split
    · next hmarkers => exact exec_revDecodeDirect_completes h hx ht hgood (hans.trans (if_pos hmarkers))
    · next hmarkers => exact exec_revDecodeDirect_completes h hx ht hgood (hans.trans (if_neg hmarkers))

end Sys2Proof.Machine
end

section
/-! SUPPORT. How every command may end (60_exceptions.md R310, R311): the endings the status table lists for it, from which the precise fault (R314, R316) and the completion without one (R312) follow; and the halted block (R317, R318). -/

namespace Sys2Proof.Machine

theorem State.not_halted_of_running {s : State} (h : s.running) : ¬ s.halted := by
  rw [State.halted, h]
  exact Bool.false_ne_true

theorem State.running_complete {s : State} (h : s.running) (code : BitVec 8) (r : Results) :
    (s.complete code r).running := (s.faulted_complete code r).trans h

/-! ### The endings the status table lists -/

/-- An ending of the command `i` issued in `s` that the table of 60_exceptions.md R311 lists for `i`; the state of a success leaves STATUS to the completion. -/
inductive Ending.Listed (i : Instr) (s : State) : Ending → Prop where
  | ok {s' : State} {r : Results} (h : s'.status = s.status) : Ending.Listed i s (.ok s' r)
  | none (h : Claims.mayEndNone i = true) : Ending.Listed i s .none
  | invalidInput (h : Claims.mayEndInvalid i = true) : Ending.Listed i s .invalidInput
  | fault {c : FaultCode} (h : Claims.mayRaise i c = true) : Ending.Listed i s (.fault c)

/-- The body ends as listed, unless it is refused. -/
def BodyListed (i : Instr) (s : State) (body : Except Refusal Ending) : Prop :=
  ∀ e, body = .ok e → e.Listed i s

section
variable {i : Instr} {s : State}

theorem bodyListed_ok {e : Ending} (h : e.Listed i s) : BodyListed i s (.ok e) := by
  rintro _ ⟨⟩
  exact h

theorem bodyListed_bind {α : Type} {x : Except Refusal α} {k : α → Except Refusal Ending}
    (h : ∀ a, x = .ok a → BodyListed i s (k a)) : BodyListed i s (x >>= k) := by
  intro e he
  obtain ⟨a, ha, hk⟩ := bind_eq_ok he
  exact h a ha e hk

theorem listed_ite {p : Prop} [Decidable p] {e e' : Ending} (h : p → e.Listed i s)
    (h' : ¬ p → e'.Listed i s) : (if p then e else e').Listed i s := by
  split
  · next hp => exact h hp
  · next hp => exact h' hp

theorem listed_orFault {α : Type} {x : Except FaultCode α} {k : α → Ending}
    (hx : ∀ c, x = .error c → Claims.mayRaise i c = true) (hk : ∀ a, (k a).Listed i s) :
    (orFault x k).Listed i s := by
  cases x with
  | error c => exact .fault (hx c rfl)
  | ok a => exact hk a

/-- An operation whose only fault is `c`. -/
theorem listed_orFault_only {α : Type} {x : Except FaultCode α} {k : α → Ending} {c : FaultCode}
    (hc : Claims.mayRaise i c = true) (hx : ∀ c', x = .error c' → c' = c)
    (hk : ∀ a, (k a).Listed i s) : (orFault x k).Listed i s :=
  listed_orFault (fun c' he => by rw [hx c' he, hc]) hk

/-- An operation that does not fault. -/
theorem listed_orFault_never {α : Type} {x : Except FaultCode α} {k : α → Ending}
    (hx : ∃ a, x = .ok a) (hk : ∀ a, (k a).Listed i s) : (orFault x k).Listed i s := by
  obtain ⟨a, rfl⟩ := hx
  exact hk a

/-- After the checks of an access command its ring of track bits is not empty. -/
theorem listed_accessChecks {c : Codec} {past : Nat} {k : Ending}
    (hinv : Claims.mayEndInvalid i = true) (hover : Claims.mayRaise i .indexOverflow = true)
    (hk : c.bits.wrap ≠ 0 → k.Listed i s) : (accessChecks c past k).Listed i s :=
  listed_ite (fun _ => .invalidInput hinv) fun hw => listed_ite (fun _ => .fault hover) fun _ => hk hw

/-- A running block ends a command as its body does. -/
theorem command_listed {t : State} {body : Except Refusal Ending} (h : s.running)
    (ht : command s body = .next t) (hb : BodyListed i s body) :
    ∃ e : Ending, e.Listed i s ∧ t = conclude s e := by
  rcases command_next ht with ⟨hh, -⟩ | ⟨-, e, he, rfl⟩
  · exact absurd hh (State.not_halted_of_running h)
  · exact ⟨e, hb e he, rfl⟩

/-- A command that reads no operand. -/
theorem command_ok_listed {t : State} {e : Ending} (h : s.running)
    (ht : command s (.ok e) = .next t) (he : e.Listed i s) :
    ∃ e : Ending, e.Listed i s ∧ t = conclude s e := command_listed h ht (bodyListed_ok he)

end

/-! ### The faults of the shared operations -/

/-- The reads of the first revolution do not fault: of an empty ring there are none (41_bitring.md R141). -/
theorem Ring.getMany_wrap_ok (r : Ring) : ∃ bs, r.getMany r.wrap 0 = .ok bs :=
  Ring.getMany_of_readable ((eq_or_ne r.wrap 0).imp_right .inl) 0

/-- A mask is bad only where the command takes one. -/
theorem given_of_badMask {s : State} {p : Bool} {b : InBuf} {m : Option (List Bit)} {n : Nat}
    (hm : s.bufBitsIf p b = .ok m) (hbad : badMask m n = true) : p = true := by
  cases p with
  | true => rfl
  | false => cases hm; cases hbad

/-- The faults of a decode after the hint (44_pll.md R261, R266). -/
theorem Pll.decode_error {u : Pll} {e : PllEnc} {d : List F64} {c : FaultCode}
    (h : u.decode e d = .error c) : c = .invalidFluxDelta ∨ c = .badOperand := by
  cases e with
  | mfm =>
    simp only [Pll.decode] at h
    split at h
    · next hr => cases h; exact .inl (pllRun_error hr)
    · cases h
  | fm =>
    simp only [Pll.decode] at h
    split at h
    · split at h
      · next hr => cases h; exact .inl (pllRun_error hr)
      · cases h
    · cases h; exact .inr rfl

theorem fmPass_error {u : Pll} {d : List F64} {c : FaultCode} (h : fmPass u d = .error c) :
    c = .invalidFluxDelta ∨ c = .badOperand := by
  unfold fmPass at h
  split at h
  · exact .inl (pllRun_error h)
  · cases h; exact .inr rfl

/-- The faults of auto-detection: those of its two passes (45_flux_revolution.md R297). -/
theorem detectEncoding_error {u : Pll} {d : List F64} {time : F64} {c : FaultCode}
    (h : detectEncoding u d time = .error c) : c = .invalidFluxDelta ∨ c = .badOperand := by
  unfold detectEncoding at h
  split at h
  · next hr => cases h; exact .inl (pllRun_error hr)
  · split at h
    · split at h
      · next hr => cases h; exact fmPass_error hr
      · split at h <;> cases h
    · cases h

/-- A decoded read, for the commands the table lists with the faults of one. -/
theorem decodedRead_listed {i : Instr} (hinv : Claims.mayEndInvalid i = true)
    (hover : Claims.mayRaise i .indexOverflow = true) (hempty : Claims.mayRaise i .ringEmpty = true)
    (s : State) (off w : Nat) : (decodedRead s off w).Listed i s :=
  listed_accessChecks hinv hover fun _ =>
    listed_orFault_only hempty (fun _ => Codec.align_error) fun _ =>
      listed_orFault_only hempty (fun _ => Codec.readBits_error) fun _ => .ok rfl

/-! ### The commands -/

/-- Every command on a running block ends as the table of 60_exceptions.md R311 lists, when it is not refused. -/
theorem exec_listed {i : Instr} {s t : State} (h : s.running) (ht : exec i s = .next t) :
    ∃ e : Ending, e.Listed i s ∧ t = conclude s e := by
  cases i with
  | ringLen | getClockMap | getErrorMap | getWeakData | createErrorMap | pllReset =>
    exact command_ok_listed h ht (.ok rfl)
  | ringSetWrap | ringSetWrapValue | setTrackLen | setWeakEnabled | isData | createWeakMask =>
    exact command_listed h ht (bodyListed_bind fun _ _ => bodyListed_ok (.ok rfl))
  | encodeMfm =>
    exact command_listed h ht (bodyListed_bind fun _ _ => bodyListed_bind fun _ _ =>
      bodyListed_ok (.ok rfl))
  | ringGet =>
    exact command_listed h ht (bodyListed_bind fun _ _ => bodyListed_ok
      (listed_orFault_only rfl (fun _ he => (Ring.get_error he).1) fun _ => .ok rfl))
  | ringSet =>
    exact command_listed h ht (bodyListed_bind fun _ _ => bodyListed_bind fun _ _ => bodyListed_ok
      (listed_orFault_only rfl (fun _ he => (Ring.set_error he).1) fun _ => .ok rfl))
  | ringIter =>
    exact command_listed h ht (bodyListed_bind fun _ _ => bodyListed_ok
      (listed_orFault_only rfl (fun _ => Ring.getMany_error) fun _ => .ok rfl))
  | ringIterRev =>
    exact command_ok_listed h ht (listed_orFault_never (Ring.getMany_wrap_ok _) fun _ => .ok rfl)
  | ringRead sel =>
    refine command_listed h ht (bodyListed_bind fun n _ => bodyListed_ok
      (listed_ite (fun _ => .invalidInput rfl) fun hw => listed_orFault_never ?_ fun _ => .ok rfl))
    obtain ⟨out, c, hout, -⟩ := Ring.takeBytes_of_wrap hw n (s.codec.ring sel).cursor
    exact ⟨(out, c), hout⟩
  | codecNew =>
    exact command_listed h ht (bodyListed_bind fun _ _ => bodyListed_bind fun _ _ =>
      bodyListed_bind fun _ hm => bodyListed_ok (listed_ite
        (fun hbad => .fault (by rw [given_of_badMask hm hbad]; rfl)) fun _ => .ok rfl))
  | setClockMap | setDataRanges =>
    exact command_listed h ht (bodyListed_bind fun _ _ => bodyListed_ok
      (listed_ite (fun _ => .fault rfl) fun _ => .ok rfl))
  | readRawU8 | readRawU32 =>
    exact command_listed h ht (bodyListed_bind fun _ _ => bodyListed_ok (listed_accessChecks rfl rfl
      fun _ => listed_orFault_only rfl (fun _ => Codec.readBits_error) fun _ => .ok rfl))
  | readRawBuf =>
    exact command_listed h ht (bodyListed_bind fun _ _ => bodyListed_bind fun _ _ => bodyListed_ok
      (listed_accessChecks rfl rfl fun _ =>
        listed_orFault_only rfl (fun _ => Codec.readBits_error) fun _ => .ok rfl))
  | readDecodedU8 | readDecodedU32 =>
    exact command_listed h ht (bodyListed_bind fun _ _ => bodyListed_ok
      (decodedRead_listed rfl rfl rfl s _ _))
  | streamRead =>
    refine command_listed h ht (bodyListed_bind fun _ _ => bodyListed_ok (listed_ite
      (fun _ => .invalidInput rfl) fun _ => listed_orFault (fun c hstarts => ?_) fun _ =>
        listed_orFault_only rfl (fun _ => Codec.readBits_error) fun _ => .ok rfl))
    rcases Codec.streamStarts_error hstarts with rfl | rfl <;> rfl
  | seek =>
    exact command_listed h ht (bodyListed_bind fun _ _ => bodyListed_ok (listed_ite
      (fun _ => .invalidInput rfl) fun _ => listed_ite (fun _ => .invalidInput rfl) fun _ => .ok rfl))
  | writeRawBuf =>
    exact command_listed h ht (bodyListed_bind fun _ _ => bodyListed_bind fun _ _ => bodyListed_ok
      (listed_accessChecks rfl rfl fun hw =>
        listed_orFault_never (Ring.setMany_of_wrap hw _ _) fun _ => .ok rfl))
  | writeEncodedBuf =>
    exact command_listed h ht (bodyListed_bind fun _ _ => bodyListed_bind fun _ _ => bodyListed_ok
      (listed_accessChecks rfl rfl fun hw => listed_orFault_never (Ring.get_ok (.inl hw) _) fun _ =>
        listed_orFault_never (Ring.setMany_of_wrap hw _ _) fun _ => .ok rfl))
  | findMarker =>
    refine command_listed h ht (bodyListed_bind fun _ _ => bodyListed_bind fun _ _ =>
      bodyListed_bind fun _ _ => bodyListed_bind fun _ _ => bodyListed_ok ?_)
    split
    · exact .none rfl
    · exact .ok rfl
  | findSync =>
    refine command_listed h ht (bodyListed_bind fun _ _ => bodyListed_ok ?_)
    split
    · exact .none rfl
    · exact .ok rfl
  | pllConfig =>
    exact command_listed h ht (bodyListed_bind fun _ _ => bodyListed_bind fun _ _ =>
      bodyListed_bind fun _ _ => bodyListed_bind fun _ _ => bodyListed_ok
        (listed_ite (fun _ => .fault rfl) fun _ => .ok rfl))
  | pllDecode =>
    refine command_listed h ht (bodyListed_bind fun _ _ => bodyListed_bind fun _ _ => bodyListed_ok
      (listed_orFault_only rfl (fun _ he => (normalizeDeltas_error he).1) fun _ =>
        listed_ite (fun _ => .fault rfl) fun _ => listed_orFault (fun c hdecode => ?_) fun _ => .ok rfl))
    rcases Pll.decode_error hdecode with rfl | rfl <;> rfl
  | revNormalize =>
    exact command_listed h ht (bodyListed_bind fun _ _ => bodyListed_ok
      (listed_orFault_only rfl (fun _ he => (normalizeDeltas_error he).1) fun _ => .ok rfl))
  | revAlignPair =>
    exact command_listed h ht (bodyListed_bind fun _ _ => bodyListed_bind fun _ _ => bodyListed_ok
      (listed_orFault_only rfl (fun _ he => (normalizeDeltas_error he).1) fun _ =>
        listed_orFault_only rfl (fun _ he => (normalizeDeltas_error he).1) fun _ => .ok rfl))
  | revDecodeDirect =>
    refine command_listed h ht (bodyListed_bind fun _ _ => bodyListed_bind fun _ _ => bodyListed_ok
      (listed_orFault_only rfl (fun _ he => (normalizeDeltas_error he).1) fun _ =>
        listed_orFault (fun c hdetect => ?_) fun _ => .ok rfl))
    rcases detectEncoding_error hdetect with rfl | rfl <;> rfl
  | regRead =>
    rw [exec_regRead_running h] at ht
    refine command_listed h ht (bodyListed_bind fun _ _ => bodyListed_ok ?_)
    split
    · exact .fault rfl
    · exact .ok rfl

/-! ### The codes -/

/-- A fault code is no code of a completion without a fault (60_exceptions.md R311). -/
theorem FaultCode.byte_ne_of_plainCode {b : BitVec 8} (hb : plainCode b = true) (c : FaultCode) :
    c.byte ≠ b := by
  rintro rfl
  cases c <;> cases hb

theorem FaultCode.byte_injective : Function.Injective FaultCode.byte :=
  Function.LeftInverse.injective (g := fun b => FaultCode.ofNat (b.toNat - 0x80)) fun c => by
    cases c <;> decide

/-- The code an ending gives (60_exceptions.md R311). -/
def Ending.code : Ending → BitVec 8
  | .ok _ _ => codeOk
  | .none => codeNone
  | .invalidInput => codeInvalidInput
  | .fault c => c.byte

@[simp] theorem statusCode_conclude (s : State) (e : Ending) : statusCode (conclude s e).status = e.code := by
  cases e with
  | ok | none | invalidInput => exact statusCode_setStatusCode _ _
  | fault c => exact statusCode_faultStatus _ c

section
variable {i : Instr} {s : State} {e : Ending}

/-- Of the four endings only the fault halts a running block. -/
theorem Ending.Listed.fault_of_halted (hl : e.Listed i s) (h : s.running) (hh : (conclude s e).halted) :
    ∃ c, e = .fault c ∧ Claims.mayRaise i c = true := by
  cases hl with
  | ok hst =>
    have hs' := (congrArg statusFaulted hst).trans h
    exact absurd hh (State.not_halted_of_running (State.running_complete hs' _ _))
  | none | invalidInput =>
    exact absurd hh (State.not_halted_of_running (State.running_complete h _ _))
  | fault hc => exact ⟨_, rfl, hc⟩

theorem Ending.Listed.mayEndNone (hl : e.Listed i s) (hcode : e.code = codeNone) :
    Claims.mayEndNone i = true := by
  cases hl with
  | none hn => exact hn
  | ok | invalidInput => cases hcode
  | fault => exact absurd hcode (FaultCode.byte_ne_of_plainCode rfl _)

theorem Ending.Listed.mayEndInvalid (hl : e.Listed i s) (hcode : e.code = codeInvalidInput) :
    Claims.mayEndInvalid i = true := by
  cases hl with
  | invalidInput hi => exact hi
  | ok | none => cases hcode
  | fault => exact absurd hcode (FaultCode.byte_ne_of_plainCode rfl _)

end

/-! ### The statements -/

/-- Settles O15: a halted block has ended in a fault, taken on the state before the command. -/
theorem faultIsPrecise : Obligations.FaultIsPrecise := by
  intro i s t h hwf ht hh
  obtain ⟨e, hl, rfl⟩ := exec_listed h ht
  obtain ⟨c, rfl, -⟩ := hl.fault_of_halted h hh
  obtain ⟨hlo, hhi, -⟩ := statusWf_iff.mp hwf
  refine ⟨c, ?_⟩
  rw [conclude_fault, State.raise, faultStatus_of_wf h hlo hhi c]

/-- Settles O16: the ending is listed, and its code tells which ending it was. -/
theorem outcomesRaisedAsListed : Obligations.OutcomesRaisedAsListed := by
  intro i s t h ht
  obtain ⟨e, hl, rfl⟩ := exec_listed h ht
  rw [statusCode_conclude]
  refine ⟨fun c hh hcode => ?_, hl.mayEndNone, hl.mayEndInvalid⟩
  obtain ⟨c', rfl, hc⟩ := hl.fault_of_halted h hh
  rwa [← FaultCode.byte_injective hcode]

/-- Settles O17: the three endings that leave the block running write their code over STATUS as it was, and two of them nothing else. -/
theorem nonFaultCompletion : Obligations.NonFaultCompletion := by
  intro i s t h ht hrun
  obtain ⟨e, hl, rfl⟩ := exec_listed h ht
  cases hl with
  | ok hst => simp [hst, plainCode]
  | none | invalidInput => simp [plainCode, State.complete]
  | fault => exact absurd (State.faulted_raise s _) (State.not_halted_of_running hrun)

/-! ### The halted block (60_exceptions.md R317, R318) -/

theorem encode_regRead : encode .regRead = 0x70000000#32 := by decide

theorem decode_regRead : decode 0x70000000#32 = .ok .regRead := by decide

theorem State.illegalWord_halted {s : State} (h : s.halted) : s.illegalWord = s := if_pos h

/-- A halted block does nothing with any other word. -/
theorem issue_halted {s : State} (h : s.halted) {w : CmdWord} (hw : w ≠ 0x70000000#32) :
    issue w s = .next s := by
  cases hd : decode w with
  | error e => rw [issue_of_decode_error hd, State.illegalWord_halted h]
  | ok i =>
    have hi : i ≠ .regRead := by
      rintro rfl
      exact hw ((encodeOfDecode w _ hd).symm.trans encode_regRead)
    rw [issue_of_decode_ok hd, exec_halted h hi]

theorem issue_regRead_halted {s : State} (h : s.halted) :
    issue 0x70000000#32 s = .next (regReadHalted s) := by
  rw [issue_of_decode_ok decode_regRead, exec_regRead_halted h]

section
variable {s : State} {num : U64} (ha : s.args.a0 = some num)
include ha

theorem regReadHalted_of_register {v : U64} (hv : regValue s num.toNat = some v) :
    regReadHalted s = { s with results := { s.results with y0 := some v } } := by
  simp [regReadHalted, ha, hv]

theorem regReadHalted_of_reserved (hv : regValue s num.toNat = none) : regReadHalted s = s := by
  simp [regReadHalted, ha, hv]

end

@[simp] theorem regReadHalted_status (s : State) : (regReadHalted s).status = s.status := by
  rcases regReadHalted_eq s with he | ⟨v, he⟩ <;> rw [he]

/-- No word changes STATUS of a halted block. -/
theorem issue_halted_status {s t : State} (h : s.halted) {w : CmdWord} (ht : issue w s = .next t) :
    t.status = s.status := by
  by_cases hw : w = 0x70000000#32
  · rw [hw, issue_regRead_halted h] at ht
    cases ht
    exact regReadHalted_status s
  · rw [issue_halted h hw] at ht
    cases ht
    rfl

/-- No host event but reset changes STATUS of a halted block. -/
theorem hostEvent_halted_status {e : HostEvent} {s t : State} (h : s.halted) (he : e ≠ .reset)
    (ht : hostEvent e s = .next t) : t.status = s.status := by
  cases e with
  | writeArg a v => cases ht; rfl
  | writeBuf b v => cases ht; exact State.writeBuf_status s b v
  | command w => exact issue_halted_status h ht
  | readResult y => rw [hostReadResult_next ht]
  | readOut o => rw [hostReadOut_next ht]
  | reset => exact absurd rfl he

/-- A halted block stays halted until reset (60_exceptions.md R317). -/
theorem step_keeps_halted {s t : State} {e : HostEvent} {rest : List HostEvent} (h : s.halted)
    (hp : s.pending = e :: rest) (he : e ≠ .reset) (ht : step s = .next t) : t.halted := by
  rw [step_event hp] at ht
  have hst : t.status = s.status := hostEvent_halted_status (s := { s with pending := rest }) h he ht
  exact (congrArg statusFaulted hst).trans h

/-- Settles O13: by the word, and for `REG_READ` by the register number in `A0`. -/
theorem haltedBlockOnlyReadsRegisters : Obligations.HaltedBlockOnlyReadsRegisters := by
  intro s h
  refine ⟨fun w hw => issue_halted h hw, fun num v ha hv => ?_, fun num ha hv => ?_,
    fun t e rest hp he ht => step_keeps_halted h hp he ht⟩
  · rw [issue_regRead_halted h, regReadHalted_of_register ha hv]
  · rw [issue_regRead_halted h, regReadHalted_of_reserved ha hv]

end Sys2Proof.Machine
end

section
/-! SUPPORT. Reset (70_reset_and_hazards.md R340, R341): the host's reset event, and the construction of a codec of no bits. -/

namespace Sys2Proof.Machine

/-- The reset event is never refused, and `afterReset` is all it does. -/
theorem step_reset {s : State} {rest : List HostEvent} (h : s.pending = .reset :: rest) :
    step s = .next { s with pending := rest }.afterReset := step_event h

/-- What `afterReset` keeps of a state, the host's own sequence and the draws, is none of the elements R340 lists. -/
theorem State.atReset_afterReset (s : State) :
    Claims.AtReset Config.pllDefaultRate Config.pllDensityFactor s.afterReset := resetStateValues

/-- Settles O7: the reset event by its step, every other event by `step_keeps_halted`. -/
theorem resetEventSetsEveryElement : Obligations.ResetEventSetsEveryElement :=
  ⟨fun _ _ hp => ⟨_, step_reset hp, State.atReset_afterReset _⟩,
    fun _ _ _ _ hp he hs ht => step_keeps_halted hs hp he ht⟩

/-- No bits hold no sync pattern, and so the phase is 0. -/
theorem syncPhase_of_no_bits : syncPhase (syncScan (Ring.fromBits []) 0) = false := by
  rw [syncScan_eq_none fun o _ hwrap => absurd hwrap (Nat.not_succ_le_zero (o + 31))]
  rfl

/-- The codec of no bits is the codec at reset (70_reset_and_hazards.md R341). -/
theorem Codec.build_nil : Codec.build [] none = Codec.reset := by
  rw [Codec.build_eq (x := []) (m := none) nofun, syncPhase_of_no_bits]
  rfl

/-- `CODEC_NEW` without a mask, when its count keeps none of the bits. -/
theorem exec_codecNew_of_no_bits {s : State} (h : s.running) {x : List Bit} (hx : s.ib0 = some (.bits x))
    {cnt : Option U64} (hcnt : ∀ v, cnt = some v → s.args.a0 = some v)
    (hnone : x.take (truncLength (cnt.map BitVec.toNat) x.length) = []) :
    exec (.codecNew cnt.isSome false) s = okWith { s with codec := State.reset.codec } {} := by
  have hexec := exec_codecNew h hx hcnt (m := none) nofun
  rw [hnone] at hexec
  calc exec (.codecNew cnt.isSome false) s
      = .next (conclude s (.ok { s with codec := Codec.build [] none } {})) := hexec
    _ = okWith { s with codec := State.reset.codec } {} := by
        rw [conclude_ok, Codec.build_nil]
        rfl

/-- Settles O30: no bits are cut to no bits, and a count of 0 cuts any bits to none. -/
theorem emptyCodecNewIsReset : Obligations.EmptyCodecNewIsReset := by
  refine fun s h => ⟨fun hx => ?noBits, fun x hx ha => ?noCount⟩
  case noBits => exact exec_codecNew_of_no_bits h hx (cnt := none) nofun List.take_nil
  case noCount =>
    refine exec_codecNew_of_no_bits h hx (cnt := some 0#64) (fun v hv => ?_) ?_
    · exact Option.some.inj hv ▸ ha
    · simp [truncLength]

end Sys2Proof.Machine
end
